-- ==== Sys2Proof/Word.lean ====
section
/-! DEFINITION. The word type of the block: the byte every bus exchange and every host-buffer access moves (20_memory.md R45, R47).
Lengths, sums of lengths and results are natural numbers (00_scope.md R8); `LEN_W` bounds them where a width is stated (R7, R29). -/

namespace Sys2Proof

/-- One byte: the only width the bus and the host buffers know (R45, R47). -/
abbrev Byte := BitVec 8

end Sys2Proof
end

