-- ==== Sys2Proof/Config.lean ====
section
/-! DEFINITION. The implementation parameters of 00_scope.md R7, all twelve, and the free draws of R9.
`State` carries the parameters as plain data, so that every claim holds for every choice of them (assumption 1).
What the chip, the ready line and the interrupt line do is a free draw: an opaque constant applied to a counter (assumption 3). -/

namespace Sys2Proof

/-- What a host-buffer index that no cell lists reads as.
DESIGN CHOICE, unsafe (assumption 8): the spec says nothing of a host byte that the host never stored. -/
def Config.unlistedByte : Byte := 0x00

/-- The byte the chip answers in the `n`-th exchange that no given answer covers: a free draw of 8 bits (R9, R119). No body. -/
opaque Config.chipAnswer : Nat → Byte

/-- The `n`-th sample of the `NOT_READY` level that no given sample covers: free (R30, R116). No body. -/
opaque Config.notReadyLevel : Nat → Bool

/-- Whether a packet-ready edge comes before the `n`-th event of the sequencer that no given sample covers: free (R209). No body. -/
opaque Config.packetEdge : Nat → Bool

/-- Where `INIT_TABLE` of `State.reset` comes from: OPEN in R7, so no value. No body (assumption 1). -/
opaque Config.initTable : List (Byte × Byte)

/-- Which negative integer `ERR_OVERSIZE` of `State.reset` is, as `Params.errCode` numbers them: OPEN in R7, so no value. No body
(assumption 1). -/
opaque Config.errOversize : Nat

/-- `ADDR_MAP`: the numeric address of every named register and strobe (R7, 30_encoding.md R64–R66). -/
structure AddrMap where
  /-- The configuration registers, in the order of R64: IOCFG2 first, TEST0 last. -/
  config : List Byte
  patable : Byte
  fifo : Byte
  sres : Byte
  sfstxon : Byte
  sxoff : Byte
  scal : Byte
  srx : Byte
  stx : Byte
  sidle : Byte
  swor : Byte
  spwd : Byte
  sfrx : Byte
  sftx : Byte
  sworrst : Byte
  snop : Byte
  /-- The chip addresses `A` of the status registers, in the order of R66: PARTNUM first, RCCTRL0_STATUS last. -/
  status : List Byte
  deriving DecidableEq, Repr

/-- The parameters that say how bits are laid out (R7). -/
structure Layout where
  /-- `ADDR_W`: width of a logical register address. -/
  addrW : Nat
  /-- `R_BIT`: the bit of the header byte that marks a read (D1). -/
  rBit : Nat
  /-- `B_BIT`: the bit of the header byte that marks a burst (D1). -/
  bBit : Nat
  /-- Lowest bit of `STATE_FIELD`, a field of 3 bits of the status byte (D3). -/
  stateLow : Nat
  /-- Lowest bit of `FIFO_FIELD`, a field of 4 bits of the status byte (D3). -/
  fifoLow : Nat
  /-- `ADDR_MAP` (D5). -/
  addrMap : AddrMap
  /-- `LEN_W`: width of the host's header length, payload length and buffer capacity, and of `RES_VAL` (D8, R29). -/
  lenW : Nat
  /-- `DUMMY`: the byte sent during the data phase of a read (D12). -/
  dummy : Byte
  deriving DecidableEq, Repr

/-- The parameters a model takes as arguments (R7). -/
structure Params where
  /-- The eight layout parameters. -/
  layout : Layout
  /-- `MAX_LEN`, the frame-size ceiling. The constraint 0 ≤ `MAX_LEN` ≤ 255 is the width of the field. -/
  maxLen : Byte
  /-- `BURST_END_PULSE`: whether a burst access is closed by a chip-select pulse (R114). -/
  burstEndPulse : Bool
  /-- `INIT_TABLE`: the (address, value) pairs INIT writes, in order (R161). OPEN. -/
  initTable : List (Byte × Byte)
  /-- Which negative integer `ERR_OVERSIZE` is, counted down from -1 (`Params.errOversize`). OPEN; R7 and R203 let it be any negative
  integer and no other. -/
  errCode : Nat
  deriving DecidableEq, Repr

/-- `ERR_OVERSIZE`: the integer a software host reads for OversizeFrame, negative for every `errCode` (R7, R203). -/
def Params.errOversize (p : Params) : Int := Int.negSucc p.errCode

/-- The reference address map (R64–R66; decision D5). -/
def AddrMap.reference : AddrMap :=
  { config := (List.range 0x2F).map (BitVec.ofNat 8), patable := 0x3E, fifo := 0x3F
    sres := 0x30, sfstxon := 0x31, sxoff := 0x32, scal := 0x33, srx := 0x34, stx := 0x35, sidle := 0x36, swor := 0x38
    spwd := 0x39, sfrx := 0x3A, sftx := 0x3B, sworrst := 0x3C, snop := 0x3D
    status := (List.range 14).map fun k => BitVec.ofNat 8 (0x30 + k) }

/-- The reference values of the layout parameters (R7). -/
def Layout.reference : Layout :=
  { addrW := 8, rBit := 7, bBit := 6, stateLow := 4, fifoLow := 0, addrMap := AddrMap.reference, lenW := 16, dummy := 0x00 }

/-- The parameters of `State.reset`: the reference values of R7. The two OPEN ones have none, and are made of constants without a body:
`INIT_TABLE` is any list of pairs whose addresses are those of configuration registers or PATABLE (R161), `ERR_OVERSIZE` any negative
integer (R203). -/
def Params.reference : Params :=
  { layout := Layout.reference, maxLen := 61, burstEndPulse := false
    initTable := Config.initTable.filter fun e => decide (e.1 ∈ AddrMap.reference.patable :: AddrMap.reference.config)
    errCode := Config.errOversize }

end Sys2Proof
end

