-- ==== Sys2Proof/Syntax.lean ====
section
/-! DEFINITION. The instructions of the block: one constructor per row of the opcode table.
Format HDR (30_encoding.md R60): the five access kinds and the thirteen command strobes, which the sequencer issues inside its
operations. Format REQ (R73, R74): the fourteen host requests and the two reserved request codes. -/

namespace Sys2Proof

/-- The five access kinds (30_encoding.md R61). -/
inductive AccessKind
  | wrSingle | rdSingle | wrBurst | rdBurst | strobe
  deriving DecidableEq, Repr

/-- The two formats of the opcode table, each presented on a port of its own: header bytes on the bus, requests at the request port. -/
inductive Port
  | hdr | req
  deriving DecidableEq, Repr

inductive Instr
  /-- `WR_SINGLE a, v`: single register write (R101). -/
  | wrSingle (a v : Byte)
  /-- `RD_SINGLE a`: single register read (R102). -/
  | rdSingle (a : Byte)
  /-- `WR_BURST a, t`: burst write of the bytes `t` (R103). -/
  | wrBurst (a : Byte) (t : List Byte)
  /-- `RD_BURST a, n`: burst read of `n` bytes (R104). -/
  | rdBurst (a : Byte) (n : Nat)
  /-- `RD_STATUS a`: status register read of the baked logical address `a` (R106). -/
  | rdStatus (a : Byte)
  /-- Chip reset strobe (R128). -/
  | sres
  /-- Enable frequency synthesiser strobe (R129). -/
  | sfstxon
  /-- Crystal-off strobe (R130). -/
  | sxoff
  /-- Calibrate strobe (R126). -/
  | scal
  /-- go-rx strobe (R121). -/
  | srx
  /-- go-tx strobe (R122). -/
  | stx
  /-- go-idle strobe (R120). -/
  | sidle
  /-- Wake-on-radio strobe (R131). -/
  | swor
  /-- power-down strobe (R125). -/
  | spwd
  /-- flush-rx strobe (R123). -/
  | sfrx
  /-- flush-tx strobe (R124). -/
  | sftx
  /-- Wake-on-radio timer reset strobe (R132). -/
  | sworrst
  /-- No-operation strobe, the poll (R127). -/
  | snop
  /-- `INIT` (R160). -/
  | init
  /-- `ON` (R162). -/
  | radioOn
  /-- `OFF` (R163). -/
  | radioOff
  /-- `SET_CHANNEL n` (R164). -/
  | setChannel (n : Byte)
  /-- `SET_TXPOWER level` (R165). -/
  | setTxPower (level : Byte)
  /-- `SET_ADDRESS addr` (R166). -/
  | setAddress (addr : Byte)
  /-- `SET_CALLBACK r` (R167). -/
  | setCallback (r : Bool)
  /-- `SEND h, hdr, p, pay`: the two lengths; the buffers are the request's host buffers `hdr` and `pay` (R140, R73). -/
  | send (h p : Nat)
  /-- `RECEIVE C, dst`: the capacity; the buffer is the request's host buffer `dst` (R143, R73). -/
  | receive (C : Nat)
  /-- `DISCARD` (R147). -/
  | discard
  /-- `GET_RSSI` (R168). -/
  | getRssi
  /-- `GET_LAST_RSSI` (R169). -/
  | getLastRssi
  /-- `GET_LAST_LQI` (R170). -/
  | getLastLqi
  /-- `IS_CHANNEL_CLEAR` (R171). -/
  | isChannelClear
  /-- The reserved request code 0x0 (R75, R172). -/
  | reserved0
  /-- The reserved request code 0xF (R75, R172). -/
  | reservedF
  deriving DecidableEq, Repr

/-- The port an instruction is presented on: the format of its opcode-table row. -/
def Instr.port : Instr → Port
  | .wrSingle _ _ | .rdSingle _ | .wrBurst _ _ | .rdBurst _ _ | .rdStatus _ => .hdr
  | .sres | .sfstxon | .sxoff | .scal | .srx | .stx | .sidle => .hdr
  | .swor | .spwd | .sfrx | .sftx | .sworrst | .snop => .hdr
  | .init | .radioOn | .radioOff => .req
  | .setChannel _ | .setTxPower _ | .setAddress _ | .setCallback _ => .req
  | .send _ _ | .receive _ | .discard => .req
  | .getRssi | .getLastRssi | .getLastLqi | .isChannelClear => .req
  | .reserved0 | .reservedF => .req

end Sys2Proof
end

