-- ==== Sys2Proof/Machine/Header.lean ====
section
/-! DEFINITION. The header byte: the address map (30_encoding.md R62–R66), the encode function (40_encoder.md R100) and the
status byte's radio-state names (R69). All of it is combinational: nothing here reads or writes State. It takes the layout
parameters of 00_scope.md R7 as an argument. -/

namespace Sys2Proof

/-! ### Named addresses (parameter `ADDR_MAP`, R64–R66) -/

/-- The configuration registers of R64, in the order of `AddrMap.config`. -/
def configRegisters : List String :=
  ["IOCFG2", "IOCFG1", "IOCFG0", "FIFOTHR", "SYNC1", "SYNC0", "PKTLEN", "PKTCTRL1",
   "PKTCTRL0", "ADDR", "CHANNR", "FSCTRL1", "FSCTRL0", "FREQ2", "FREQ1", "FREQ0"] ++
  ["MDMCFG4", "MDMCFG3", "MDMCFG2", "MDMCFG1", "MDMCFG0", "DEVIATN", "MCSM2", "MCSM1",
   "MCSM0", "FOCCFG", "BSCFG", "AGCCTRL2", "AGCCTRL1", "AGCCTRL0", "WOREVT1", "WOREVT0"] ++
  ["WORCTRL", "FREND1", "FREND0", "FSCAL3", "FSCAL2", "FSCAL1", "FSCAL0", "RCCTRL1",
   "RCCTRL0", "FSTEST", "PTEST", "AGCTEST", "TEST2", "TEST1", "TEST0"]

/-- The status registers of R66, in the order of `AddrMap.status`. -/
def statusRegisters : List String :=
  ["PARTNUM", "VERSION", "FREQEST", "LQI", "RSSI", "MARCSTATE", "WORTIME1", "WORTIME0",
   "PKTSTATUS", "VCO_VC_DAC", "TXBYTES", "RXBYTES", "RCCTRL1_STATUS", "RCCTRL0_STATUS"]

/-- The address of ADDR, the tenth configuration register of R64. -/
def AddrMap.addr (m : AddrMap) : Byte := m.config.getD 9 0

/-- The address of CHANNR, the eleventh configuration register of R64. -/
def AddrMap.channr (m : AddrMap) : Byte := m.config.getD 10 0

/-- The chip address of the RSSI status register, the fifth of R66. -/
def AddrMap.rssi (m : AddrMap) : Byte := m.status.getD 4 0

/-- The thirteen strobe addresses, in the order of R65. -/
def AddrMap.strobes (m : AddrMap) : List Byte :=
  [m.sres, m.sfstxon, m.sxoff, m.scal, m.srx, m.stx, m.sidle, m.swor, m.spwd, m.sfrx, m.sftx, m.sworrst, m.snop]

namespace Machine

/-! ### Address classes (R41, R62, R63) -/

/-- The bit that marks a read: `R` of the header byte (R60). -/
def readBit (ly : Layout) : Byte := 1#8 <<< ly.rBit

/-- The bit that marks a burst: `B` of the header byte (R60). -/
def burstBit (ly : Layout) : Byte := 1#8 <<< ly.bBit

/-- The baked logical address of the status register at chip address `A`: the burst bit is set at definition time (R62). -/
def bake (ly : Layout) (A : Byte) : Byte := A ||| burstBit ly

/-- `RSSI_S`, the baked logical address of the RSSI status register (R62, R66). -/
def rssiS (ly : Layout) : Byte := bake ly ly.addrMap.rssi

/-- The four tags a logical address carries (R41). -/
inductive AddrTag
  | configRegister | commandStrobe | statusRegister | multiByteRegister
  deriving DecidableEq, Repr

/-- The tag of a logical address (R41, R62, R63), or none where no logical address is defined: a property of the address alone. -/
def addrTag (ly : Layout) (a : Byte) : Option AddrTag :=
  if a ∈ ly.addrMap.config then some .configRegister
  else if a ∈ ly.addrMap.strobes then some .commandStrobe
  else if a = ly.addrMap.patable ∨ a = ly.addrMap.fifo then some .multiByteRegister
  else if a ∈ ly.addrMap.status.map (bake ly) then some .statusRegister
  else none

/-- A logical address of class configuration register or multi-byte register: the operand class of R101 and R102. -/
def isRegister (ly : Layout) (a : Byte) : Bool :=
  addrTag ly a = some .configRegister || addrTag ly a = some .multiByteRegister

/-- A baked status address (R62): the operand class of R106. -/
def isStatus (ly : Layout) (a : Byte) : Bool := addrTag ly a = some .statusRegister

/-- A command-strobe address (R65): the operand class of R105. -/
def isStrobe (ly : Layout) (a : Byte) : Bool := addrTag ly a = some .commandStrobe

/-- The five address classes of R63. -/
inductive AddrClass
  | config | reserved | strobeOrStatus | powerTable | fifo
  deriving DecidableEq, Repr

/-- The class of a chip address in the reference map (R63): 0x00–0x2E, 0x2F, 0x30–0x3D, 0x3E, 0x3F. -/
def addrClass (A : BitVec 6) : AddrClass :=
  if A.toNat ≤ 0x2E then .config
  else if A.toNat = 0x2F then .reserved
  else if A.toNat ≤ 0x3D then .strobeOrStatus
  else if A.toNat = 0x3E then .powerTable
  else .fifo

/-! ### The encode function (R61, R100) -/

/-- `KB(k)`, the bits an access kind ORs into the address (R61, R100). -/
def kindBits (ly : Layout) : AccessKind → Byte
  | .wrSingle => 0x00
  | .rdSingle => readBit ly
  | .wrBurst => burstBit ly
  | .rdBurst => readBit ly ||| burstBit ly
  | .strobe => 0x00

/-- `ENCODE(a, k)` (R100): a pure, total mapping from a logical address of `ADDR_W` bits and an access kind to the header byte. At the
reference value `ADDR_W` = 8 it ORs all of `a`. DESIGN CHOICE (assumption 2): for a smaller `ADDR_W`, of which R7 and R100 do not say
what becomes of the bits of `a` above it, it drops them. -/
def encodeHeader (ly : Layout) (a : Byte) (k : AccessKind) : Byte := (a.setWidth ly.addrW).setWidth 8 ||| kindBits ly k

/-- The address that a header byte carries: its bits other than `R` and `B` (R60). -/
def headerAddress (ly : Layout) (b : Byte) : Byte := b &&& ~~~(readBit ly ||| burstBit ly)

/-! ### The status byte (R68–R70) -/

/-- The eight radio states (10_state.md R24). -/
inductive RadioState
  | idle | rx | tx | fstxon | calibrate | settling | rxOverflow | txUnderflow
  deriving DecidableEq, Repr

/-- `STATE_NAME`: the state of a 3-bit code (R69). Every code is a state. -/
def stateName (c : BitVec 3) : RadioState :=
  if c = 0 then .idle else if c = 1 then .rx else if c = 2 then .tx else if c = 3 then .fstxon
  else if c = 4 then .calibrate else if c = 5 then .settling else if c = 6 then .rxOverflow else .txUnderflow

/-- `STATE_FIELD` of a status byte (R68). -/
def stateField (ly : Layout) (b : Byte) : BitVec 3 := b.extractLsb' ly.stateLow 3

/-- `FIFO_FIELD` of a status byte (R68). -/
def fifoField (ly : Layout) (b : Byte) : BitVec 4 := b.extractLsb' ly.fifoLow 4

/-- `DecodeStatus(s)` (R115): the radio state and the FIFO count; no other bit is used. -/
def decodeStatus (ly : Layout) (b : Byte) : RadioState × BitVec 4 := (stateName (stateField ly b), fifoField ly b)

end Machine

end Sys2Proof
end

