-- ==== Sys2Proof/WellFormed.lean ====
section
/-! DEFINITION. Which instructions and which parameters are well formed: the operand classes of 40_encoder.md R101–R106, the widths
of 30_encoding.md R73, and what 00_scope.md R7, 30_encoding.md R62 and 42_control.md R161 ask of the parameters. -/

namespace Sys2Proof

/-- The operand checks of an instruction, each with the rule that asks for it. -/
def Instr.wf (ly : Layout) : Instr → Bool
  -- R101, R102: a configuration register or a multi-byte register
  | .wrSingle a _ => Machine.isRegister ly a
  | .rdSingle a => Machine.isRegister ly a
  -- R103, R104: n ≥ 1; a register address (30_encoding.md R77 for a configuration register: assumption 6)
  | .wrBurst a t => Machine.isRegister ly a && !t.isEmpty
  | .rdBurst a n => Machine.isRegister ly a && decide (1 ≤ n)
  -- R106: a baked status address
  | .rdStatus a => Machine.isStatus ly a
  | .sres | .sfstxon | .sxoff | .scal | .srx | .stx | .sidle => true
  | .swor | .spwd | .sfrx | .sftx | .sworrst | .snop => true
  | .init | .radioOn | .radioOff => true
  | .setChannel _ | .setTxPower _ | .setAddress _ | .setCallback _ => true
  -- R73: lengths of `LEN_W` bits
  | .send h p => decide (h < 2 ^ ly.lenW) && decide (p < 2 ^ ly.lenW)
  | .receive C => decide (C < 2 ^ ly.lenW)
  | .discard => true
  | .getRssi | .getLastRssi | .getLastLqi | .isChannelClear => true
  | .reserved0 | .reservedF => true

/-- R62: a chip address fits `ADDR_W` bits and carries neither the read bit nor the burst bit. -/
def Layout.plainAddress (ly : Layout) (a : Byte) : Bool :=
  decide (a.toNat < 2 ^ ly.addrW) && decide (a &&& (Machine.readBit ly ||| Machine.burstBit ly) = 0)

/-- What the encoding rules need of the layout parameters (R7, R60, R62–R66; assumption 2): two different header bits, both inside
the byte, fields inside the status byte, a result register that holds a byte, one address for each name of the map, and no strobe and
no status register at the address of a register. -/
def Layout.wf (ly : Layout) : Bool :=
  decide (ly.rBit < 8) && decide (ly.bBit < 8) && decide (ly.rBit ≠ ly.bBit) && decide (ly.bBit < ly.addrW) &&
  decide (ly.addrW ≤ 8) && decide (ly.stateLow + 3 ≤ 8) && decide (ly.fifoLow + 4 ≤ 8) && decide (8 ≤ ly.lenW) &&
  decide (ly.addrMap.config.length = configRegisters.length) && decide (ly.addrMap.status.length = statusRegisters.length) &&
  (ly.addrMap.config ++ ly.addrMap.strobes ++ [ly.addrMap.patable, ly.addrMap.fifo]).all ly.plainAddress &&
  ly.addrMap.status.all ly.plainAddress &&
  decide (ly.addrMap.config ++ ly.addrMap.strobes ++ [ly.addrMap.patable, ly.addrMap.fifo]).Nodup &&
  decide (ly.addrMap.config ++ [ly.addrMap.patable, ly.addrMap.fifo] ++ ly.addrMap.status).Nodup

/-- R161: each `INIT_TABLE` address is a configuration register or PATABLE. That `ERR_OVERSIZE` is negative
(R7, R203) stands in its type. -/
def Params.wf (p : Params) : Bool :=
  p.layout.wf &&
  p.initTable.all (fun e => Machine.addrTag p.layout e.1 = some .configRegister || e.1 = p.layout.addrMap.patable)

end Sys2Proof
end

