-- ==== Sys2Proof/Decode.lean ====
section
/-! DEFINITION. The decoder and the encoder of both formats.
Format HDR (30_encoding.md R60–R67): the bytes the block sends inside one chip-select scope, a header byte and then its data phase;
a burst takes every byte that is left, since only the release of chip select ends it (R67).
Format REQ (R73, R74): the request code in bits 3:0 of the first byte, then the operands. How the operands stand in bytes is
the model's choice (assumption 5). The buffers of SEND and RECEIVE travel beside these bytes (`Request`, Machine/State.lean). -/

namespace Sys2Proof

/-- Why bytes are no instruction. -/
inductive DecodeError
  /-- There is no first byte. -/
  | noBytes
  /-- A header value of R77 with no register, strobe or status register behind it. -/
  | reservedHeader (b : Byte)
  /-- The data phase or the operands that the first byte calls for are not all there. -/
  | truncated
  /-- A byte of a read's data phase is not `DUMMY` (R109, R111). -/
  | notDummy (b : Byte)
  /-- Bits 7:4 of a request's first byte are not 0: the request code is 4 bits (R73). -/
  | codeTooWide (b : Byte)
  /-- A length does not fit `LEN_W` bits (R73). -/
  | lengthTooWide
  /-- SET_CALLBACK's operand is one bit (R73). -/
  | notOneBit (b : Byte)
  deriving DecidableEq, Repr

/-- The result of decoding: an instruction and the bytes after it, or why there is none. -/
inductive Decoded
  | ok (i : Instr) (rest : List Byte)
  | error (e : DecodeError)
  deriving DecidableEq, Repr

/-! ### Format HDR -/

/-- The strobes by address, in the order of R65. -/
def strobeTable (m : AddrMap) : List (Byte × Instr) :=
  [(m.sres, .sres), (m.sfstxon, .sfstxon), (m.sxoff, .sxoff), (m.scal, .scal), (m.srx, .srx), (m.stx, .stx), (m.sidle, .sidle),
   (m.swor, .swor), (m.spwd, .spwd), (m.sfrx, .sfrx), (m.sftx, .sftx), (m.sworrst, .sworrst), (m.snop, .snop)]

/-- The strobe of a header byte (R65). -/
def decodeStrobe (m : AddrMap) (b : Byte) : Option Instr := (strobeTable m).lookup b

/-- One data byte out. -/
def takeByte (bs : List Byte) (f : Byte → Instr) : Decoded :=
  match bs with
  | [] => .error .truncated
  | v :: rest => .ok (f v) rest

/-- The data phase of a single read: one `DUMMY` byte out. -/
def takeDummy (ly : Layout) (bs : List Byte) (i : Instr) : Decoded :=
  match bs with
  | [] => .error .truncated
  | v :: rest => if v = ly.dummy then .ok i rest else .error (.notDummy v)

/-- The data phase of a burst write: every byte to the end of the scope, at least one (R67). -/
def takeBurst (bs : List Byte) (a : Byte) : Decoded :=
  match bs with
  | [] => .error .truncated
  | v :: rest => .ok (.wrBurst a (v :: rest)) []

/-- The data phase of a burst read: `DUMMY` bytes to the end of the scope, at least one (R67). -/
def takeDummies (ly : Layout) (bs : List Byte) (a : Byte) : Decoded :=
  match bs.find? (· ≠ ly.dummy) with
  | some v => .error (.notDummy v)
  | none => if bs.length = 0 then .error .truncated else .ok (.rdBurst a bs.length) []

/-- An access: the header byte `b` and the bytes of the scope after it (R60, R61, R63). The kind stands in the read and the burst bit,
the address in the other bits; it is baked with the burst bit where the header is a status read's (R62). -/
def decodeAccess (ly : Layout) (b : Byte) (bs : List Byte) : Decoded :=
  let a := Machine.headerAddress ly b
  match b.getLsbD ly.rBit, b.getLsbD ly.bBit with
  | false, false =>
    match decodeStrobe ly.addrMap b with
    | some i => .ok i bs
    | none => if Machine.isRegister ly a then takeByte bs (.wrSingle a) else .error (.reservedHeader b)
  | true, false => if Machine.isRegister ly a then takeDummy ly bs (.rdSingle a) else .error (.reservedHeader b)
  | false, true => if Machine.isRegister ly a then takeBurst bs a else .error (.reservedHeader b)
  | true, true =>
    if Machine.isRegister ly a then takeDummies ly bs a
    else if Machine.isStatus ly (Machine.bake ly a) then takeDummy ly bs (.rdStatus (Machine.bake ly a))
    else .error (.reservedHeader b)

/-! ### Format REQ -/

/-- The bytes of a number, the least significant first. -/
def bytesOfNat : Nat → Nat → List Byte
  | 0, _ => []
  | k + 1, w => BitVec.ofNat 8 w :: bytesOfNat k (w / 256)

/-- The number that bytes stand for, the least significant first. -/
def natOfBytes : List Byte → Nat
  | [] => 0
  | b :: bs => b.toNat + 256 * natOfBytes bs

/-- How many bytes a length of `LEN_W` bits takes (assumption 5). -/
def Layout.lenBytes (ly : Layout) : Nat := (ly.lenW + 7) / 8

/-- One length, the low byte first (assumption 5), and then what `f` makes of it and the bytes after it. -/
def takeLen (ly : Layout) (bs : List Byte) (f : Nat → List Byte → Decoded) : Decoded :=
  if bs.length < ly.lenBytes then .error .truncated
  else if natOfBytes (bs.take ly.lenBytes) < 2 ^ ly.lenW then f (natOfBytes (bs.take ly.lenBytes)) (bs.drop ly.lenBytes)
  else .error .lengthTooWide

/-- SET_CALLBACK's one-bit operand. -/
def takeBit (bs : List Byte) : Decoded :=
  match bs with
  | [] => .error .truncated
  | v :: rest =>
    if v = 0 then .ok (.setCallback false) rest
    else if v = 1 then .ok (.setCallback true) rest
    else .error (.notOneBit v)

/-- A request: its code (R74, R75) and the bytes of its operands (R73). -/
def decodeRequest (ly : Layout) (code : BitVec 4) (bs : List Byte) : Decoded :=
  if code = 0x0 then .ok .reserved0 bs
  else if code = 0x1 then .ok .init bs
  else if code = 0x2 then .ok .radioOn bs
  else if code = 0x3 then .ok .radioOff bs
  else if code = 0x4 then takeByte bs .setChannel
  else if code = 0x5 then takeByte bs .setTxPower
  else if code = 0x6 then takeByte bs .setAddress
  else if code = 0x7 then takeBit bs
  else if code = 0x8 then takeLen ly bs fun h afterH => takeLen ly afterH fun p rest => .ok (.send h p) rest
  else if code = 0x9 then takeLen ly bs fun C rest => .ok (.receive C) rest
  else if code = 0xA then .ok .discard bs
  else if code = 0xB then .ok .getRssi bs
  else if code = 0xC then .ok .getLastRssi bs
  else if code = 0xD then .ok .getLastLqi bs
  else if code = 0xE then .ok .isChannelClear bs
  else .ok .reservedF bs

/-- The decoder, total on any bytes of either port. -/
def decode (ly : Layout) (p : Port) (bs : List Byte) : Decoded :=
  match bs with
  | [] => .error .noBytes
  | b :: rest =>
    match p with
    | .hdr => decodeAccess ly b rest
    | .req =>
      if b.extractLsb' 4 4 = 0#4 then decodeRequest ly (b.extractLsb' 0 4) rest
      else .error (.codeTooWide b)

/-! ### The encoder -/

/-- The bytes of a length, the low byte first (assumption 5). -/
def bytesOfLen (ly : Layout) (n : Nat) : List Byte := bytesOfNat ly.lenBytes n

/-- The bytes of an instruction on its port: for an access what the block sends on MOSI (R61, R67, R101–R106), for a request its
code (R74) and operands (R73). -/
def encode (ly : Layout) : Instr → List Byte
  | .wrSingle a v => [Machine.encodeHeader ly a .wrSingle, v]
  | .rdSingle a => [Machine.encodeHeader ly a .rdSingle, ly.dummy]
  | .wrBurst a t => Machine.encodeHeader ly a .wrBurst :: t
  | .rdBurst a n => Machine.encodeHeader ly a .rdBurst :: List.replicate n ly.dummy
  | .rdStatus a => [Machine.encodeHeader ly a .rdSingle, ly.dummy]
  | .sres => [Machine.encodeHeader ly ly.addrMap.sres .strobe]
  | .sfstxon => [Machine.encodeHeader ly ly.addrMap.sfstxon .strobe]
  | .sxoff => [Machine.encodeHeader ly ly.addrMap.sxoff .strobe]
  | .scal => [Machine.encodeHeader ly ly.addrMap.scal .strobe]
  | .srx => [Machine.encodeHeader ly ly.addrMap.srx .strobe]
  | .stx => [Machine.encodeHeader ly ly.addrMap.stx .strobe]
  | .sidle => [Machine.encodeHeader ly ly.addrMap.sidle .strobe]
  | .swor => [Machine.encodeHeader ly ly.addrMap.swor .strobe]
  | .spwd => [Machine.encodeHeader ly ly.addrMap.spwd .strobe]
  | .sfrx => [Machine.encodeHeader ly ly.addrMap.sfrx .strobe]
  | .sftx => [Machine.encodeHeader ly ly.addrMap.sftx .strobe]
  | .sworrst => [Machine.encodeHeader ly ly.addrMap.sworrst .strobe]
  | .snop => [Machine.encodeHeader ly ly.addrMap.snop .strobe]
  | .init => [0x01]
  | .radioOn => [0x02]
  | .radioOff => [0x03]
  | .setChannel n => [0x04, n]
  | .setTxPower level => [0x05, level]
  | .setAddress addr => [0x06, addr]
  | .setCallback r => [0x07, if r then 1 else 0]
  | .send h p => 0x08 :: (bytesOfLen ly h ++ bytesOfLen ly p)
  | .receive C => 0x09 :: bytesOfLen ly C
  | .discard => [0x0A]
  | .getRssi => [0x0B]
  | .getLastRssi => [0x0C]
  | .getLastLqi => [0x0D]
  | .isChannelClear => [0x0E]
  | .reserved0 => [0x00]
  | .reservedF => [0x0F]

/-! ### One word of the opcode table, in the reference layout -/

/-- The port a table word stands for. A first byte below 0x10 is read as a request code, every other one as a header byte: both
formats use the values 0x00–0x0F, and an access to those configuration registers is presented on the header port (assumption 7). -/
def tablePort (first : Byte) : Port := if first.toNat < 0x10 then .req else .hdr

/-- How many bytes an instruction with this first byte has at least, its operands and its data phase counted. -/
def tableLength (first : Byte) : Nat :=
  match tablePort first with
  | .req =>
    if first = 0x08 then 1 + 2 * Layout.reference.lenBytes else if first = 0x09 then 1 + Layout.reference.lenBytes
    else if 0x04 ≤ first.toNat ∧ first.toNat ≤ 0x07 then 2 else 1
  | .hdr => if (decodeStrobe AddrMap.reference first).isSome then 1 else 2

/-- The bytes of a table word of `nbits` bits: its own bytes, then the zero bytes its operands and data phase still need. -/
def tableBytes (nbits w : Nat) : List Byte :=
  let own := bytesOfNat (max 1 ((nbits + 7) / 8)) w
  own ++ List.replicate (tableLength (own.headD 0) - own.length) 0

/-- The port of a table word of `nbits` bits. -/
def tableWordPort (nbits w : Nat) : Port := tablePort ((tableBytes nbits w).headD 0)

/-- The instruction the decoder reads from a word of the opcode table (bit 0 the least significant of the first byte). -/
def decodeTableWord (nbits w : Nat) : Option Instr :=
  match decode Layout.reference (tableWordPort nbits w) (tableBytes nbits w) with
  | .ok i [] => some i
  | .ok _ (_ :: _) => none
  | .error _ => none

end Sys2Proof
end

