-- ==== Sys2Proof/Machine/State.lean ====
section
/-! DEFINITION. The state of the block: the registers of 10_state.md R21–R29, the ports of R30 and R31 as data, the host buffers of
20_memory.md R40, the bus trace of 00_scope.md R12 and the parameters of R7; the single events a step makes; the reasons a step
stops; the state after reset. -/

namespace Sys2Proof.Machine

/-- One event of the bus trace (R9, R12). -/
inductive Event
  /-- `Select()`. -/
  | sel
  /-- `Release()`. -/
  | rel
  /-- `Xfer(o)` that returned `i`. -/
  | x (o i : Byte)
  /-- The notification of the interrupt service (R213). -/
  | notify
  deriving DecidableEq, Repr

/-- The result codes of `RES_KIND` (30_encoding.md R76). -/
inductive ResKind
  | none | ok | oversize | illegal
  deriving DecidableEq, Repr

/-- An input the outside world drives: the values already given, oldest first, and how many were drawn beyond them.
A value beyond the given ones is a free draw of Config (assumption 3). -/
structure Source (α : Type) where
  given : List α
  drawn : Nat
  deriving DecidableEq, Repr

/-- A host buffer: (index, byte) cells, indices strictly rising, no cell equal to `Config.unlistedByte` (R40; assumption 8). -/
abbrev Memory := List Host.Cell

/-- No cell below `lo`, indices strictly rising, no cell that reads as an unlisted index does. -/
def Memory.wfFrom : Nat → Memory → Bool
  | _, [] => true
  | lo, (k, v) :: rest => decide (lo ≤ k) && decide (v ≠ Config.unlistedByte) && Memory.wfFrom (k + 1) rest

/-- The canonical form of a host buffer: equal buffers are equal data. -/
def Memory.wf (m : Memory) : Bool := Memory.wfFrom 0 m

/-- A host request as it stands at the request port (R30, R73): its bytes, and the host's buffers that come with it.
SEND uses `hdr` and `pay`, RECEIVE uses `dst`, every other request none. -/
structure Request where
  bytes : List Byte
  hdr : Memory
  pay : Memory
  dst : Memory
  deriving DecidableEq, Repr

/-- The locals of a running operation (R36): `total`, `L`, `s`, `v`, `t` and `q` of the pseudocode, and the number of `INIT_TABLE`
entries that INIT's loop has written. -/
structure Locals where
  total : Nat
  L : Byte
  s : Byte
  v : Byte
  t : List Byte
  q : List Byte
  entry : Nat
  deriving DecidableEq, Repr

/-- Locals outside an operation: discarded (R36). -/
def Locals.empty : Locals := { total := 0, L := 0, s := 0, v := 0, t := [], q := [], entry := 0 }

/-- The byte an exchange sends: a byte the operation has, or a byte of a source buffer, read immediately before (R140). -/
inductive Sent
  | byte (b : Byte)
  /-- `MemRead(hdr + k, 1)`. -/
  | hdr (k : Nat)
  /-- `MemRead(pay + k, 1)`. -/
  | pay (k : Nat)
  deriving DecidableEq, Repr

/-- Where the byte an exchange returns goes: a local of the pseudocode, or nowhere (R108). `t` and `q` take one byte more. -/
inductive Bound
  | nowhere | s | v | L | t | q
  deriving DecidableEq, Repr

/-- What one step of the sequencer does: one bus event or one update of a register or a local (00_scope.md R2). The pseudocode lines of
40_encoder.md to 42_control.md are lists of these, in order. -/
inductive Micro
  /-- `Select()` (R9). -/
  | select
  /-- `Release()` (R9). -/
  | release
  /-- `Xfer(o)` (R9). -/
  | xfer (o : Sent) (into : Bound)
  /-- `ST_STATE <- s[6:4]` (R107). -/
  | latchState
  /-- `ST_FIFO <- s[3:0]` (R107). -/
  | latchFifo
  /-- `total <- n` (R140). -/
  | setTotal (n : Nat)
  /-- The next entry of INIT's loop (R160). -/
  | nextEntry
  /-- `MemWrite(dst + k, 1, t[k])` (R143). -/
  | store (k : Nat)
  /-- `RSSI_LAST <- q[0]` (R145). -/
  | setRssi
  /-- `LQI_LAST <- q[1]` (R145). -/
  | setLqi
  /-- `HANDLER_REG <- r` (R167). -/
  | setHandler (r : Bool)
  /-- `STEP <- k`: the next line, or the line a branch names (R21). -/
  | goto (k : Nat)
  /-- One test of `WaitReady` on line `k`: `STEP` goes to the next line when `NOT_READY` = 0, else back to `k` (R116, R21). -/
  | untilReady (k : Nat)
  /-- The test of `WaitRX` on line `k`: `STEP` goes to the next line when `ST_STATE` = `RX`, else back to `k` (R117, R21). -/
  | untilRx (k : Nat)
  /-- `RES_KIND <- kind` (R174). -/
  | setKind (kind : ResKind)
  /-- `RES_VAL <- val` (R174). -/
  | setVal (val : Nat)
  /-- A host request completes: `SEQ_BUSY <- 0`, `STEP <- 0` (R21, R174), its locals discarded (R36). -/
  | finish
  /-- A presented access completes: `SEQ_BUSY <- 0`, `STEP <- 0`; what it read stays in its locals (assumptions 4, 21). -/
  | finishAccess
  /-- `NOTIFY` (R213). -/
  | notify
  /-- The interrupt service ends: `SEQ_BUSY <- 0` (R212, R213). -/
  | finishService
  deriving DecidableEq, Repr

/-- The whole state. The first group is the block's registers (R32); the rest says which part of the spec it stands for. -/
structure State where
  /-- `CS` (R22). -/
  cs : Bool
  /-- `SEQ_BUSY` (R21). -/
  seqBusy : Bool
  /-- `OP` (R21). -/
  op : BitVec 4
  /-- `STEP` (R21). -/
  seqStep : Nat
  /-- `ST_STATE` (R23). -/
  stState : BitVec 3
  /-- `ST_FIFO` (R23). -/
  stFifo : BitVec 4
  /-- `RSSI_LAST` (R25). -/
  rssiLast : Byte
  /-- `LQI_LAST` (R26). -/
  lqiLast : Byte
  /-- `HANDLER_REG` (R27). -/
  handlerReg : Bool
  /-- `IRQ_PENDING` (R28). -/
  irqPending : Bool
  /-- `RES_KIND` (R29). -/
  resKind : ResKind
  /-- `RES_VAL`, `LEN_W` bits (R29). -/
  resVal : Nat
  /-- The running operation with its operands, while `SEQ_BUSY` = 1 (R21, R73); none in the interrupt service. -/
  running : Option Instr
  /-- What is left of the line at `STEP`, or of the interrupt service; empty where the line at `STEP` has not begun (R2, R21). -/
  todo : List Micro
  /-- The running operation's locals, and the bytes the last presented access read (R36; assumption 21). -/
  locals : Locals
  /-- `MISO`: the chip's answers (R9, R30). -/
  miso : Source Byte
  /-- `NOT_READY`: the samples of the level (R30). -/
  notReady : Source Bool
  /-- `PKT_EDGE`: whether an edge comes before the sequencer's next event (R30, R209; assumption 12). -/
  pktEdge : Source Bool
  /-- The request port: the requests presented, the one standing at the port first (R30, R173; assumption 14). -/
  requests : List Request
  /-- The model's own: the bytes of one access presented straight to the encoder (assumption 4). -/
  access : Option (List Byte)
  /-- The host's header buffer of the request last taken (R40). -/
  hdr : Memory
  /-- The host's payload buffer of the request last taken (R40). -/
  pay : Memory
  /-- The host's destination buffer of the RECEIVE last taken (R40). -/
  dst : Memory
  /-- The bus trace: every event recorded, oldest first (R12; assumption 20). -/
  trace : List Event
  /-- The parameters (R7): the argument of every step; no step changes them (R35; assumption 1). -/
  par : Params
  deriving DecidableEq, Repr

/-- Why a step stops with a fault. -/
inductive Fault
  /-- The next event is an exchange and `CS` = 0, where `Xfer` is not legal (R9): no state the block reaches (Safety.lean). Raised by
  every meaning, in `runMicro` (assumption 10). Safe. -/
  | xferNotSelected
  /-- `SEQ_BUSY` = 1 and there is no next event: no state the block reaches (Safety.lean). Raised by every meaning and by the
  interrupt service, in `runNext` (assumption 17). Safe. -/
  | nothingToRun
  deriving DecidableEq, Repr

/-- Why a step refuses. -/
inductive Refusal
  /-- The instruction has no meaning yet. Raised by `exec` alone. Safe. -/
  | notModelled (mnemonic : String)
  /-- The bytes at a port are no instruction. Raised by `step` (assumption 18). Safe. -/
  | undecodable (e : DecodeError)
  /-- Bytes follow the one instruction a port presents. Raised by `step` (assumption 18). Safe. -/
  | trailingBytes
  deriving DecidableEq, Repr

/-- Reset (R34, R240) for parameters `par` and any draw of the registers R34 leaves unspecified.
R240 speaks of the block's registers only. DESIGN CHOICE, unsafe (assumption 23): the request port, the model's encoder port, the
trace and the inputs given so far are empty after reset, so a request that waits at the port does not survive one; and the host
buffers list nothing (assumption 8). -/
def State.resetWith (par : Params) (op : BitVec 4) (stState : BitVec 3) (stFifo : BitVec 4) (rssiLast lqiLast : Byte) : State :=
  { cs := false, seqBusy := false, op := op, seqStep := 0, stState := stState, stFifo := stFifo
    rssiLast := rssiLast, lqiLast := lqiLast, handlerReg := false, irqPending := false, resKind := .none, resVal := 0
    running := Option.none, todo := [], locals := Locals.empty
    miso := ⟨[], 0⟩, notReady := ⟨[], 0⟩, pktEdge := ⟨[], 0⟩, requests := [], access := Option.none
    hdr := [], pay := [], dst := [], trace := [], par := par }

/-- The machine right after reset, at the reference parameters. R34 leaves `OP`, `ST_STATE`, `ST_FIFO`, `RSSI_LAST` and `LQI_LAST`
unspecified: they are 0 here, DESIGN CHOICE, unsafe (assumption 9); the statements about reset hold for every draw. -/
def State.reset : State := State.resetWith Params.reference 0 0 0 0 0

end Sys2Proof.Machine
end

