-- ==== Sys2Proof/Machine/Flags.lean ====
section
/-! DEFINITION. The status-like fields (10_state.md R33): the status latch that every header exchange writes, and the result
registers that the completion of a host request writes. The block has no other flag. -/

namespace Sys2Proof.Machine

/-- `ST_STATE <- s[6:4]`, from the local `s` that the header exchange bound (R23, R107). -/
def State.latchState (s : State) : State := { s with stState := stateField s.par.layout s.locals.s }

/-- `ST_FIFO <- s[3:0]` (R23, R107). -/
def State.latchFifo (s : State) : State := { s with stFifo := fifoField s.par.layout s.locals.s }

/-- The radio state the latch holds (R24). -/
def State.radio (s : State) : RadioState := stateName s.stState

/-- `RES_KIND <- kind` (R29, R174). -/
def State.setKind (s : State) (kind : ResKind) : State := { s with resKind := kind }

/-- `RES_VAL <- val`, a register of `LEN_W` bits (R29, R174). -/
def State.setVal (s : State) (val : Nat) : State := { s with resVal := val % 2 ^ s.par.layout.lenW }

/-- The 2-bit codes of `RES_KIND` (30_encoding.md R76). -/
def ResKind.code : ResKind → BitVec 2
  | .none => 0
  | .ok => 1
  | .oversize => 2
  | .illegal => 3

/-- The single signed return value of a software host (R76, R203): `RES_VAL` for OK, `ERR_OVERSIZE` for OVERSIZE.
The spec maps no other result, so there is none (assumption 22). -/
def State.softwareReturn (s : State) : Option Int :=
  match s.resKind with
  | .ok => some s.resVal
  | .oversize => some s.par.errOversize
  | .none => Option.none
  | .illegal => Option.none

end Sys2Proof.Machine
end

