-- ==== Sys2Proof/Machine/Operands.lean ====
section
/-! DEFINITION. Operands: the inputs the outside world drives, the host buffers by index (20_memory.md R40, R43; 00_scope.md R10) and
the length arithmetic (41_frame.md R141, R144). -/

namespace Sys2Proof.Machine

/-! ### Inputs -/

/-- The next value of an input: the oldest given one, or the free draw. -/
def Source.next {α : Type} (free : Nat → α) (s : Source α) : α :=
  match s.given with
  | [] => free s.drawn
  | a :: _ => a

/-- The input after its next value was used. -/
def Source.advance {α : Type} (s : Source α) : Source α :=
  match s.given with
  | [] => { s with drawn := s.drawn + 1 }
  | _ :: rest => { s with given := rest }

/-! ### Host buffers -/

/-- `MemRead(buf + k, 1)` (R10). -/
def memRead : Memory → Nat → Byte
  | [], _ => Config.unlistedByte
  | (j, v) :: rest, k => if j = k then v else memRead rest k

/-- `MemWrite(buf + k, 1, v)` (R10), in canonical form. -/
def memWrite : Memory → Nat → Byte → Memory
  | [], k, v => if v = Config.unlistedByte then [] else [(k, v)]
  | (j, w) :: rest, k, v =>
    if j < k then (j, w) :: memWrite rest k v
    else if j = k then (if v = Config.unlistedByte then rest else (k, v) :: rest)
    else if v = Config.unlistedByte then (j, w) :: rest
    else (k, v) :: (j, w) :: rest

/-- Whether an instruction brings source buffers (SEND alone, R73). -/
def usesSource : Instr → Bool
  | .send _ _ => true
  | _ => false

/-- Whether an instruction brings a destination buffer (RECEIVE alone, R73). -/
def usesDestination : Instr → Bool
  | .receive _ => true
  | _ => false

/-- The host's buffers of the request being taken (R73): the ones the operation uses (assumption 13). -/
def State.loadBuffers (s : State) (i : Instr) (r : Request) : State :=
  { s with hdr := if usesSource i then r.hdr else s.hdr
           pay := if usesSource i then r.pay else s.pay
           dst := if usesDestination i then r.dst else s.dst }

/-! ### The bytes of an exchange -/

/-- The byte an exchange sends. -/
def Sent.value (s : State) : Sent → Byte
  | .byte b => b
  | .hdr k => memRead s.hdr k
  | .pay k => memRead s.pay k

/-- The locals after an exchange that returned `i`. -/
def Locals.bind (l : Locals) (into : Bound) (i : Byte) : Locals :=
  match into with
  | .nowhere => l
  | .s => { l with s := i }
  | .v => { l with v := i }
  | .L => { l with L := i }
  | .t => { l with t := l.t ++ [i] }
  | .q => { l with q := l.q ++ [i] }

/-! ### Length arithmetic -/

/-- SEND's oversize test: the exact sum against `MAX_LEN` (R141). -/
def exceedsMax (total : Nat) (par : Params) : Bool := decide (par.maxLen.toNat < total)

/-- RECEIVE's oversize test, unsigned (R144). -/
def exceedsCapacity (L : Byte) (C : Nat) : Bool := decide (C < L.toNat)

end Sys2Proof.Machine
end

