-- ==== Sys2Proof/Machine/Ops.lean ====
section
/-! DEFINITION. The named operations every meaning is written over: the bus primitives of 00_scope.md R9, the effect of one event
(R2), the access primitives of 40_encoder.md R107–R114 and the composite primitives R116–R118 as lists of events, the sequencer
(10_state.md R21, 42_control.md R173–R175), the raising of an error (60_exceptions.md R201–R204) and the interrupt bridge
(R209–R214). -/

namespace Sys2Proof.Machine

/-! ### Bus primitives (R9) -/

/-- Record one event (R12). -/
def State.record (s : State) (e : Event) : State := { s with trace := s.trace ++ [e] }

/-- `Select()`: `CS <- 1`, event `SEL`. -/
def State.select (s : State) : State := { s with cs := true, trace := s.trace ++ [.sel] }

/-- `Release()`: `CS <- 0`, event `REL`. -/
def State.release (s : State) : State := { s with cs := false, trace := s.trace ++ [.rel] }

/-- The byte the chip answers next. -/
def State.answer (s : State) : Byte := s.miso.next Config.chipAnswer

/-- `Xfer(o)`: the exchange recorded, the byte received bound. -/
def State.xfer (s : State) (o : Byte) (into : Bound) : State :=
  { s with miso := s.miso.advance, trace := s.trace ++ [.x o s.answer], locals := s.locals.bind into s.answer }

/-! ### The sequencer (R21, R173, R174) -/

/-- `STEP <- k`. -/
def State.goto (s : State) (k : Nat) : State := { s with seqStep := k }

/-- Taking a request (R173): `SEQ_BUSY <- 1`, `OP <- code`, `STEP <- 0`. -/
def State.take (s : State) (i : Instr) (code : BitVec 4) : State :=
  { s with seqBusy := true, op := code, seqStep := 0, running := some i, todo := [], locals := Locals.empty }

/-- Taking a presented access: it is no request and has no code, so `OP` stays (assumption 4). -/
def State.takeAccess (s : State) (i : Instr) : State :=
  { s with seqBusy := true, seqStep := 0, running := some i, todo := [], locals := Locals.empty }

/-- Back to idle: `SEQ_BUSY <- 0`, `STEP <- 0`; `OP` keeps its value (R21). -/
def State.goIdle (s : State) : State := { s with seqBusy := false, seqStep := 0, running := none }

/-- The locals are discarded (R36). -/
def State.discardLocals (s : State) : State := { s with locals := Locals.empty }

/-- The events left of the line. -/
def State.setTodo (s : State) (rest : List Micro) : State := { s with todo := rest }

/-- One sample of `NOT_READY` (R30). -/
def State.sampleReady (s : State) : State := { s with notReady := s.notReady.advance }

/-- The end of the interrupt service: `SEQ_BUSY <- 0`. It writes no result register (R212, R213). -/
def State.endService (s : State) : State := { s with seqBusy := false }

/-! ### One event -/

/-- What one event does (R2). The list of events still to come is no business of it. -/
def Micro.effect (m : Micro) (s : State) : State :=
  match m with
  | .select => s.select
  | .release => s.release
  | .xfer o into => s.xfer (o.value s) into
  | .latchState => s.latchState
  | .latchFifo => s.latchFifo
  | .setTotal n => { s with locals := { s.locals with total := n } }
  | .nextEntry => { s with locals := { s.locals with entry := s.locals.entry + 1 } }
  | .store k => { s with dst := memWrite s.dst k (s.locals.t.getD k 0) }
  | .setRssi => { s with rssiLast := s.locals.q.getD 0 0 }
  | .setLqi => { s with lqiLast := s.locals.q.getD 1 0 }
  | .setHandler r => { s with handlerReg := r }
  | .goto k => s.goto k
  | .untilReady k => s.sampleReady.goto (if s.notReady.next Config.notReadyLevel then k else k + 1)
  | .untilRx k => s.goto (if s.radio = .rx then k + 1 else k)
  | .setKind kind => s.setKind kind
  | .setVal val => s.setVal val
  | .finish => s.goIdle.discardLocals
  | .finishAccess => s.goIdle
  | .notify => s.record .notify
  | .finishService => s.endService.discardLocals

/-- `Xfer` is legal only while `CS` = 1 (R9); every other event always is. -/
def Micro.legal (m : Micro) (s : State) : Bool :=
  match m with
  | .xfer _ _ => s.cs
  | _ => true

/-- Make one event. -/
def runMicro (m : Micro) (s : State) : Host.Outcome State Fault Refusal :=
  if m.legal s then .next (m.effect s) else .fault .xferNotSelected

/-- The next event: the first of what is left of a line, or else of the line `line` that is about to begin. -/
def runNext (line : List Micro) (s : State) : Host.Outcome State Fault Refusal :=
  match if s.todo = [] then line else s.todo with
  | [] => .fault .nothingToRun
  | m :: rest => runMicro m (s.setTodo rest)

/-! ### Access primitives (R107–R114) -/

/-- `HdrXfer(hb)` (R107): only a header exchange writes the status latch. -/
def hdrXfer (hb : Byte) : List Micro := [.xfer (.byte hb) .s, .latchState, .latchFifo]

/-- `SingleWrite(a, v)` (R108). -/
def singleWrite (ly : Layout) (a v : Byte) : List Micro :=
  hdrXfer (encodeHeader ly a .wrSingle) ++ [.xfer (.byte v) .nowhere]

/-- `SingleRead(a)` (R109), its byte bound to `into`. -/
def singleRead (ly : Layout) (a : Byte) (into : Bound) : List Micro :=
  hdrXfer (encodeHeader ly a .rdSingle) ++ [.xfer (.byte ly.dummy) into]

/-- `BurstWrite(a, t)` (R110); an operation calls it with at least one byte. -/
def burstWrite (ly : Layout) (a : Byte) (t : List Sent) : List Micro :=
  hdrXfer (encodeHeader ly a .wrBurst) ++ t.map fun o => .xfer o .nowhere

/-- `BurstRead(a, n)` (R111), its bytes bound to `into` in order; an operation calls it with n ≥ 1. -/
def burstRead (ly : Layout) (a : Byte) (n : Nat) (into : Bound) : List Micro :=
  hdrXfer (encodeHeader ly a .rdBurst) ++ List.replicate n (.xfer (.byte ly.dummy) into)

/-- `Strobe(a)` (R112): no data phase. -/
def strobe (ly : Layout) (a : Byte) : List Micro := hdrXfer (encodeHeader ly a .strobe)

/-- `StatusRead(a)` (R113): a single read of the baked address. -/
def statusRead (ly : Layout) (a : Byte) (into : Bound) : List Micro := singleRead ly a into

/-- `BurstEnd()` (R114): the chip-select pulse, where the parameter asks for it. -/
def burstEnd (par : Params) : List Micro := if par.burstEndPulse then [.release, .select] else []

/-! ### Composite primitives (R116–R118) -/

/-- `WaitReady()` on line `k` (R116): one test, which leads on or back. It records no bus event. -/
def waitReady (k : Nat) : List Micro := [.untilReady k]

/-- `WaitRX()` on line `k` (R117): one poll, whose test leads on or back. -/
def waitRX (ly : Layout) (k : Nat) : List Micro := strobe ly ly.addrMap.snop ++ [.untilRx k]

/-- `FlushRx()` (R118): idle, flush-rx, go-rx. -/
def flushRx (ly : Layout) : List Micro :=
  strobe ly ly.addrMap.sidle ++ strobe ly ly.addrMap.sfrx ++ strobe ly ly.addrMap.srx

/-! ### Completion and errors (R174, R200–R204, R208) -/

/-- The last line of a request (R174): its one write of each result register, then idle. -/
def complete (kind : ResKind) (val : Nat) : List Micro := [.setKind kind, .setVal val, .finish]

/-- `raise`: the operation ends at once with an error code, `RES_VAL <- 0` (R11, R201, R202, R204). No state is saved, so there is no
return from it (R208). -/
def raiseError (kind : ResKind) : List Micro := complete kind 0

/-! ### Running an operation -/

/-- The operation `i` of request code `code`, whose lines are `line`: an idle sequencer takes it (R173), a busy one makes its next
event (R21, R175). -/
def runOperation (i : Instr) (code : BitVec 4) (line : State → List Micro) (s : State) : Host.Outcome State Fault Refusal :=
  if s.seqBusy then runNext (line s) s else .next (s.take i code)

/-- The lines of a presented access: its events in a chip-select scope of its own (20_memory.md R51; assumption 4). -/
def accessLine (ops : List Micro) (s : State) : List Micro :=
  match s.seqStep with
  | 0 => [.select, .goto 1]
  | 1 => ops ++ [.goto 2]
  | 2 => [.release, .goto 3]
  | 3 => [.finishAccess]
  | _ => []

/-- The access `i`, whose events are `ops`: an idle sequencer takes it, a busy one makes its next event. -/
def runAccess (i : Instr) (ops : List Micro) (s : State) : Host.Outcome State Fault Refusal :=
  if s.seqBusy then runNext (accessLine ops s) s else .next (s.takeAccess i)

/-! ### The interrupt bridge (R209–R214) -/

/-- A packet-ready edge: `IRQ_PENDING <- 1`, at any time (R209); one more edge changes nothing (R28). -/
def State.latchEdge (s : State) : State := { s with irqPending := true }

/-- DISCARD's lines 0–2 (R147). -/
def discardFrames (ly : Layout) : List Micro := [.select] ++ flushRx ly ++ [.release]

/-- The events of a service: one discard with no handler (R212), one notification with a handler (R213). -/
def serviceEvents (s : State) : List Micro :=
  (if s.handlerReg then [.notify] else discardFrames s.par.layout) ++ [.finishService]

/-- Service starts: `IRQ_PENDING <- 0`, `SEQ_BUSY <- 1` (R211). `OP` and `STEP` stay as they are (assumption 15). -/
def beginService (s : State) : State :=
  { s with irqPending := false, seqBusy := true, running := none, todo := serviceEvents s, locals := Locals.empty }

end Sys2Proof.Machine
end

