-- ==== Sys2Proof/Machine/Access.lean ====
section
/-! DEFINITION. The access kinds of format HDR as instructions (40_encoder.md R101–R104, R106). Presented alone, each runs inside a
chip-select scope of its own; a byte read is bound to the locals `v` or `t` (R36; assumptions 4, 21). -/

namespace Sys2Proof.Machine

/-- `WR_SINGLE a, v` (R101, R108). -/
def execWrSingle (a v : Byte) (s : State) : Host.Outcome State Fault Refusal :=
  runAccess (.wrSingle a v) (singleWrite s.par.layout a v) s

/-- `RD_SINGLE a` (R102, R109). -/
def execRdSingle (a : Byte) (s : State) : Host.Outcome State Fault Refusal :=
  runAccess (.rdSingle a) (singleRead s.par.layout a .v) s

/-- `WR_BURST a, t` (R103, R110). -/
def execWrBurst (a : Byte) (t : List Byte) (s : State) : Host.Outcome State Fault Refusal :=
  runAccess (.wrBurst a t) (burstWrite s.par.layout a (t.map .byte)) s

/-- `RD_BURST a, n` (R104, R111). -/
def execRdBurst (a : Byte) (n : Nat) (s : State) : Host.Outcome State Fault Refusal :=
  runAccess (.rdBurst a n) (burstRead s.par.layout a n .t) s

/-- `RD_STATUS a` (R106, R113). -/
def execRdStatus (a : Byte) (s : State) : Host.Outcome State Fault Refusal :=
  runAccess (.rdStatus a) (statusRead s.par.layout a .v) s

end Sys2Proof.Machine
end

