-- ==== Sys2Proof/Machine/Control.lean ====
section
/-! DEFINITION. Lifecycle, configuration and queries (42_control.md R160–R172), each written as the numbered lines of its rule's
pseudocode; the number matched is `STEP`, and each line is the list of its events. -/

namespace Sys2Proof.Machine

/-! ### Lifecycle -/

/-- Line 3 of INIT: the single write of the loop's current entry, and back to the loop's head (R160). That `STEP` goes back to line 2
is the model's choice (assumption 26). -/
def initEntry (s : State) : List Micro :=
  match s.par.initTable[s.locals.entry]? with
  | some e => singleWrite s.par.layout e.1 e.2 ++ [.nextEntry, .goto 2]
  | none => [.goto 4]

/-- The lines of INIT (R160, R161). How `STEP` moves through the `for each` of lines 2 and 3 is open in R160 and R21.
DESIGN CHOICE (assumption 26): line 2 is the loop's head, which goes to line 3 while an entry is left and else to line 4. -/
def initLine (s : State) : List Micro :=
  match s.seqStep with
  | 0 => [.select, .goto 1]
  | 1 => waitReady 1
  | 2 => [.goto (if s.locals.entry < s.par.initTable.length then 3 else 4)]
  | 3 => initEntry s
  | 4 => strobe s.par.layout s.par.layout.addrMap.spwd ++ [.goto 5]
  | 5 => [.release, .goto 6]
  | 6 => complete .ok 0
  | _ => []

/-- `INIT` (R160). -/
def execInit (s : State) : Host.Outcome State Fault Refusal := runOperation .init 0x1 initLine s

/-- The lines of ON (R162). -/
def onLine (s : State) : List Micro :=
  match s.seqStep with
  | 0 => [.select, .goto 1]
  | 1 => waitReady 1
  | 2 => strobe s.par.layout s.par.layout.addrMap.srx ++ [.goto 3]
  | 3 => [.release, .goto 4]
  | 4 => complete .ok 0
  | _ => []

/-- `ON` (R162). -/
def execRadioOn (s : State) : Host.Outcome State Fault Refusal := runOperation .radioOn 0x2 onLine s

/-- The lines of OFF (R163). -/
def offLine (s : State) : List Micro :=
  match s.seqStep with
  | 0 => [.select, .goto 1]
  | 1 => waitRX s.par.layout 1
  | 2 => strobe s.par.layout s.par.layout.addrMap.sidle ++ [.goto 3]
  | 3 => strobe s.par.layout s.par.layout.addrMap.spwd ++ [.goto 4]
  | 4 => [.release, .goto 5]
  | 5 => complete .ok 0
  | _ => []

/-- `OFF` (R163). -/
def execRadioOff (s : State) : Host.Outcome State Fault Refusal := runOperation .radioOff 0x3 offLine s

/-! ### Configuration -/

/-- The lines of a configuration request: one register write in a scope of its own (R164–R166). -/
def writeRegisterLine (a v : Byte) (s : State) : List Micro :=
  match s.seqStep with
  | 0 => [.select, .goto 1]
  | 1 => singleWrite s.par.layout a v ++ [.goto 2]
  | 2 => [.release, .goto 3]
  | 3 => complete .ok 0
  | _ => []

/-- `SET_CHANNEL n` (R164). -/
def execSetChannel (n : Byte) (s : State) : Host.Outcome State Fault Refusal :=
  runOperation (.setChannel n) 0x4 (writeRegisterLine s.par.layout.addrMap.channr n) s

/-- `SET_TXPOWER level` (R165). -/
def execSetTxPower (level : Byte) (s : State) : Host.Outcome State Fault Refusal :=
  runOperation (.setTxPower level) 0x5 (writeRegisterLine s.par.layout.addrMap.patable level) s

/-- `SET_ADDRESS addr` (R166). -/
def execSetAddress (addr : Byte) (s : State) : Host.Outcome State Fault Refusal :=
  runOperation (.setAddress addr) 0x6 (writeRegisterLine s.par.layout.addrMap.addr addr) s

/-- The lines of SET_CALLBACK (R167). -/
def setCallbackLine (r : Bool) (s : State) : List Micro :=
  match s.seqStep with
  | 0 => [.setHandler r, .goto 1]
  | 1 => complete .ok 0
  | _ => []

/-- `SET_CALLBACK r` (R167). -/
def execSetCallback (r : Bool) (s : State) : Host.Outcome State Fault Refusal :=
  runOperation (.setCallback r) 0x7 (setCallbackLine r) s

/-! ### Queries -/

/-- The lines of GET_RSSI (R168). -/
def getRssiLine (s : State) : List Micro :=
  match s.seqStep with
  | 0 => [.select, .goto 1]
  | 1 => statusRead s.par.layout (rssiS s.par.layout) .v ++ [.goto 2]
  | 2 => [.release, .goto 3]
  | 3 => complete .ok s.locals.v.toNat
  | _ => []

/-- `GET_RSSI` (R168). -/
def execGetRssi (s : State) : Host.Outcome State Fault Refusal := runOperation .getRssi 0xB getRssiLine s

/-- An operation of one line that only answers, numbered 0: the rules of R169–R172 give it no number. -/
def answerLine (answer : List Micro) (s : State) : List Micro :=
  match s.seqStep with
  | 0 => answer
  | _ => []

/-- `GET_LAST_RSSI` (R169). -/
def execGetLastRssi (s : State) : Host.Outcome State Fault Refusal :=
  runOperation .getLastRssi 0xC (answerLine (complete .ok s.rssiLast.toNat)) s

/-- `GET_LAST_LQI` (R170). -/
def execGetLastLqi (s : State) : Host.Outcome State Fault Refusal :=
  runOperation .getLastLqi 0xD (answerLine (complete .ok s.lqiLast.toNat)) s

/-- `IS_CHANNEL_CLEAR`: always true (R171). -/
def execIsChannelClear (s : State) : Host.Outcome State Fault Refusal :=
  runOperation .isChannelClear 0xE (answerLine (complete .ok 1)) s

/-! ### Reserved request codes: IllegalRequest (R172, R204) -/

/-- Request code 0x0 (R75, R172, R204). -/
def execReserved0 (s : State) : Host.Outcome State Fault Refusal :=
  runOperation .reserved0 0x0 (answerLine (raiseError .illegal)) s

/-- Request code 0xF (R75, R172, R204). -/
def execReservedF (s : State) : Host.Outcome State Fault Refusal :=
  runOperation .reservedF 0xF (answerLine (raiseError .illegal)) s

end Sys2Proof.Machine
end

