-- ==== Sys2Proof/Machine/Frame.lean ====
section
/-! DEFINITION. The packet frame formatter (41_frame.md): SEND, RECEIVE, DISCARD, each written as the numbered lines of its rule's
pseudocode; the number matched is `STEP`, and each line is the list of its events. -/

namespace Sys2Proof.Machine

/-- The bytes of a burst from a source buffer, in index order (R43, R44). -/
def bufferBytes (byteAt : Nat → Sent) (n : Nat) : List Sent := (List.range n).map byteAt

/-- The lines of SEND (R140). The buffers are read in index order (R43); a burst is issued only for a length above 0 (R142). -/
def sendLine (h p : Nat) (s : State) : List Micro :=
  match s.seqStep with
  | 0 => [.setTotal (h + p), .goto 1]
  | 1 => if exceedsMax s.locals.total s.par then raiseError .oversize else [.goto 2]
  | 2 => [.select, .goto 3]
  | 3 => waitRX s.par.layout 3
  | 4 => singleWrite s.par.layout s.par.layout.addrMap.fifo (BitVec.ofNat 8 s.locals.total) ++ [.goto 5]
  | 5 => [.goto (if 0 < h then 6 else 8)]
  | 6 => burstWrite s.par.layout s.par.layout.addrMap.fifo (bufferBytes .hdr h) ++ [.goto 7]
  | 7 => burstEnd s.par ++ [.goto 8]
  | 8 => [.goto (if 0 < p then 9 else 11)]
  | 9 => burstWrite s.par.layout s.par.layout.addrMap.fifo (bufferBytes .pay p) ++ [.goto 10]
  | 10 => burstEnd s.par ++ [.goto 11]
  | 11 => strobe s.par.layout s.par.layout.addrMap.stx ++ [.goto 12]
  | 12 => [.release, .goto 13]
  | 13 => complete .ok 0
  | _ => []

/-- `SEND h, hdr, p, pay` (R140–R142). -/
def execSend (h p : Nat) (s : State) : Host.Outcome State Fault Refusal :=
  runOperation (.send h p) 0x8 (sendLine h p) s

/-- Lines 7 and 8 of RECEIVE: the payload burst, each byte stored at `dst[k]` immediately after the exchange that received it
(R143, R43, R44). `STEP` stays on line 7 until the last store (assumption 24). -/
def receivePayload (ly : Layout) (n : Nat) : List Micro :=
  hdrXfer (encodeHeader ly ly.addrMap.fifo .rdBurst) ++
    (List.range n).flatMap fun k => [.xfer (.byte ly.dummy) .t, .store k]

/-- The lines of RECEIVE (R143). -/
def receiveLine (C : Nat) (s : State) : List Micro :=
  match s.seqStep with
  | 0 => [.select, .goto 1]
  | 1 => singleRead s.par.layout s.par.layout.addrMap.fifo .L ++ [.goto 2]
  | 2 => [.goto (if exceedsCapacity s.locals.L C then 3 else 6)]
  | 3 => flushRx s.par.layout ++ [.goto 4]
  | 4 => [.release, .goto 5]
  | 5 => raiseError .oversize
  | 6 => [.goto (if 0 < s.locals.L.toNat then 7 else 10)]
  | 7 => receivePayload s.par.layout s.locals.L.toNat ++ [.goto 8]
  | 8 => [.goto 9]
  | 9 => burstEnd s.par ++ [.goto 10]
  | 10 => burstRead s.par.layout s.par.layout.addrMap.fifo 2 .q ++ [.goto 11]
  | 11 => burstEnd s.par ++ [.goto 12]
  | 12 => [.setRssi, .setLqi, .goto 13]
  | 13 => strobe s.par.layout s.par.layout.addrMap.snop ++ [.goto 14]
  | 14 => (if s.radio = .rxOverflow then flushRx s.par.layout else []) ++ [.goto 15]
  | 15 => [.release, .goto 16]
  | 16 => complete .ok s.locals.L.toNat
  | _ => []

/-- `RECEIVE C, dst` (R143–R146, R148). -/
def execReceive (C : Nat) (s : State) : Host.Outcome State Fault Refusal :=
  runOperation (.receive C) 0x9 (receiveLine C) s

/-- The lines of DISCARD as the host requests it (R147). -/
def discardLine (s : State) : List Micro :=
  match s.seqStep with
  | 0 => [.select, .goto 1]
  | 1 => flushRx s.par.layout ++ [.goto 2]
  | 2 => [.release, .goto 3]
  | 3 => complete .ok 0
  | _ => []

/-- `DISCARD` (R147). -/
def execDiscard (s : State) : Host.Outcome State Fault Refusal := runOperation .discard 0xA discardLine s

end Sys2Proof.Machine
end

