-- ==== Sys2Proof/Machine/Strobe.lean ====
section
/-! DEFINITION. The thirteen command strobes as instructions (40_encoder.md R105, R112, R120–R132): one header exchange, the status
byte latched, no data phase. Presented alone, each runs inside a chip-select scope of its own (assumption 4). What a strobe does to
the chip is the chip's own behaviour (R119). -/

namespace Sys2Proof.Machine

/-- `SRES` (R128). -/
def execSres (s : State) : Host.Outcome State Fault Refusal :=
  runAccess .sres (strobe s.par.layout s.par.layout.addrMap.sres) s

/-- `SFSTXON` (R129). -/
def execSfstxon (s : State) : Host.Outcome State Fault Refusal :=
  runAccess .sfstxon (strobe s.par.layout s.par.layout.addrMap.sfstxon) s

/-- `SXOFF` (R130). -/
def execSxoff (s : State) : Host.Outcome State Fault Refusal :=
  runAccess .sxoff (strobe s.par.layout s.par.layout.addrMap.sxoff) s

/-- `SCAL` (R126). -/
def execScal (s : State) : Host.Outcome State Fault Refusal :=
  runAccess .scal (strobe s.par.layout s.par.layout.addrMap.scal) s

/-- `SRX` (R121). -/
def execSrx (s : State) : Host.Outcome State Fault Refusal :=
  runAccess .srx (strobe s.par.layout s.par.layout.addrMap.srx) s

/-- `STX` (R122). -/
def execStx (s : State) : Host.Outcome State Fault Refusal :=
  runAccess .stx (strobe s.par.layout s.par.layout.addrMap.stx) s

/-- `SIDLE` (R120). -/
def execSidle (s : State) : Host.Outcome State Fault Refusal :=
  runAccess .sidle (strobe s.par.layout s.par.layout.addrMap.sidle) s

/-- `SWOR` (R131). -/
def execSwor (s : State) : Host.Outcome State Fault Refusal :=
  runAccess .swor (strobe s.par.layout s.par.layout.addrMap.swor) s

/-- `SPWD` (R125). -/
def execSpwd (s : State) : Host.Outcome State Fault Refusal :=
  runAccess .spwd (strobe s.par.layout s.par.layout.addrMap.spwd) s

/-- `SFRX` (R123). -/
def execSfrx (s : State) : Host.Outcome State Fault Refusal :=
  runAccess .sfrx (strobe s.par.layout s.par.layout.addrMap.sfrx) s

/-- `SFTX` (R124). -/
def execSftx (s : State) : Host.Outcome State Fault Refusal :=
  runAccess .sftx (strobe s.par.layout s.par.layout.addrMap.sftx) s

/-- `SWORRST` (R132). -/
def execSworrst (s : State) : Host.Outcome State Fault Refusal :=
  runAccess .sworrst (strobe s.par.layout s.par.layout.addrMap.sworrst) s

/-- `SNOP` (R127). -/
def execSnop (s : State) : Host.Outcome State Fault Refusal :=
  runAccess .snop (strobe s.par.layout s.par.layout.addrMap.snop) s

end Sys2Proof.Machine
end

