-- ==== Sys2Proof/Machine/Dispatch.lean ====
section
/-! DEFINITION. `exec`: one arm per constructor of `Instr`, each one call of its meaning. -/

namespace Sys2Proof.Machine

def exec (i : Instr) (s : State) : Host.Outcome State Fault Refusal :=
  match i with
  | .wrSingle a v => Sys2Proof.Machine.execWrSingle a v s
  | .rdSingle a => Sys2Proof.Machine.execRdSingle a s
  | .wrBurst a t => Sys2Proof.Machine.execWrBurst a t s
  | .rdBurst a n => Sys2Proof.Machine.execRdBurst a n s
  | .rdStatus a => Sys2Proof.Machine.execRdStatus a s
  | .sres => Sys2Proof.Machine.execSres s
  | .sfstxon => Sys2Proof.Machine.execSfstxon s
  | .sxoff => Sys2Proof.Machine.execSxoff s
  | .scal => Sys2Proof.Machine.execScal s
  | .srx => Sys2Proof.Machine.execSrx s
  | .stx => Sys2Proof.Machine.execStx s
  | .sidle => Sys2Proof.Machine.execSidle s
  | .swor => Sys2Proof.Machine.execSwor s
  | .spwd => Sys2Proof.Machine.execSpwd s
  | .sfrx => Sys2Proof.Machine.execSfrx s
  | .sftx => Sys2Proof.Machine.execSftx s
  | .sworrst => Sys2Proof.Machine.execSworrst s
  | .snop => Sys2Proof.Machine.execSnop s
  | .init => Sys2Proof.Machine.execInit s
  | .radioOn => Sys2Proof.Machine.execRadioOn s
  | .radioOff => Sys2Proof.Machine.execRadioOff s
  | .setChannel n => Sys2Proof.Machine.execSetChannel n s
  | .setTxPower level => Sys2Proof.Machine.execSetTxPower level s
  | .setAddress addr => Sys2Proof.Machine.execSetAddress addr s
  | .setCallback r => Sys2Proof.Machine.execSetCallback r s
  | .send h p => Sys2Proof.Machine.execSend h p s
  | .receive C => Sys2Proof.Machine.execReceive C s
  | .discard => Sys2Proof.Machine.execDiscard s
  | .getRssi => Sys2Proof.Machine.execGetRssi s
  | .getLastRssi => Sys2Proof.Machine.execGetLastRssi s
  | .getLastLqi => Sys2Proof.Machine.execGetLastLqi s
  | .isChannelClear => Sys2Proof.Machine.execIsChannelClear s
  | .reserved0 => Sys2Proof.Machine.execReserved0 s
  | .reservedF => Sys2Proof.Machine.execReservedF s

end Sys2Proof.Machine
end

