-- ==== Sys2Proof/Machine/Step.lean ====
section
/-! DEFINITION. One step of the block (00_scope.md R2): a packet-ready edge sets `IRQ_PENDING`, or the sequencer makes one event, in the
priority of 60_exceptions.md R215: a running operation goes on; at an idle point a pending edge is serviced first, then a waiting
request is taken. -/

namespace Sys2Proof.Machine

/-- Decode the one instruction a port presents and run it. -/
def stepPort (ly : Layout) (p : Port) (bytes : List Byte) (run : Instr → Host.Outcome State Fault Refusal) :
    Host.Outcome State Fault Refusal :=
  match decode ly p bytes with
  | .ok i [] => run i
  | .ok _ (_ :: _) => .refused .trailingBytes
  | .error e => .refused (.undecodable e)

/-- What an idle sequencer does with no edge pending: the access presented to the encoder (the model's own port, assumption 4), else
the request at the port (42_control.md R173), else nothing (70_reset_and_hazards.md R241). -/
def stepIdle (s : State) : Host.Outcome State Fault Refusal :=
  match s.access with
  | some bytes => stepPort s.par.layout .hdr bytes fun i => exec i { s with access := none }
  | none =>
    match s.requests with
    | [] => .next s
    | r :: rest => stepPort s.par.layout .req r.bytes fun i => exec i ({ s with requests := rest }.loadBuffers i r)

/-- What a busy sequencer does: its running operation goes on (42_control.md R175), or the interrupt service does. -/
def stepBusy (s : State) : Host.Outcome State Fault Refusal :=
  match s.running with
  | some i => exec i s
  | none => runNext [] s

/-- One event of the sequencer: the first of R215 that applies. -/
def sequencerStep (s : State) : Host.Outcome State Fault Refusal :=
  if s.seqBusy then stepBusy s
  else if s.irqPending then .next (beginService s)
  else stepIdle s

/-- One step: an edge that comes before the sequencer's next event sets `IRQ_PENDING` (R209), else that event happens (assumption 12).
An edge that finds `IRQ_PENDING` = 1 changes nothing (R28), so it is no update and takes no step: edges hold a running operation up
for one step at most, however many come (R175). -/
def step (s : State) : Host.Outcome State Fault Refusal :=
  let past : State := { s with pktEdge := s.pktEdge.advance }
  if s.pktEdge.next Config.packetEdge && !s.irqPending then .next past.latchEdge else sequencerStep past

/-- The state in which the next step runs exactly the instruction of a table word: the sequencer idle, no edge pending and none
coming before its next event, the instruction alone at the front of its port (assumption 7). -/
def State.withFetchWord (s : State) (nbits w : Nat) : State :=
  let bytes := tableBytes nbits w
  let idle : State :=
    { s with seqBusy := false, seqStep := 0, running := none, todo := [], irqPending := false
             pktEdge := { s.pktEdge with given := false :: s.pktEdge.given } }
  match tableWordPort nbits w with
  | .hdr => { idle with access := some bytes }
  | .req => { idle with access := none
                        requests := { bytes := bytes, hdr := s.hdr, pay := s.pay, dst := s.dst } :: s.requests }

end Sys2Proof.Machine
end

