-- ==== Sys2Proof/Safety.lean ====
section
/-! DEFINITION. What the claims are stated in: the chip's answers by number, bus scripts and the events they record, runs of an
instruction from its taking to its completion, the state a completed instruction leaves, the states an operation waits in, and the
invariants of a run of the block. -/

namespace Sys2Proof.Machine

/-! ### Inputs by number -/

/-- An input after `k` values were used. -/
def Source.skip {α : Type} : Nat → Source α → Source α
  | 0, m => m
  | k + 1, m => Source.skip k m.advance

/-- The next `n` values of an input. -/
def Source.upcoming {α : Type} (free : Nat → α) : Nat → Source α → List α
  | 0, _ => []
  | n + 1, m => m.next free :: Source.upcoming free n m.advance

/-- The byte the chip answers in exchange number `k` from here, counting from 0. -/
def State.answerAt (s : State) (k : Nat) : Byte := (s.miso.skip k).next Config.chipAnswer

/-- The radio state that answer number `k` reports if it is a status byte (R115). -/
def State.radioAt (s : State) (k : Nat) : RadioState := (decodeStatus s.par.layout (s.answerAt k)).1

/-- Whether a packet-ready edge comes before the sequencer's next event (R209). -/
def State.edgeNow (s : State) : Bool := s.pktEdge.next Config.packetEdge

/-- Sample number `k` of `NOT_READY` from here, counting from 0 (R30). -/
def State.notReadyAt (s : State) (k : Nat) : Bool := (s.notReady.skip k).next Config.notReadyLevel

/-- For each of the next `n` steps, whether a packet-ready edge comes in it (R209). -/
def State.edges (s : State) (n : Nat) : List Bool := s.pktEdge.upcoming Config.packetEdge n

/-- The next step is the setting of `IRQ_PENDING`: an edge comes and none is pending yet (R28, R209). -/
def State.latches (s : State) : Bool := s.edgeNow && !s.irqPending

/-- How many events a busy sequencer makes in the next `n` steps: one a step, but for the step of the first edge where none is pending
yet (R28, R175; assumption 12). -/
def State.events (s : State) (n : Nat) : Nat := if s.irqPending then n else n - ((s.edges n).any id).toNat

/-- The state with this step's packet-ready sample used up. -/
def State.pastEdge (s : State) : State := { s with pktEdge := s.pktEdge.advance }

/-! ### Bytes of a host buffer -/

/-- The `n` bytes of a buffer from index `k` up, in index order (R43, R44). -/
def memBytes (m : Memory) (k : Nat) : Nat → List Byte
  | 0 => []
  | n + 1 => memRead m k :: memBytes m (k + 1) n

/-- A buffer after bytes were stored from index `k` up, in index order (R43, R44). -/
def memStore (m : Memory) (k : Nat) : List Byte → Memory
  | [] => m
  | v :: rest => memStore (memWrite m k v) (k + 1) rest

/-! ### Bus scripts -/

/-- What an operation does on the bus inside its scope: send a byte, or pulse chip select (R114). -/
inductive Act
  | out (o : Byte)
  | pulse
  deriving DecidableEq, Repr

/-- The bytes of a list, each sent. -/
def outs (os : List Byte) : List Act := os.map .out

/-- The events a script records, each byte sent with the chip's answer to it. -/
def play : List Act → Source Byte → List Event
  | [], _ => []
  | .out o :: rest, m => .x o (m.next Config.chipAnswer) :: play rest m.advance
  | .pulse :: rest, m => .rel :: .sel :: play rest m

/-- How many exchanges a script makes. -/
def exchanges : List Act → Nat
  | [] => 0
  | .out _ :: rest => exchanges rest + 1
  | .pulse :: rest => exchanges rest

/-- The header byte of a strobe (R105). -/
def strobeByte (ly : Layout) (a : Byte) : Byte := encodeHeader ly a .strobe

/-- The pulse that ends a burst, where the parameter asks for it (R114). -/
def burstEndActs (par : Params) : List Act := if par.burstEndPulse then [.pulse] else []

/-- The burst write of `t` to the FIFO and its end; no burst at all for no bytes (R142). -/
def fifoBurst (par : Params) (t : List Byte) : List Act :=
  if t = [] then [] else outs (encodeHeader par.layout par.layout.addrMap.fifo .wrBurst :: t) ++ burstEndActs par

/-- The burst read of `n` bytes from the FIFO and its end; no burst at all for no bytes (R145). -/
def fifoRead (par : Params) (n : Nat) : List Act :=
  if n = 0 then []
  else outs (encodeHeader par.layout par.layout.addrMap.fifo .rdBurst :: List.replicate n par.layout.dummy) ++ burstEndActs par

/-- `n` polls (R117). -/
def pollActs (ly : Layout) (n : Nat) : List Act := outs (List.replicate n (strobeByte ly ly.addrMap.snop))

/-- The flush sequence: idle, flush-rx, go-rx (R118). -/
def flushActs (ly : Layout) : List Act :=
  outs [strobeByte ly ly.addrMap.sidle, strobeByte ly ly.addrMap.sfrx, strobeByte ly ly.addrMap.srx]

/-- The single write of `v` to the logical address `a` (R108). -/
def writeActs (ly : Layout) (a v : Byte) : List Act := outs [encodeHeader ly a .wrSingle, v]

/-- The transmit frame and its strobe, as SEND writes them after its polls (R71, R140, R142). -/
def frameActs (par : Params) (hdr pay : List Byte) : List Act :=
  writeActs par.layout par.layout.addrMap.fifo (BitVec.ofNat 8 (hdr.length + pay.length)) ++ fifoBurst par hdr ++ fifoBurst par pay ++
    outs [strobeByte par.layout par.layout.addrMap.stx]

/-- INIT's accesses: one single write for each entry of the table, in order, then power-down (R160, R161). -/
def initActs (par : Params) : List Act :=
  (par.initTable.flatMap fun e => writeActs par.layout e.1 e.2) ++ outs [strobeByte par.layout par.layout.addrMap.spwd]

/-- OFF's strobes after its polls (R163). -/
def offActs (ly : Layout) : List Act := outs [strobeByte ly ly.addrMap.sidle, strobeByte ly ly.addrMap.spwd]

/-- RECEIVE's read of the length prefix (R143). -/
def lengthActs (ly : Layout) : List Act := outs [encodeHeader ly ly.addrMap.fifo .rdSingle, ly.dummy]

/-- What RECEIVE does up to its overflow poll, for a length prefix of `L` (R143, R145, R146). -/
def receiveActs (par : Params) (L : Nat) : List Act :=
  lengthActs par.layout ++ fifoRead par L ++
    outs [encodeHeader par.layout par.layout.addrMap.fifo .rdBurst, par.layout.dummy, par.layout.dummy] ++ burstEndActs par ++
    pollActs par.layout 1

/-- RECEIVE's accesses after the length prefix: the flush follows exactly when the poll, the last exchange of `receiveActs`, reports
`RX_OVERFLOW` (R146). -/
def State.receiveScript (s : State) (L : Nat) : List Act :=
  if s.radioAt (exchanges (receiveActs s.par L) - 1) = .rxOverflow then receiveActs s.par L ++ flushActs s.par.layout
  else receiveActs s.par L

/-- The `L` payload bytes a RECEIVE that starts here reads: the answers from exchange 3 on (R143). -/
def State.payloadAt (s : State) (L : Nat) : List Byte := (s.miso.skip 3).upcoming Config.chipAnswer L

/-- The header bytes a SEND that starts here sends (R43). -/
def State.hdrBytes (s : State) (h : Nat) : List Byte := memBytes s.hdr 0 h

/-- The payload bytes a SEND that starts here sends (R43). -/
def State.payBytes (s : State) (p : Nat) : List Byte := memBytes s.pay 0 p

/-- The transmit frame of R71 for the header and payload bytes `hdr` and `pay`. -/
def transmitFrame (hdr pay : List Byte) : List Byte := BitVec.ofNat 8 (hdr.length + pay.length) :: (hdr ++ pay)

/-- How a chip reads the bytes of a scope: it awaits a header, or one data byte for the FIFO, or FIFO bytes to the end of the scope. -/
inductive FifoMode
  | header | single | burst
  deriving DecidableEq, Repr

/-- The bytes a trace in the reference layout writes to the transmit FIFO, for a chip that ends a burst only when chip select is
released (R42, R67, R248): the data byte of header 0x3F, and every byte after header 0x7F up to `REL`. The model's own
(assumption 19). -/
def fifoWrites : FifoMode → List Event → List Byte
  | _, [] => []
  | .header, .x o _ :: rest =>
    fifoWrites (if o = 0x3F then .single else if o = 0x7F then .burst else .header) rest
  | .single, .x o _ :: rest => o :: fifoWrites .header rest
  | .burst, .x o _ :: rest => o :: fifoWrites .burst rest
  | _, .rel :: rest => fifoWrites .header rest
  | m, .sel :: rest => fifoWrites m rest
  | m, .notify :: rest => fifoWrites m rest

/-! ### Runs of one instruction -/

/-- `n` events of `i` from `s`, each one answer of `exec`: after every one the sequencer is busy, and the last leaves `t`. -/
def Goes (i : Instr) : Nat → State → State → Prop
  | 0, s, t => s = t
  | n + 1, s, t => ∃ u, exec i s = .next u ∧ u.seqBusy = true ∧ Goes i n u t

/-- `exec i s` answers a next state, and so does every event of `i` that follows (R2), until the one that leaves the sequencer idle
(R174) in the state `t`. -/
def Completes (i : Instr) (s t : State) : Prop :=
  ∃ n u, Goes i n s u ∧ exec i u = .next t ∧ t.seqBusy = false

/-! ### The state an instruction leaves -/

/-- The latch after the status byte of exchange number `k` (R107). -/
def State.latchedAt (s : State) (k : Nat) : State :=
  { s with stState := stateField s.par.layout (s.answerAt k), stFifo := fifoField s.par.layout (s.answerAt k) }

/-- The bus after the rest of a chip-select scope in which the script `acts` ran: `CS` = 0, its events and `REL` recorded, its
answers used, the status byte of exchange number `k` in the latch, and nothing else changed. -/
def State.afterActs (s : State) (acts : List Act) (k : Nat) : State :=
  { s.latchedAt k with
      cs := false, miso := s.miso.skip (exchanges acts), trace := s.trace ++ play acts s.miso ++ [.rel] }

/-- The bus after a whole chip-select scope: as `afterActs`, with `SEL` recorded first. -/
def State.afterScope (s : State) (acts : List Act) (k : Nat) : State :=
  { s.afterActs acts k with trace := s.trace ++ .sel :: play acts s.miso ++ [.rel] }

/-- A completed request of code `code`: the result registers written, the sequencer idle, nothing else changed (R173, R174). -/
def State.completed (s : State) (code : BitVec 4) (kind : ResKind) (val : Nat) : State :=
  { s with seqBusy := false, op := code, seqStep := 0, running := none, todo := [], locals := Locals.empty
           resKind := kind, resVal := val % 2 ^ s.par.layout.lenW }

/-- A completed access that leaves the locals `l`: the sequencer idle, nothing else changed (assumptions 4, 21). -/
def State.accessed (s : State) (l : Locals) : State :=
  { s with seqBusy := false, seqStep := 0, running := none, todo := [], locals := l }

/-- An operation of code `code` that has taken the sequencer, opened its scope and stands at the head of line `k` with the locals `l`,
nothing else changed. -/
def State.waitingAt (s : State) (i : Instr) (code : BitVec 4) (k : Nat) (l : Locals) : State :=
  { s with seqBusy := true, op := code, seqStep := k, running := some i, todo := [], locals := l, cs := true
           trace := s.trace ++ [.sel] }

/-- The bus and the locals after a poll: recorded, its status byte in the latch (R107, R117). -/
def State.polled (s : State) : State :=
  { s.latchedAt 0 with
      miso := s.miso.advance, trace := s.trace ++ play (pollActs s.par.layout 1) s.miso
      locals := { s.locals with s := s.answerAt 0 } }

/-- The state with `n` samples of `NOT_READY` used up. -/
def State.skipReady (s : State) (n : Nat) : State := { s with notReady := s.notReady.skip n }

/-! ### Operations that wait -/

/-- The request code of a host request (R74, R75). -/
def requestCode : Instr → Option (BitVec 4)
  | .init => some 0x1 | .radioOn => some 0x2 | .radioOff => some 0x3
  | .setChannel _ => some 0x4 | .setTxPower _ => some 0x5 | .setAddress _ => some 0x6
  | .setCallback _ => some 0x7 | .send _ _ => some 0x8 | .receive _ => some 0x9
  | .discard => some 0xA | .getRssi => some 0xB | .getLastRssi => some 0xC
  | .getLastLqi => some 0xD | .isChannelClear => some 0xE
  | .reserved0 => some 0x0 | .reservedF => some 0xF
  | .wrSingle _ _ | .rdSingle _ | .wrBurst _ _ | .rdBurst _ _ | .rdStatus _ => none
  | .sres | .sfstxon | .sxoff | .scal | .srx | .stx | .sidle => none
  | .swor | .spwd | .sfrx | .sftx | .sworrst | .snop => none

/-- The line on which an operation may wait without bound: `WaitReady` in INIT and ON, `WaitRX` in OFF and SEND (R175, R207). -/
def waitLine : Instr → Option Nat
  | .init | .radioOn | .radioOff => some 1
  | .send _ _ => some 3
  | .setChannel _ | .setTxPower _ | .setAddress _ | .setCallback _ | .receive _ | .discard => none
  | .getRssi | .getLastRssi | .getLastLqi | .isChannelClear | .reserved0 | .reservedF => none
  | .wrSingle _ _ | .rdSingle _ | .wrBurst _ _ | .rdBurst _ _ | .rdStatus _ => none
  | .sres | .sfstxon | .sxoff | .scal | .srx | .stx | .sidle => none
  | .swor | .spwd | .sfrx | .sftx | .sworrst | .snop => none

/-- The operation `i` stands at the head of its waiting line: it holds the sequencer and the chip, and its next event is a test or a
poll. -/
def State.Waiting (s : State) (i : Instr) : Prop :=
  s.seqBusy = true ∧ s.cs = true ∧ s.running = some i ∧ s.todo = [] ∧ waitLine i = some s.seqStep

/-- The operation `i` is on its waiting line, between any two of its events: it holds the sequencer and the chip. -/
def State.OnWaitLine (s : State) (i : Instr) : Prop :=
  s.seqBusy = true ∧ s.cs = true ∧ s.running = some i ∧ waitLine i = some s.seqStep

/-! ### Invariants of a run -/

/-- Chip select at the head of each line of an operation (R22): it is 1 from the line after `Select()` to the line of `Release()`. -/
def csLines : Instr → List Bool
  | .init => [false, true, true, true, true, true, false]
  | .radioOn => [false, true, true, true, false]
  | .radioOff => [false, true, true, true, true, false]
  | .setChannel _ | .setTxPower _ | .setAddress _ | .getRssi | .discard => [false, true, true, false]
  | .setCallback _ => [false, false]
  | .send _ _ => [false, false, false] ++ List.replicate 10 true ++ [false]
  | .receive _ => [false] ++ List.replicate 4 true ++ [false] ++ List.replicate 10 true ++ [false]
  | .getLastRssi | .getLastLqi | .isChannelClear | .reserved0 | .reservedF => [false]
  | .wrSingle _ _ | .rdSingle _ | .wrBurst _ _ | .rdBurst _ _ | .rdStatus _ => [false, true, true, false]
  | .sres | .sfstxon | .sxoff | .scal | .srx | .stx | .sidle => [false, true, true, false]
  | .swor | .spwd | .sfrx | .sftx | .sworrst | .snop => [false, true, true, false]

/-- Line `k` of the operation `i` is one of its lines, and chip select is `cs` at its head. -/
def lineHead (i : Instr) (k : Nat) (cs : Bool) : Bool := (csLines i)[k]? == some cs

/-- `STEP` may go from line `k` to line `k'`: forward, or back to the head of INIT's loop (R21). -/
def mayGo (i : Instr) (k k' : Nat) : Bool := decide (k < k') || (decide (i = .init) && k == 3 && k' == 2)

/-- The events a line of `i`, or the interrupt service where there is no `i`, may still make with `STEP` = `k` and chip select at `cs`:
exchanges only inside the scope (R9), selects and releases in turn, the snapshot, `HANDLER_REG` and `dst` written only by their
operations (R25–R27, R43), the result registers only in the last line (R174), and at the end a line to go on with, or idle with the
chip released, on line 0 (R21, R22). -/
def follows (i : Option Instr) (k : Nat) : Bool → List Micro → Bool
  | _, [] => false
  | cs, .select :: r => !cs && follows i k true r
  | cs, .release :: r => cs && follows i k false r
  | cs, .xfer _ _ :: r => cs && follows i k cs r
  | cs, .latchState :: r => follows i k cs r
  | cs, .latchFifo :: r => follows i k cs r
  | cs, .setTotal n :: r => (match i with | some (.send h p) => k == 0 && n == h + p | _ => false) && follows i k cs r
  | cs, .nextEntry :: r => decide (i = some .init) && k == 3 && follows i k cs r
  | cs, .store _ :: r => (match i with | some (.receive _) => true | _ => false) && follows i k cs r
  | cs, .setRssi :: r => (match i with | some (.receive _) => true | _ => false) && follows i k cs r
  | cs, .setLqi :: r => (match i with | some (.receive _) => true | _ => false) && follows i k cs r
  | cs, .setHandler _ :: r => (match i with | some (.setCallback _) => true | _ => false) && follows i k cs r
  | cs, .goto k' :: r => (match i with | some j => mayGo j k k' && lineHead j k' cs | none => false) && r.isEmpty
  | cs, .untilReady k' :: r =>
    (match i with | some j => k' == k && lineHead j k cs && lineHead j (k + 1) cs | none => false) && r.isEmpty
  | cs, .untilRx k' :: r =>
    (match i with | some j => k' == k && lineHead j k cs && lineHead j (k + 1) cs | none => false) && r.isEmpty
  | cs, .setKind _ :: r =>
    (match i with | some j => (requestCode j).isSome | none => false) && !cs && (match r with | [.setVal _, .finish] => true | _ => false)
  | cs, .setVal _ :: r =>
    (match i with | some j => (requestCode j).isSome | none => false) && !cs && (match r with | [.finish] => true | _ => false)
  | cs, .finish :: r => (match i with | some j => (requestCode j).isSome | none => false) && !cs && r.isEmpty
  | cs, .finishAccess :: r => (match i with | some j => decide (j.port = .hdr) | none => false) && !cs && r.isEmpty
  | cs, .notify :: r => decide (i = none) && !cs && follows i k cs r
  | cs, .finishService :: r => decide (i = none) && k == 0 && !cs && r.isEmpty

/-- What the locals of the operations with a wait hold: SEND's `total` is the exact sum from line 1 on and passed the oversize test
from line 2 on (R140, R141), which is reached by way of line 1 alone; INIT's loop has written no entry before it begins. -/
def State.LocalsOk (s : State) : Prop :=
  (∀ h p, s.running = some (.send h p) →
    (s.seqStep ≠ 0 ∨ s.todo ≠ [] → s.locals.total = h + p) ∧
    (1 < s.seqStep → h + p ≤ s.par.maxLen.toNat) ∧
    (s.seqStep = 0 → ∀ k, .goto k ∈ s.todo → k = 1) ∧
    (s.seqStep = 1 → ∀ k, .goto k ∉ s.todo ∧ .untilReady k ∉ s.todo ∧ .untilRx k ∉ s.todo)) ∧
  (s.running = some .init → s.seqStep ≤ 1 → s.locals.entry = 0)

/-- Idle: not selected, on line 0, nothing running (R21, R22). Busy: an operation of the code in `OP`, at the head of one of its lines
or with events of the line left that it may make, or the interrupt service with events left (R21, R22, R211). -/
def State.SequencerOk (s : State) : Prop :=
  (s.seqBusy = false → s.cs = false ∧ s.seqStep = 0 ∧ s.running = none ∧ s.todo = []) ∧
  (s.seqBusy = true →
    (s.todo ≠ [] → follows s.running s.seqStep s.cs s.todo = true) ∧
    (s.todo = [] → ∃ i, s.running = some i ∧ lineHead i s.seqStep s.cs = true) ∧
    (∀ i code, s.running = some i → requestCode i = some code → s.op = code) ∧
    s.LocalsOk)

/-- The state `exec i` runs in: of a run of the block, and where the sequencer is busy, busy with `i`. -/
def State.Runs (s : State) (i : Instr) : Prop := s.SequencerOk ∧ (s.seqBusy = true → s.running = some i)

/-- Every host buffer, those of waiting requests too, is in canonical form. -/
def State.BuffersOk (s : State) : Prop :=
  Memory.wf s.hdr = true ∧ Memory.wf s.pay = true ∧ Memory.wf s.dst = true ∧
  ∀ r ∈ s.requests, Memory.wf r.hdr = true ∧ Memory.wf r.pay = true ∧ Memory.wf r.dst = true

/-- Chip select after a trace that began with it at `cs`, or none where the trace breaks the scope rules: a second `SEL` or `REL` in a
row, an exchange outside a scope (R9), a notification inside one (R51, R211). -/
def scopeAfter : Bool → List Event → Option Bool
  | cs, [] => some cs
  | cs, .sel :: rest => if cs then none else scopeAfter true rest
  | cs, .rel :: rest => if cs then scopeAfter false rest else none
  | cs, .x _ _ :: rest => if cs then scopeAfter cs rest else none
  | cs, .notify :: rest => if cs then none else scopeAfter cs rest

/-- The recorded trace obeys the scope rules from reset on, and chip select is where it left it. -/
def State.ScopeOk (s : State) : Prop := scopeAfter false s.trace = some s.cs

end Sys2Proof.Machine
end

