-- ==== Sys2Proof/Certificates/Slice0/Obligations.lean ====
section
/-! DEFINITION. The statements for the provers. Every statement of a result gives the whole next state, so that it says the frame too:
what is not named is unchanged. Answers of the chip are given by number (`answerAt`) and hold for every chip; the parameters of R7 are
any (`s.par`), unless a statement asks for the reference layout or a well-formed one. -/

open Sys2Proof Sys2Proof.Machine

/-! ## Encoding -/

/-- R100: ENCODE(a, k) = a | KB(k), with the five values of KB, for all 256 addresses, in the reference layout. -/
def Obligations.EncodeOrsKindBits : Prop :=
  ∀ a : Byte,
    encodeHeader .reference a .wrSingle = a ||| 0x00#8 ∧ encodeHeader .reference a .rdSingle = a ||| 0x80#8 ∧
    encodeHeader .reference a .wrBurst = a ||| 0x40#8 ∧ encodeHeader .reference a .rdBurst = a ||| 0xC0#8 ∧
    encodeHeader .reference a .strobe = a ||| 0x00#8 ∧
    encodeHeader .reference a .wrSingle = encodeHeader .reference a .strobe ∧ ∀ k, encodeHeader .reference 0xFF#8 k = 0xFF#8

/-- R60, R62 with R100: in the reference layout a status read's header has both high bits set; in every well-formed layout no header of
a status register is a strobe's. Which layouts are well formed is the model's choice (assumption 2). -/
def Obligations.StatusReadNeverStrobe : Prop :=
  (∀ a : Byte, isStatus .reference a = true → encodeHeader .reference a .rdSingle = 0xC0#8 ||| (a &&& 0x3F#8)) ∧
  ∀ (ly : Layout) (a b : Byte), ly.wf = true → isStatus ly a = true → isStrobe ly b = true →
    encodeHeader ly a .rdSingle ≠ encodeHeader ly b .strobe

/-- R115, R68, R69: the decoder's state names and count for every status byte; bit 7 is ignored. In the reference layout. -/
def Obligations.StatusByteDecodes : Prop :=
  ∀ b : Byte,
    let d := decodeStatus .reference b
    d.2 = b.extractLsb' 0 4 ∧
    (d.1 = .idle ↔ b.extractLsb' 4 3 = 0#3) ∧ (d.1 = .rx ↔ b.extractLsb' 4 3 = 1#3) ∧
    (d.1 = .tx ↔ b.extractLsb' 4 3 = 2#3) ∧ (d.1 = .fstxon ↔ b.extractLsb' 4 3 = 3#3) ∧
    (d.1 = .calibrate ↔ b.extractLsb' 4 3 = 4#3) ∧ (d.1 = .settling ↔ b.extractLsb' 4 3 = 5#3) ∧
    (d.1 = .rxOverflow ↔ b.extractLsb' 4 3 = 6#3) ∧ (d.1 = .txUnderflow ↔ b.extractLsb' 4 3 = 7#3) ∧
    decodeStatus .reference (b ||| 0x80#8) = d

/-- Words written out from R61, R65, R66 and R74 decode to the instructions they stand for, in the reference layout. The bytes of a
request's operands are the model's choice (assumption 5). That the two headers 0x2F and 0x37 are rejected is the model's choice too
(assumption 6): R77 leaves their effect open and 93_implementation_defined.md lets a model refuse them. -/
def Obligations.SampleWordsDecode : Prop :=
  decode .reference .hdr [0b00001010, 0x05] = .ok (.wrSingle 0x0A 0x05) [] ∧
  decode .reference .hdr [0b10111111, 0x00] = .ok (.rdSingle 0x3F) [] ∧
  decode .reference .hdr [0b01111111, 0xAA, 0xBB] = .ok (.wrBurst 0x3F [0xAA, 0xBB]) [] ∧
  decode .reference .hdr [0b11111111, 0x00, 0x00] = .ok (.rdBurst 0x3F 2) [] ∧
  decode .reference .hdr [0b11110100, 0x00] = .ok (.rdStatus 0x74) [] ∧
  decode .reference .hdr [0b00110101] = .ok .stx [] ∧
  decode .reference .hdr [0b00101111, 0x00] = .error (.reservedHeader 0x2F) ∧
  decode .reference .hdr [0b00110111] = .error (.reservedHeader 0x37) ∧
  decode .reference .req [0b00000100, 0x05] = .ok (.setChannel 0x05) [] ∧
  decode .reference .req [0b00001000, 0x01, 0x00, 0x02, 0x00] = .ok (.send 1 2) [] ∧
  decode .reference .req [0b00001111] = .ok .reservedF []

/-- In every well-formed layout, decoding the encoding of any well-formed instruction gives it back, with nothing left over. The bytes
of request operands, the headers of configuration-register bursts and reads, and what makes a layout well formed are the model's choice
(assumptions 5, 6, 2). -/
def Obligations.DecodeEncodeRoundTrip : Prop :=
  ∀ (ly : Layout) (i : Instr), ly.wf = true → i.wf ly = true → decode ly i.port (encode ly i) = .ok i []

/-- The other direction: whatever decodes is the encoding of a well-formed instruction of that port, followed by the bytes left
(assumptions 5, 6, 2). -/
def Obligations.DecodedBytesAreTheEncoding : Prop :=
  ∀ (ly : Layout) (p : Port) (bytes rest : List Byte) (i : Instr), ly.wf = true → decode ly p bytes = .ok i rest →
    bytes = encode ly i ++ rest ∧ i.wf ly = true ∧ i.port = p

/-! ## Reset and the step -/

/-- R34, R240: the registers after reset, for all parameters and every draw of the unspecified ones; no bus event. -/
def Obligations.ResetLeavesRegisters : Prop :=
  ∀ par op stState stFifo rssiLast lqiLast,
    let s := State.resetWith par op stState stFifo rssiLast lqiLast
    s.cs = false ∧ s.seqBusy = false ∧ s.op = op ∧ s.seqStep = 0 ∧ s.stState = stState ∧ s.stFifo = stFifo ∧
    s.rssiLast = rssiLast ∧ s.lqiLast = lqiLast ∧ s.handlerReg = false ∧ s.irqPending = false ∧
    s.resKind = .none ∧ s.resVal = 0 ∧ s.trace = [] ∧ s.par = par

/-- The invariants of the run hold at reset, for all parameters and every draw, and the parameters of `State.reset` are well formed
(R161). That the host buffers are in canonical form rests on the model's choice that they list nothing at reset, and no request waits
there (assumptions 8, 23); what makes a layout well formed is assumption 2, and that the OPEN INIT_TABLE of `State.reset` is any table
R161 allows is assumption 1. -/
def Obligations.ResetMeetsInvariants : Prop :=
  (∀ par op stState stFifo rssiLast lqiLast,
    (State.resetWith par op stState stFifo rssiLast lqiLast).SequencerOk ∧
    (State.resetWith par op stState stFifo rssiLast lqiLast).BuffersOk ∧
    (State.resetWith par op stState stFifo rssiLast lqiLast).ScopeOk) ∧
  State.reset.par.wf = true

/-- R241: an idle block with no edge and no request makes no bus event: its step only uses up the packet-ready sample (assumption
12). -/
def Obligations.IdleStepOnlySamplesEdge : Prop :=
  ∀ s : State, s.seqBusy = false → s.irqPending = false → s.edgeNow = false → s.access = none → s.requests = [] →
    step s = .next s.pastEdge

/-- R173: at an idle point with no edge pending, the step takes the request at the port and runs the decoded instruction, with the
buffers the request brings. Its bytes and the port as a list are the model's choice (assumptions 5, 14). That the buffers are loaded
into State when the request is taken is the model's inference (assumption 13): R246 has their bytes read one by one during the
operation, which they are, from there. The used-up packet-ready sample is the model's form of the edge input (assumption 12). -/
def Obligations.StepRunsWaitingRequest : Prop :=
  ∀ (s : State) (r : Request) (rest : List Request) (i : Instr),
    s.seqBusy = false → s.irqPending = false → s.edgeNow = false → s.access = none → s.requests = r :: rest →
    decode s.par.layout .req r.bytes = .ok i [] →
    step s = exec i { s.pastEdge with
      requests := rest
      hdr := if requestCode i = some 0x8 then r.hdr else s.hdr
      pay := if requestCode i = some 0x8 then r.pay else s.pay
      dst := if requestCode i = some 0x9 then r.dst else s.dst }

/-- The model's own encoder port (assumption 4): at an idle point the step runs the decoded access, with the packet-ready sample used up
(assumption 12). -/
def Obligations.StepRunsPresentedAccess : Prop :=
  ∀ (s : State) (bytes : List Byte) (i : Instr),
    s.seqBusy = false → s.irqPending = false → s.edgeNow = false → s.access = some bytes →
    decode s.par.layout .hdr bytes = .ok i [] → step s = exec i { s.pastEdge with access := none }

/-- R175, R215 (1): while an operation runs, the step makes its next event, whatever is pending and whether an edge comes or not, but
for one case: the step in which an edge comes while none is pending sets the latch (R209) and nothing else. After it an edge is
pending, so the step that follows makes an event. That setting the latch is a step of its own is the model's choice (assumption 12). -/
def Obligations.StepResumesRunningOperation : Prop :=
  ∀ (s : State) (i : Instr), s.seqBusy = true → s.running = some i →
    (s.edgeNow = false ∨ s.irqPending = true → step s = exec i s.pastEdge) ∧
    (s.edgeNow = true → s.irqPending = false → step s = .next { s.pastEdge with irqPending := true })

/-- The next step after `withFetchWord` runs exactly the instruction of the table word, on the port the word stands for (assumption 7),
in the reference layout, in which the opcode table is written. -/
def Obligations.FetchWordRunsDecodedInstruction : Prop :=
  ∀ (s : State) (nbits w : Nat) (i : Instr), s.par.layout = Layout.reference → decodeTableWord nbits w = some i →
    step (s.withFetchWord nbits w) =
      exec i { s with seqBusy := false, seqStep := 0, running := none, todo := [], irqPending := false, access := none }

/-! ## The interrupt bridge -/

/-- R211, R212, R214, R215 (2): a pending edge is serviced at an idle point before any waiting request; with no handler the service is
one flush sequence in a scope of its own, it writes no result register, and the sequencer is idle again. The service starts in the
first step, or in the second where the first one sets the latch, and an edge that comes by then is the one it serves; twelve more
steps end it, and one more where a later edge sets the latch again: that edge, or any number of them, is pending after it. That OP and
STEP stay and that setting the latch is a step of its own are the model's choice (assumptions 15, 12). The number of steps rests on
the start of a service being one step, the model's reading of R2 (assumption 11). -/
def Obligations.EdgeWithoutHandlerFlushesOnce : Prop :=
  ∀ (s : State) (n : Nat), s.seqBusy = false → (s.irqPending || s.edgeNow) = true → s.handlerReg = false →
    let start := if s.irqPending then 1 else 2
    let again := ((s.edges (start + n)).drop start).any id
    n = 12 + again.toNat →
    core.run (start + n) s = .next { s.afterScope (flushActs s.par.layout) 2 with
      irqPending := again, pktEdge := s.pktEdge.skip (start + n), running := none, todo := [], locals := Locals.empty }

/-- R211, R213, R214, R215 (2): with a handler the service is one `NOTIFY` event and no bus event. The service starts as with no handler;
two more steps end it, and one more where a later edge sets the latch again. That OP and STEP stay and that setting the latch is a step
of its own are the model's choice (assumptions 15, 12). The number of steps rests on the start of a service being one step, the model's
reading of R2 (assumption 11). -/
def Obligations.EdgeWithHandlerNotifiesOnce : Prop :=
  ∀ (s : State) (n : Nat), s.seqBusy = false → (s.irqPending || s.edgeNow) = true → s.handlerReg = true →
    let start := if s.irqPending then 1 else 2
    let again := ((s.edges (start + n)).drop start).any id
    n = 2 + again.toNat →
    core.run (start + n) s = .next { s with
      trace := s.trace ++ [.notify], irqPending := again, pktEdge := s.pktEdge.skip (start + n)
      running := none, todo := [], locals := Locals.empty }

/-- R209, R28: an edge sets IRQ_PENDING at any time, whether the sequencer is busy or idle, and changes nothing else; one that finds it
set changes nothing, so the step is that of a state in which no edge comes; a busy step keeps the one-deep latch and the requests at
the port (R173). The setting of the latch as a step of its own, and the port as a list: assumptions 12, 14. -/
def Obligations.BusyStepLatchesEdgeKeepsRequests : Prop :=
  (∀ s : State, s.edgeNow = true → s.irqPending = false → step s = .next { s.pastEdge with irqPending := true }) ∧
  (∀ (s : State) (later : List Bool), s.irqPending = true →
    step { s with pktEdge := { s.pktEdge with given := true :: later } } =
      step { s with pktEdge := { s.pktEdge with given := false :: later } }) ∧
  ∀ s t : State, s.seqBusy = true → step s = .next t →
    t.irqPending = (s.irqPending || s.edgeNow) ∧ t.pktEdge = s.pktEdge.advance ∧ t.requests = s.requests

/-! ## Accesses, each presented alone, in a chip-select scope of its own (assumption 4) -/

/-- R108: the header ENCODE(a, WR_SINGLE), then the byte `v`; the header's status byte is latched; nothing else changes. Presented
alone, in a scope of its own, with the status byte left in the local `s` (assumptions 4, 21). -/
def Obligations.SingleWriteAccess : Prop :=
  ∀ (s : State) (a v : Byte), s.seqBusy = false →
    Completes (.wrSingle a v) s ((s.afterScope (outs [encodeHeader s.par.layout a .wrSingle, v]) 0).accessed
      { Locals.empty with s := s.answerAt 0 })

/-- R109: the header ENCODE(a, RD_SINGLE), then one DUMMY byte; the header's status byte is latched and the byte received is returned.
That it stays in the local `v`, and the scope of its own, are the model's choice (assumptions 21, 4). -/
def Obligations.SingleReadAccess : Prop :=
  ∀ (s : State) (a : Byte), s.seqBusy = false →
    Completes (.rdSingle a) s ((s.afterScope (outs [encodeHeader s.par.layout a .rdSingle, s.par.layout.dummy]) 0).accessed
      { Locals.empty with s := s.answerAt 0, v := s.answerAt 1 })

/-- R113, R106: a status read of the baked address `a` is a single read of it, with header 0xC0 | a[5:0] in the reference layout; it
returns the byte of its data phase. That the byte stays in the local `v`, and the scope of its own, are the model's choice
(assumptions 21, 4). -/
def Obligations.StatusReadAccess : Prop :=
  ∀ (s : State) (a : Byte), s.seqBusy = false → isStatus s.par.layout a = true →
    Completes (.rdStatus a) s ((s.afterScope (outs [encodeHeader s.par.layout a .rdSingle, s.par.layout.dummy]) 0).accessed
      { Locals.empty with s := s.answerAt 0, v := s.answerAt 1 }) ∧
    (s.par.layout = Layout.reference → encodeHeader s.par.layout a .rdSingle = 0xC0#8 ||| (a &&& 0x3F#8))

/-- R110: the header ENCODE(a, WR_BURST), then the bytes of `t` in order; only the header's status byte is latched. Presented alone, in
a scope of its own (assumptions 4, 21). -/
def Obligations.BurstWriteAccess : Prop :=
  ∀ (s : State) (a : Byte) (t : List Byte), s.seqBusy = false →
    Completes (.wrBurst a t) s ((s.afterScope (outs (encodeHeader s.par.layout a .wrBurst :: t)) 0).accessed
      { Locals.empty with s := s.answerAt 0 })

/-- R111: the header ENCODE(a, RD_BURST), then `n` DUMMY bytes; the bytes received are returned, in order. That they stay in the local
`t`, and the scope of its own, are the model's choice (assumptions 21, 4). -/
def Obligations.BurstReadAccess : Prop :=
  ∀ (s : State) (a : Byte) (n : Nat), s.seqBusy = false →
    Completes (.rdBurst a n) s
      ((s.afterScope (outs (encodeHeader s.par.layout a .rdBurst :: List.replicate n s.par.layout.dummy)) 0).accessed
        { Locals.empty with s := s.answerAt 0, t := (s.miso.skip 1).upcoming Config.chipAnswer n })

/-- R112, R105, R65: every strobe is one header exchange of its own address, with no data phase; in the reference layout the headers are
those of R65. Presented alone, in a scope of its own (assumptions 4, 21). -/
def Obligations.StrobeAccesses : Prop :=
  ∀ s : State, s.seqBusy = false →
    let m := s.par.layout.addrMap
    let after := fun a => (s.afterScope (outs [encodeHeader s.par.layout a .strobe]) 0).accessed { Locals.empty with s := s.answerAt 0 }
    (Completes .sres s (after m.sres) ∧ Completes .sfstxon s (after m.sfstxon) ∧
      Completes .sxoff s (after m.sxoff) ∧ Completes .scal s (after m.scal) ∧
      Completes .srx s (after m.srx) ∧ Completes .stx s (after m.stx) ∧
      Completes .sidle s (after m.sidle) ∧ Completes .swor s (after m.swor) ∧
      Completes .spwd s (after m.spwd) ∧ Completes .sfrx s (after m.sfrx) ∧
      Completes .sftx s (after m.sftx) ∧ Completes .sworrst s (after m.sworrst) ∧
      Completes .snop s (after m.snop)) ∧
    (s.par.layout = Layout.reference → m.strobes.map (fun a => encodeHeader s.par.layout a .strobe) =
      [0x30, 0x31, 0x32, 0x33, 0x34, 0x35, 0x36, 0x38, 0x39, 0x3A, 0x3B, 0x3C, 0x3D])

/-- R9 makes an exchange legal only while CS = 1: in a state whose next event is an exchange and which has CS = 0, every instruction
stops with a fault of that name. That it is a fault is the model's choice (assumption 10). -/
def Obligations.AccessOutsideScopeFaults : Prop :=
  ∀ (i : Instr) (s : State) (o : Sent) (into : Bound) (rest : List Micro), s.seqBusy = true → s.cs = false →
    s.todo = .xfer o into :: rest → exec i s = .fault .xferNotSelected

/-! ## Lifecycle, configuration and queries -/

/-- R160, R116: INIT, once the chip is ready after any number of tests, writes the table in order, strobes SPWD and reports OK. -/
def Obligations.InitCompletesWhenReady : Prop :=
  ∀ (s : State) (n : Nat), s.seqBusy = false → (∀ k, k < n → s.notReadyAt k = true) → s.notReadyAt n = false →
    Completes .init s
      (((s.skipReady (n + 1)).afterScope (initActs s.par) (2 * s.par.initTable.length)).completed 0x1 .ok 0)

/-- R162, R116: ON, once the chip is ready after any number of tests, strobes SRX and reports OK; it does not wait for RX. -/
def Obligations.OnCompletesWhenReady : Prop :=
  ∀ (s : State) (n : Nat), s.seqBusy = false → (∀ k, k < n → s.notReadyAt k = true) → s.notReadyAt n = false →
    Completes .radioOn s
      (((s.skipReady (n + 1)).afterScope (outs [strobeByte s.par.layout s.par.layout.addrMap.srx]) 0).completed 0x2 .ok 0)

/-- R116, R21 in INIT and ON: taken, SEL, STEP, and one test that finds NOT_READY = 1, with no other bus event: the operation is on line
1 inside its scope after four events. That taking a request is one step and the write of STEP a step of its own, on which the number
of events rests, is the model's reading of R2 (assumption 11). -/
def Obligations.InitAndOnWaitWhileNotReady : Prop :=
  ∀ s : State, s.seqBusy = false → s.notReadyAt 0 = true →
    Goes .init 4 s ((s.skipReady 1).waitingAt .init 0x1 1 Locals.empty) ∧
    Goes .radioOn 4 s ((s.skipReady 1).waitingAt .radioOn 0x2 1 Locals.empty)

/-- R163, R117: OFF, when a poll reports RX after any number of polls that do not, strobes SIDLE and SPWD and reports OK. -/
def Obligations.OffCompletesInRX : Prop :=
  ∀ (s : State) (n : Nat), s.seqBusy = false → (∀ k, k < n → s.radioAt k ≠ .rx) → s.radioAt n = .rx →
    Completes .radioOff s
      ((s.afterScope (pollActs s.par.layout (n + 1) ++ offActs s.par.layout) (n + 2)).completed 0x3 .ok 0)

/-- R117, R21 in OFF: taken, SEL, STEP, and one poll that reports any other state, in four events: OFF is on line 1 after seven events.
That taking a request is one step and the write of STEP a step of its own, on which the number of events rests, is the model's reading
of R2 (assumption 11). -/
def Obligations.OffWaitsOutsideRX : Prop :=
  ∀ s : State, s.seqBusy = false → s.radioAt 0 ≠ .rx →
    Goes .radioOff 7 s (s.waitingAt .radioOff 0x3 1 Locals.empty).polled

/-- R164, R165, R166: one register write of the operand, unchanged, in a scope of its own; in the reference layout the headers are 0x0A,
0x3E and 0x09. -/
def Obligations.ConfigurationRequestsComplete : Prop :=
  ∀ (s : State) (v : Byte), s.seqBusy = false →
    let m := s.par.layout.addrMap
    (Completes (.setChannel v) s ((s.afterScope (writeActs s.par.layout m.channr v) 0).completed 0x4 .ok 0) ∧
      Completes (.setTxPower v) s ((s.afterScope (writeActs s.par.layout m.patable v) 0).completed 0x5 .ok 0) ∧
      Completes (.setAddress v) s ((s.afterScope (writeActs s.par.layout m.addr v) 0).completed 0x6 .ok 0)) ∧
    (s.par.layout = Layout.reference → writeActs s.par.layout m.channr v = outs [0x0A, v] ∧
      writeActs s.par.layout m.patable v = outs [0x3E, v] ∧ writeActs s.par.layout m.addr v = outs [0x09, v])

/-- R167: HANDLER_REG takes the operand; no bus event. -/
def Obligations.SetCallbackCompletes : Prop :=
  ∀ (s : State) (r : Bool), s.seqBusy = false →
    Completes (.setCallback r) s ({ s with handlerReg := r }.completed 0x7 .ok 0)

/-- R168: the raw RSSI byte is the result; the snapshot is not written; in the reference layout the bytes sent are 0xF4, 0x00. -/
def Obligations.GetRssiReturnsRawByte : Prop :=
  ∀ s : State, s.seqBusy = false →
    let acts := outs [encodeHeader s.par.layout (rssiS s.par.layout) .rdSingle, s.par.layout.dummy]
    Completes .getRssi s ((s.afterScope acts 0).completed 0xB .ok (s.answerAt 1).toNat) ∧
    (s.par.layout = Layout.reference → acts = outs [0xF4, 0x00])

/-- R169, R170, R171: the cached bytes and the constant 1, with no bus event. -/
def Obligations.CachedQueriesComplete : Prop :=
  ∀ s : State, s.seqBusy = false →
    Completes .getLastRssi s (s.completed 0xC .ok s.rssiLast.toNat) ∧
    Completes .getLastLqi s (s.completed 0xD .ok s.lqiLast.toNat) ∧
    Completes .isChannelClear s (s.completed 0xE .ok 1)

/-- R172, R204: a reserved code reports ILLEGAL with RES_VAL 0, no bus event. OP holds the code all the same, since taking any request
writes it (R173); that this outweighs R172's "no other register change" is the model's reading (assumption 25). -/
def Obligations.ReservedCodesReportIllegal : Prop :=
  ∀ s : State, s.seqBusy = false →
    Completes .reserved0 s (s.completed 0x0 .illegal 0) ∧ Completes .reservedF s (s.completed 0xF .illegal 0)

/-! ## Frames -/

/-- R140, R142: an accepted SEND, when a poll reports RX after any number of polls that do not, writes the length byte, the header
burst, the payload burst and the transmit strobe, and reports OK. -/
def Obligations.SendCompletes : Prop :=
  ∀ (s : State) (h p n : Nat), s.seqBusy = false → h + p ≤ s.par.maxLen.toNat →
    (∀ k, k < n → s.radioAt k ≠ .rx) → s.radioAt n = .rx →
    let acts := pollActs s.par.layout (n + 1) ++ frameActs s.par (s.hdrBytes h) (s.payBytes p)
    Completes (.send h p) s ((s.afterScope acts (exchanges acts - 1)).completed 0x8 .ok 0)

/-- R201, R141: SEND is rejected exactly on the exact sum, which cannot wrap, with no bus event and no register written but the result
registers, and OP, which taking the request writes (R173). -/
def Obligations.SendOversizeRejected : Prop :=
  ∀ (s : State) (h p : Nat), s.seqBusy = false →
    (s.par.maxLen.toNat < h + p ↔ Completes (.send h p) s (s.completed 0x8 .oversize 0))

/-- R117, R21 in SEND: taken, lines 0 to 2, and one poll that reports any state but RX: an accepted SEND is on line 3, inside its scope,
after ten events. That taking a request is one step and the write of STEP a step of its own, on which the number of events rests, is the
model's reading of R2 (assumption 11). -/
def Obligations.SendWaitsOutsideRX : Prop :=
  ∀ (s : State) (h p : Nat), s.seqBusy = false → h + p ≤ s.par.maxLen.toNat → s.radioAt 0 ≠ .rx →
    Goes (.send h p) 10 s (s.waitingAt (.send h p) 0x8 3 { Locals.empty with total := h + p }).polled

/-- R116, R117, R21: the waits of INIT, ON, OFF and SEND end with the first satisfied test, and the rest of the operation follows. -/
def Obligations.WaitingOperationsFinish : Prop :=
  ∀ s : State, s.LocalsOk →
    (s.Waiting .init → s.notReadyAt 0 = false → Completes .init s
      (((s.skipReady 1).afterActs (initActs s.par) (2 * s.par.initTable.length)).completed s.op .ok 0)) ∧
    (s.Waiting .radioOn → s.notReadyAt 0 = false → Completes .radioOn s
      (((s.skipReady 1).afterActs (outs [strobeByte s.par.layout s.par.layout.addrMap.srx]) 0).completed s.op .ok 0)) ∧
    (s.Waiting .radioOff → s.radioAt 0 = .rx → Completes .radioOff s
      ((s.afterActs (pollActs s.par.layout 1 ++ offActs s.par.layout) 2).completed s.op .ok 0)) ∧
    (∀ h p, s.Waiting (.send h p) → s.radioAt 0 = .rx →
      let acts := pollActs s.par.layout 1 ++ frameActs s.par (s.hdrBytes h) (s.payBytes p)
      Completes (.send h p) s ((s.afterActs acts (exchanges acts - 1)).completed s.op .ok 0))

/-- R143, R145, R146: a RECEIVE whose length prefix fits reads the payload, the two trailing bytes and one poll, stores the payload
and the snapshot, flushes once if the poll reports RX_OVERFLOW, and reports OK with the length. -/
def Obligations.ReceiveCompletes : Prop :=
  ∀ (s : State) (C : Nat), s.seqBusy = false → (s.answerAt 1).toNat ≤ C →
    let L := (s.answerAt 1).toNat
    let n := exchanges (receiveActs s.par L)
    let acts := s.receiveScript L
    Completes (.receive C) s (({ s with
      dst := memStore s.dst 0 (s.payloadAt L), rssiLast := s.answerAt (n - 3), lqiLast := s.answerAt (n - 2)
      }.afterScope acts (exchanges acts - 1)).completed 0x9 .ok L)

/-- R202, R144: a length prefix above the capacity gives exactly one flush sequence and OVERSIZE; no byte of dst is written and the
snapshot is unchanged; in the reference layout the bytes sent are 0xBF, 0x00, 0x36, 0x3A, 0x34. -/
def Obligations.ReceiveOversizeFlushesOnce : Prop :=
  ∀ (s : State) (C : Nat), s.seqBusy = false → C < (s.answerAt 1).toNat →
    let acts := lengthActs s.par.layout ++ flushActs s.par.layout
    Completes (.receive C) s ((s.afterScope acts 4).completed 0x9 .oversize 0) ∧
    (s.par.layout = Layout.reference → acts = outs [0xBF, 0x00, 0x36, 0x3A, 0x34])

/-- R43, R44: byte k of the payload is stored at dst[k] for k below L, and every other index of dst reads as before. -/
def Obligations.ReceiveStoresExactlyThePayload : Prop :=
  ∀ (s t : State) (C : Nat), s.seqBusy = false → s.BuffersOk → (s.answerAt 1).toNat ≤ C → Completes (.receive C) s t →
    (∀ k, k < (s.answerAt 1).toNat → memRead t.dst k = s.answerAt (3 + k)) ∧
    (∀ k, (s.answerAt 1).toNat ≤ k → memRead t.dst k = memRead s.dst k)

/-- R147: DISCARD is one flush sequence in a scope of its own, whatever the radio state. -/
def Obligations.DiscardFlushesUnconditionally : Prop :=
  ∀ s : State, s.seqBusy = false →
    Completes .discard s ((s.afterScope (flushActs s.par.layout) 2).completed 0xA .ok 0)

/-- R71, R142 for a chip that ends a burst only on release (BURST_END_PULSE = true, R248): the bytes a SEND that completes writes to the
FIFO are exactly the transmit frame. How such a chip reads a trace is `fifoWrites`, the model's own, in the reference layout
(assumption 19). -/
def Obligations.SendWritesTransmitFrame : Prop :=
  ∀ (s t : State) (h p : Nat), s.seqBusy = false → s.par.layout = Layout.reference → s.par.burstEndPulse = true →
    h + p ≤ s.par.maxLen.toNat → Completes (.send h p) s t →
    ∃ events, t.trace = s.trace ++ events ∧ fifoWrites .header events = transmitFrame (s.hdrBytes h) (s.payBytes p)

/-- The source's round-trip property (95_test_vectors.md E3 with 90_conflicts.md C1): a peer whose chip delivers the frame a SEND
wrote gets the header and payload bytes back, with reported length h + p. The sender's chip reads the trace as `fifoWrites` does, the
model's own (assumption 19). -/
def Obligations.SendThenReceiveRoundTrip : Prop :=
  ∀ (s t r : State) (h p C : Nat), s.seqBusy = false → s.par.layout = Layout.reference → s.par.burstEndPulse = true →
    h + p ≤ s.par.maxLen.toNat → Completes (.send h p) s t →
    ∃ events, t.trace = s.trace ++ events ∧
      (r.seqBusy = false → r.BuffersOk → r.par.layout.wf = true → h + p ≤ C →
        r.answerAt 1 :: r.payloadAt (h + p) = fifoWrites .header events →
        ∃ u, Completes (.receive C) r u ∧ u.resKind = .ok ∧ u.resVal = h + p ∧
          memBytes u.dst 0 (h + p) = s.hdrBytes h ++ s.payBytes p)

/-- R43: SEND depends on no host byte but hdr[0 .. h-1] and pay[0 .. p-1]. -/
def Obligations.SendReadsOnlyItsBytes : Prop :=
  ∀ (s t : State) (h p : Nat) (hdr pay : Memory), s.seqBusy = false →
    (∀ k, k < h → memRead hdr k = memRead s.hdr k) → (∀ k, k < p → memRead pay k = memRead s.pay k) →
    Completes (.send h p) s t →
    Completes (.send h p) { s with hdr := hdr, pay := pay } { t with hdr := hdr, pay := pay }

/-! ## Waits without bound -/

/-- R207, R117: while the chip does not report RX, a waiting SEND or OFF goes on polling for any number of steps, one SNOP in every four
events of the sequencer: it keeps the block and its scope, no result is written, no request is taken, and edges stay pending (R211).
The steps are events but for at most one, which sets the latch: that this is a step of its own is the model's choice (assumption 12),
and that a poll is four events is its reading of R2 (assumption 11). -/
def Obligations.HungPollKeepsPolling : Prop :=
  ∀ (n : Nat) (s : State) (i : Instr), (i = .radioOff ∨ ∃ h p, i = .send h p) → s.Waiting i →
    (∀ k, k < n → s.radioAt k ≠ .rx) →
    ∃ t, core.run n s = .next t ∧ t.OnWaitLine i ∧ t.op = s.op ∧
      t.trace = s.trace ++ play (pollActs s.par.layout ((s.events n + 3) / 4)) s.miso ∧
      t.resKind = s.resKind ∧ t.resVal = s.resVal ∧ t.requests = s.requests ∧
      t.irqPending = (s.irqPending || (s.edges n).any id)

/-- R207, R116: while NOT_READY stays 1, a waiting INIT or ON goes on testing for any number of steps, with no bus event and nothing
else changed, and edges stay pending (R211). The steps are tests but for at most one, which sets the latch: that this is a step of its
own is the model's choice (assumption 12), and that a test is one event is its reading of R2 (assumption 11). -/
def Obligations.HungReadyWaitKeepsWaiting : Prop :=
  ∀ (n : Nat) (s : State) (i : Instr), (i = .init ∨ i = .radioOn) → s.Waiting i →
    (∀ k, k < n → s.notReadyAt k = true) →
    core.run n s = .next { s.skipReady (s.events n) with
      irqPending := s.irqPending || (s.edges n).any id, pktEdge := s.pktEdge.skip n }

/-! ## Whole-machine rules -/

/-- R25, R26: no instruction but RECEIVE writes the signal-quality snapshot. -/
def Obligations.OnlyReceiveWritesSnapshot : Prop :=
  ∀ (i : Instr) (s t : State), s.Runs i → (∀ C, i ≠ .receive C) → exec i s = .next t →
    t.rssiLast = s.rssiLast ∧ t.lqiLast = s.lqiLast

/-- R27: no instruction but SET_CALLBACK writes HANDLER_REG, and no instruction writes IRQ_PENDING. -/
def Obligations.OnlySetCallbackWritesHandler : Prop :=
  ∀ (i : Instr) (s t : State), s.Runs i → exec i s = .next t →
    ((∀ r, i ≠ .setCallback r) → t.handlerReg = s.handlerReg) ∧ t.irqPending = s.irqPending

/-- R10, R43: no instruction writes a source buffer, and none but RECEIVE writes the destination buffer. -/
def Obligations.OnlyReceiveWritesHostBuffers : Prop :=
  ∀ (i : Instr) (s t : State), s.Runs i → exec i s = .next t →
    t.hdr = s.hdr ∧ t.pay = s.pay ∧ ((∀ C, i ≠ .receive C) → t.dst = s.dst)

/-- R174, R29: the result registers change only in the last line of a host request, with the chip released: once RES_KIND was written
RES_VAL and idle follow, once RES_VAL was written idle follows. An access leaves them alone. -/
def Obligations.ResultWrittenOnlyAtCompletion : Prop :=
  ∀ (i : Instr) (s t : State), s.Runs i → exec i s = .next t → (t.resKind ≠ s.resKind ∨ t.resVal ≠ s.resVal) →
    i.port = .req ∧ t.cs = false ∧ (t.todo = [.finish] ∨ ∃ val, t.todo = [.setVal val, .finish])

/-- R54: nothing is cached about the chip: a request taken by an idle sequencer goes the same way whatever status latch an earlier
operation left; only the latch itself may differ afterwards, where the request made no header exchange. -/
def Obligations.RequestIgnoresStaleLatch : Prop :=
  ∀ (i : Instr) (s t : State) (stState : BitVec 3) (stFifo : BitVec 4), i.port = .req → s.seqBusy = false →
    Completes i s t →
    ∃ stState' stFifo', Completes i { s with stState := stState, stFifo := stFifo } { t with stState := stState', stFifo := stFifo' }

/-- R35: no step changes a parameter. The parameters stand in State by the model's choice (assumption 1). -/
def Obligations.StepKeepsParameters : Prop :=
  ∀ s t : State, step s = .next t → t.par = s.par

/-- R2, R12, R50: a step adds at most one event to the trace, and nothing recorded is ever taken back or changed. -/
def Obligations.StepOnlyExtendsTrace : Prop :=
  ∀ s t : State, step s = .next t → t.trace = s.trace ∨ ∃ e, t.trace = s.trace ++ [e]

/-- R175, R207: a host request taken by an idle sequencer completes, or from some event on stays for ever on its one waiting line; and
edges cannot hold it up: whatever edges come, an operation that completes by its own events completes under `step` too, and leaves what
it leaves without them, with the edges pending. -/
def Obligations.RequestEndsOrWaits : Prop :=
  (∀ (i : Instr) (s : State), i.port = .req → s.seqBusy = false →
    (∃ t, Completes i s t) ∨ ∃ m, ∀ n, m ≤ n → ∃ t, Goes i n s t ∧ t.OnWaitLine i) ∧
  ∀ (i : Instr) (s t : State), s.seqBusy = true → s.running = some i → Completes i s t →
    ∃ n, core.run n s = .next { t with
      irqPending := s.irqPending || (s.edges n).any id, pktEdge := s.pktEdge.skip n }

/-- The sequencer is idle, or it is at the head of a line of the operation in OP or has events of that line left, or it is in the
interrupt service (R21, R22, R174, R175, R211): every step keeps this. What the locals hold in the waits is part of it (R36, R141).
Which positions lie between two lines, what STEP is in a service and in INIT's loop, is the model's choice (assumptions 11, 15, 26). -/
def Obligations.StepKeepsSequencerInvariant : Prop :=
  ∀ s t : State, s.SequencerOk → step s = .next t → t.SequencerOk

/-- Every step keeps every host buffer in canonical form, which is the model's own representation of the buffers of R40 and R43
(assumption 8). -/
def Obligations.StepKeepsBuffersCanonical : Prop :=
  ∀ s t : State, s.BuffersOk → step s = .next t → t.BuffersOk

/-- R9, R51: every step keeps the scope rules of the trace: no exchange outside a scope, no notification inside one, selects and
releases in turn. -/
def Obligations.StepKeepsScopeRules : Prop :=
  ∀ s t : State, s.SequencerOk → s.ScopeOk → step s = .next t → t.ScopeOk

/-- No step of the block stops: from a state of a run, with requests at the port that are encoded well-formed requests, the step answers
a next state. -/
def Obligations.StepAlwaysAnswersNext : Prop :=
  ∀ s : State, s.SequencerOk → s.par.layout.wf = true →
    (∀ bytes, s.access = some bytes → ∃ i, i.port = .hdr ∧ i.wf s.par.layout = true ∧ bytes = encode s.par.layout i) →
    (∀ r ∈ s.requests, ∃ i, i.port = .req ∧ i.wf s.par.layout = true ∧ r.bytes = encode s.par.layout i) → ∃ t, step s = .next t

/-! ## Host buffers and results -/

/-- R10: a byte written is read back and every other index is unchanged. The third clause, that the canonical form is kept, is about the
model's own representation (assumption 8). -/
def Obligations.BufferReadAfterWrite : Prop :=
  ∀ (m : Memory) (k j : Nat) (v : Byte), Memory.wf m = true →
    memRead (memWrite m k v) k = v ∧ (j ≠ k → memRead (memWrite m k v) j = memRead m j) ∧
    Memory.wf (memWrite m k v) = true

/-- R76, R203: in every state a software host reads OVERSIZE as ERR_OVERSIZE, a negative integer, which no valid result equals, and OK as
RES_VAL. -/
def Obligations.SoftwareHostSeesDistinctError : Prop :=
  ∀ s : State,
    (s.resKind = .oversize → s.softwareReturn = some s.par.errOversize ∧ s.par.errOversize < 0) ∧
    (s.resKind = .ok → s.softwareReturn = some (s.resVal : Int) ∧ s.softwareReturn ≠ some s.par.errOversize)
end

