-- ==== Sys2Proof/Laws/State.lean ====
section
/-! SUPPORT. Every field of the state after every update: one lemma for each pair, true by `rfl`. -/

namespace Sys2Proof.Machine

/-! ### `record` -/

@[simp] theorem State.record_cs (s : State) (e : Event) : (s.record e).cs = s.cs := rfl
@[simp] theorem State.record_seqBusy (s : State) (e : Event) : (s.record e).seqBusy = s.seqBusy := rfl
@[simp] theorem State.record_op (s : State) (e : Event) : (s.record e).op = s.op := rfl
@[simp] theorem State.record_seqStep (s : State) (e : Event) : (s.record e).seqStep = s.seqStep := rfl
@[simp] theorem State.record_stState (s : State) (e : Event) : (s.record e).stState = s.stState := rfl
@[simp] theorem State.record_stFifo (s : State) (e : Event) : (s.record e).stFifo = s.stFifo := rfl
@[simp] theorem State.record_rssiLast (s : State) (e : Event) : (s.record e).rssiLast = s.rssiLast := rfl
@[simp] theorem State.record_lqiLast (s : State) (e : Event) : (s.record e).lqiLast = s.lqiLast := rfl
@[simp] theorem State.record_handlerReg (s : State) (e : Event) : (s.record e).handlerReg = s.handlerReg := rfl
@[simp] theorem State.record_irqPending (s : State) (e : Event) : (s.record e).irqPending = s.irqPending := rfl
@[simp] theorem State.record_resKind (s : State) (e : Event) : (s.record e).resKind = s.resKind := rfl
@[simp] theorem State.record_resVal (s : State) (e : Event) : (s.record e).resVal = s.resVal := rfl
@[simp] theorem State.record_running (s : State) (e : Event) : (s.record e).running = s.running := rfl
@[simp] theorem State.record_todo (s : State) (e : Event) : (s.record e).todo = s.todo := rfl
@[simp] theorem State.record_locals (s : State) (e : Event) : (s.record e).locals = s.locals := rfl
@[simp] theorem State.record_miso (s : State) (e : Event) : (s.record e).miso = s.miso := rfl
@[simp] theorem State.record_notReady (s : State) (e : Event) : (s.record e).notReady = s.notReady := rfl
@[simp] theorem State.record_pktEdge (s : State) (e : Event) : (s.record e).pktEdge = s.pktEdge := rfl
@[simp] theorem State.record_requests (s : State) (e : Event) : (s.record e).requests = s.requests := rfl
@[simp] theorem State.record_access (s : State) (e : Event) : (s.record e).access = s.access := rfl
@[simp] theorem State.record_hdr (s : State) (e : Event) : (s.record e).hdr = s.hdr := rfl
@[simp] theorem State.record_pay (s : State) (e : Event) : (s.record e).pay = s.pay := rfl
@[simp] theorem State.record_dst (s : State) (e : Event) : (s.record e).dst = s.dst := rfl
@[simp] theorem State.record_trace (s : State) (e : Event) : (s.record e).trace = s.trace ++ [e] := rfl
@[simp] theorem State.record_par (s : State) (e : Event) : (s.record e).par = s.par := rfl

/-! ### `select` -/

@[simp] theorem State.select_cs (s : State) : (s.select).cs = true := rfl
@[simp] theorem State.select_seqBusy (s : State) : (s.select).seqBusy = s.seqBusy := rfl
@[simp] theorem State.select_op (s : State) : (s.select).op = s.op := rfl
@[simp] theorem State.select_seqStep (s : State) : (s.select).seqStep = s.seqStep := rfl
@[simp] theorem State.select_stState (s : State) : (s.select).stState = s.stState := rfl
@[simp] theorem State.select_stFifo (s : State) : (s.select).stFifo = s.stFifo := rfl
@[simp] theorem State.select_rssiLast (s : State) : (s.select).rssiLast = s.rssiLast := rfl
@[simp] theorem State.select_lqiLast (s : State) : (s.select).lqiLast = s.lqiLast := rfl
@[simp] theorem State.select_handlerReg (s : State) : (s.select).handlerReg = s.handlerReg := rfl
@[simp] theorem State.select_irqPending (s : State) : (s.select).irqPending = s.irqPending := rfl
@[simp] theorem State.select_resKind (s : State) : (s.select).resKind = s.resKind := rfl
@[simp] theorem State.select_resVal (s : State) : (s.select).resVal = s.resVal := rfl
@[simp] theorem State.select_running (s : State) : (s.select).running = s.running := rfl
@[simp] theorem State.select_todo (s : State) : (s.select).todo = s.todo := rfl
@[simp] theorem State.select_locals (s : State) : (s.select).locals = s.locals := rfl
@[simp] theorem State.select_miso (s : State) : (s.select).miso = s.miso := rfl
@[simp] theorem State.select_notReady (s : State) : (s.select).notReady = s.notReady := rfl
@[simp] theorem State.select_pktEdge (s : State) : (s.select).pktEdge = s.pktEdge := rfl
@[simp] theorem State.select_requests (s : State) : (s.select).requests = s.requests := rfl
@[simp] theorem State.select_access (s : State) : (s.select).access = s.access := rfl
@[simp] theorem State.select_hdr (s : State) : (s.select).hdr = s.hdr := rfl
@[simp] theorem State.select_pay (s : State) : (s.select).pay = s.pay := rfl
@[simp] theorem State.select_dst (s : State) : (s.select).dst = s.dst := rfl
@[simp] theorem State.select_trace (s : State) : (s.select).trace = s.trace ++ [.sel] := rfl
@[simp] theorem State.select_par (s : State) : (s.select).par = s.par := rfl

/-! ### `release` -/

@[simp] theorem State.release_cs (s : State) : (s.release).cs = false := rfl
@[simp] theorem State.release_seqBusy (s : State) : (s.release).seqBusy = s.seqBusy := rfl
@[simp] theorem State.release_op (s : State) : (s.release).op = s.op := rfl
@[simp] theorem State.release_seqStep (s : State) : (s.release).seqStep = s.seqStep := rfl
@[simp] theorem State.release_stState (s : State) : (s.release).stState = s.stState := rfl
@[simp] theorem State.release_stFifo (s : State) : (s.release).stFifo = s.stFifo := rfl
@[simp] theorem State.release_rssiLast (s : State) : (s.release).rssiLast = s.rssiLast := rfl
@[simp] theorem State.release_lqiLast (s : State) : (s.release).lqiLast = s.lqiLast := rfl
@[simp] theorem State.release_handlerReg (s : State) : (s.release).handlerReg = s.handlerReg := rfl
@[simp] theorem State.release_irqPending (s : State) : (s.release).irqPending = s.irqPending := rfl
@[simp] theorem State.release_resKind (s : State) : (s.release).resKind = s.resKind := rfl
@[simp] theorem State.release_resVal (s : State) : (s.release).resVal = s.resVal := rfl
@[simp] theorem State.release_running (s : State) : (s.release).running = s.running := rfl
@[simp] theorem State.release_todo (s : State) : (s.release).todo = s.todo := rfl
@[simp] theorem State.release_locals (s : State) : (s.release).locals = s.locals := rfl
@[simp] theorem State.release_miso (s : State) : (s.release).miso = s.miso := rfl
@[simp] theorem State.release_notReady (s : State) : (s.release).notReady = s.notReady := rfl
@[simp] theorem State.release_pktEdge (s : State) : (s.release).pktEdge = s.pktEdge := rfl
@[simp] theorem State.release_requests (s : State) : (s.release).requests = s.requests := rfl
@[simp] theorem State.release_access (s : State) : (s.release).access = s.access := rfl
@[simp] theorem State.release_hdr (s : State) : (s.release).hdr = s.hdr := rfl
@[simp] theorem State.release_pay (s : State) : (s.release).pay = s.pay := rfl
@[simp] theorem State.release_dst (s : State) : (s.release).dst = s.dst := rfl
@[simp] theorem State.release_trace (s : State) : (s.release).trace = s.trace ++ [.rel] := rfl
@[simp] theorem State.release_par (s : State) : (s.release).par = s.par := rfl

/-! ### `xfer` -/

@[simp] theorem State.xfer_cs (s : State) (o : Byte) (b : Bound) : (s.xfer o b).cs = s.cs := rfl
@[simp] theorem State.xfer_seqBusy (s : State) (o : Byte) (b : Bound) : (s.xfer o b).seqBusy = s.seqBusy := rfl
@[simp] theorem State.xfer_op (s : State) (o : Byte) (b : Bound) : (s.xfer o b).op = s.op := rfl
@[simp] theorem State.xfer_seqStep (s : State) (o : Byte) (b : Bound) : (s.xfer o b).seqStep = s.seqStep := rfl
@[simp] theorem State.xfer_stState (s : State) (o : Byte) (b : Bound) : (s.xfer o b).stState = s.stState := rfl
@[simp] theorem State.xfer_stFifo (s : State) (o : Byte) (b : Bound) : (s.xfer o b).stFifo = s.stFifo := rfl
@[simp] theorem State.xfer_rssiLast (s : State) (o : Byte) (b : Bound) : (s.xfer o b).rssiLast = s.rssiLast := rfl
@[simp] theorem State.xfer_lqiLast (s : State) (o : Byte) (b : Bound) : (s.xfer o b).lqiLast = s.lqiLast := rfl
@[simp] theorem State.xfer_handlerReg (s : State) (o : Byte) (b : Bound) : (s.xfer o b).handlerReg = s.handlerReg := rfl
@[simp] theorem State.xfer_irqPending (s : State) (o : Byte) (b : Bound) : (s.xfer o b).irqPending = s.irqPending := rfl
@[simp] theorem State.xfer_resKind (s : State) (o : Byte) (b : Bound) : (s.xfer o b).resKind = s.resKind := rfl
@[simp] theorem State.xfer_resVal (s : State) (o : Byte) (b : Bound) : (s.xfer o b).resVal = s.resVal := rfl
@[simp] theorem State.xfer_running (s : State) (o : Byte) (b : Bound) : (s.xfer o b).running = s.running := rfl
@[simp] theorem State.xfer_todo (s : State) (o : Byte) (b : Bound) : (s.xfer o b).todo = s.todo := rfl
@[simp] theorem State.xfer_locals (s : State) (o : Byte) (b : Bound) : (s.xfer o b).locals = s.locals.bind b s.answer := rfl
@[simp] theorem State.xfer_miso (s : State) (o : Byte) (b : Bound) : (s.xfer o b).miso = s.miso.advance := rfl
@[simp] theorem State.xfer_notReady (s : State) (o : Byte) (b : Bound) : (s.xfer o b).notReady = s.notReady := rfl
@[simp] theorem State.xfer_pktEdge (s : State) (o : Byte) (b : Bound) : (s.xfer o b).pktEdge = s.pktEdge := rfl
@[simp] theorem State.xfer_requests (s : State) (o : Byte) (b : Bound) : (s.xfer o b).requests = s.requests := rfl
@[simp] theorem State.xfer_access (s : State) (o : Byte) (b : Bound) : (s.xfer o b).access = s.access := rfl
@[simp] theorem State.xfer_hdr (s : State) (o : Byte) (b : Bound) : (s.xfer o b).hdr = s.hdr := rfl
@[simp] theorem State.xfer_pay (s : State) (o : Byte) (b : Bound) : (s.xfer o b).pay = s.pay := rfl
@[simp] theorem State.xfer_dst (s : State) (o : Byte) (b : Bound) : (s.xfer o b).dst = s.dst := rfl
@[simp] theorem State.xfer_trace (s : State) (o : Byte) (b : Bound) : (s.xfer o b).trace = s.trace ++ [.x o s.answer] := rfl
@[simp] theorem State.xfer_par (s : State) (o : Byte) (b : Bound) : (s.xfer o b).par = s.par := rfl

/-! ### `latchState` -/

@[simp] theorem State.latchState_cs (s : State) : (s.latchState).cs = s.cs := rfl
@[simp] theorem State.latchState_seqBusy (s : State) : (s.latchState).seqBusy = s.seqBusy := rfl
@[simp] theorem State.latchState_op (s : State) : (s.latchState).op = s.op := rfl
@[simp] theorem State.latchState_seqStep (s : State) : (s.latchState).seqStep = s.seqStep := rfl
@[simp] theorem State.latchState_stState (s : State) : (s.latchState).stState = stateField s.par.layout s.locals.s := rfl
@[simp] theorem State.latchState_stFifo (s : State) : (s.latchState).stFifo = s.stFifo := rfl
@[simp] theorem State.latchState_rssiLast (s : State) : (s.latchState).rssiLast = s.rssiLast := rfl
@[simp] theorem State.latchState_lqiLast (s : State) : (s.latchState).lqiLast = s.lqiLast := rfl
@[simp] theorem State.latchState_handlerReg (s : State) : (s.latchState).handlerReg = s.handlerReg := rfl
@[simp] theorem State.latchState_irqPending (s : State) : (s.latchState).irqPending = s.irqPending := rfl
@[simp] theorem State.latchState_resKind (s : State) : (s.latchState).resKind = s.resKind := rfl
@[simp] theorem State.latchState_resVal (s : State) : (s.latchState).resVal = s.resVal := rfl
@[simp] theorem State.latchState_running (s : State) : (s.latchState).running = s.running := rfl
@[simp] theorem State.latchState_todo (s : State) : (s.latchState).todo = s.todo := rfl
@[simp] theorem State.latchState_locals (s : State) : (s.latchState).locals = s.locals := rfl
@[simp] theorem State.latchState_miso (s : State) : (s.latchState).miso = s.miso := rfl
@[simp] theorem State.latchState_notReady (s : State) : (s.latchState).notReady = s.notReady := rfl
@[simp] theorem State.latchState_pktEdge (s : State) : (s.latchState).pktEdge = s.pktEdge := rfl
@[simp] theorem State.latchState_requests (s : State) : (s.latchState).requests = s.requests := rfl
@[simp] theorem State.latchState_access (s : State) : (s.latchState).access = s.access := rfl
@[simp] theorem State.latchState_hdr (s : State) : (s.latchState).hdr = s.hdr := rfl
@[simp] theorem State.latchState_pay (s : State) : (s.latchState).pay = s.pay := rfl
@[simp] theorem State.latchState_dst (s : State) : (s.latchState).dst = s.dst := rfl
@[simp] theorem State.latchState_trace (s : State) : (s.latchState).trace = s.trace := rfl
@[simp] theorem State.latchState_par (s : State) : (s.latchState).par = s.par := rfl

/-! ### `latchFifo` -/

@[simp] theorem State.latchFifo_cs (s : State) : (s.latchFifo).cs = s.cs := rfl
@[simp] theorem State.latchFifo_seqBusy (s : State) : (s.latchFifo).seqBusy = s.seqBusy := rfl
@[simp] theorem State.latchFifo_op (s : State) : (s.latchFifo).op = s.op := rfl
@[simp] theorem State.latchFifo_seqStep (s : State) : (s.latchFifo).seqStep = s.seqStep := rfl
@[simp] theorem State.latchFifo_stState (s : State) : (s.latchFifo).stState = s.stState := rfl
@[simp] theorem State.latchFifo_stFifo (s : State) : (s.latchFifo).stFifo = fifoField s.par.layout s.locals.s := rfl
@[simp] theorem State.latchFifo_rssiLast (s : State) : (s.latchFifo).rssiLast = s.rssiLast := rfl
@[simp] theorem State.latchFifo_lqiLast (s : State) : (s.latchFifo).lqiLast = s.lqiLast := rfl
@[simp] theorem State.latchFifo_handlerReg (s : State) : (s.latchFifo).handlerReg = s.handlerReg := rfl
@[simp] theorem State.latchFifo_irqPending (s : State) : (s.latchFifo).irqPending = s.irqPending := rfl
@[simp] theorem State.latchFifo_resKind (s : State) : (s.latchFifo).resKind = s.resKind := rfl
@[simp] theorem State.latchFifo_resVal (s : State) : (s.latchFifo).resVal = s.resVal := rfl
@[simp] theorem State.latchFifo_running (s : State) : (s.latchFifo).running = s.running := rfl
@[simp] theorem State.latchFifo_todo (s : State) : (s.latchFifo).todo = s.todo := rfl
@[simp] theorem State.latchFifo_locals (s : State) : (s.latchFifo).locals = s.locals := rfl
@[simp] theorem State.latchFifo_miso (s : State) : (s.latchFifo).miso = s.miso := rfl
@[simp] theorem State.latchFifo_notReady (s : State) : (s.latchFifo).notReady = s.notReady := rfl
@[simp] theorem State.latchFifo_pktEdge (s : State) : (s.latchFifo).pktEdge = s.pktEdge := rfl
@[simp] theorem State.latchFifo_requests (s : State) : (s.latchFifo).requests = s.requests := rfl
@[simp] theorem State.latchFifo_access (s : State) : (s.latchFifo).access = s.access := rfl
@[simp] theorem State.latchFifo_hdr (s : State) : (s.latchFifo).hdr = s.hdr := rfl
@[simp] theorem State.latchFifo_pay (s : State) : (s.latchFifo).pay = s.pay := rfl
@[simp] theorem State.latchFifo_dst (s : State) : (s.latchFifo).dst = s.dst := rfl
@[simp] theorem State.latchFifo_trace (s : State) : (s.latchFifo).trace = s.trace := rfl
@[simp] theorem State.latchFifo_par (s : State) : (s.latchFifo).par = s.par := rfl

/-! ### `setKind` -/

@[simp] theorem State.setKind_cs (s : State) (k : ResKind) : (s.setKind k).cs = s.cs := rfl
@[simp] theorem State.setKind_seqBusy (s : State) (k : ResKind) : (s.setKind k).seqBusy = s.seqBusy := rfl
@[simp] theorem State.setKind_op (s : State) (k : ResKind) : (s.setKind k).op = s.op := rfl
@[simp] theorem State.setKind_seqStep (s : State) (k : ResKind) : (s.setKind k).seqStep = s.seqStep := rfl
@[simp] theorem State.setKind_stState (s : State) (k : ResKind) : (s.setKind k).stState = s.stState := rfl
@[simp] theorem State.setKind_stFifo (s : State) (k : ResKind) : (s.setKind k).stFifo = s.stFifo := rfl
@[simp] theorem State.setKind_rssiLast (s : State) (k : ResKind) : (s.setKind k).rssiLast = s.rssiLast := rfl
@[simp] theorem State.setKind_lqiLast (s : State) (k : ResKind) : (s.setKind k).lqiLast = s.lqiLast := rfl
@[simp] theorem State.setKind_handlerReg (s : State) (k : ResKind) : (s.setKind k).handlerReg = s.handlerReg := rfl
@[simp] theorem State.setKind_irqPending (s : State) (k : ResKind) : (s.setKind k).irqPending = s.irqPending := rfl
@[simp] theorem State.setKind_resKind (s : State) (k : ResKind) : (s.setKind k).resKind = k := rfl
@[simp] theorem State.setKind_resVal (s : State) (k : ResKind) : (s.setKind k).resVal = s.resVal := rfl
@[simp] theorem State.setKind_running (s : State) (k : ResKind) : (s.setKind k).running = s.running := rfl
@[simp] theorem State.setKind_todo (s : State) (k : ResKind) : (s.setKind k).todo = s.todo := rfl
@[simp] theorem State.setKind_locals (s : State) (k : ResKind) : (s.setKind k).locals = s.locals := rfl
@[simp] theorem State.setKind_miso (s : State) (k : ResKind) : (s.setKind k).miso = s.miso := rfl
@[simp] theorem State.setKind_notReady (s : State) (k : ResKind) : (s.setKind k).notReady = s.notReady := rfl
@[simp] theorem State.setKind_pktEdge (s : State) (k : ResKind) : (s.setKind k).pktEdge = s.pktEdge := rfl
@[simp] theorem State.setKind_requests (s : State) (k : ResKind) : (s.setKind k).requests = s.requests := rfl
@[simp] theorem State.setKind_access (s : State) (k : ResKind) : (s.setKind k).access = s.access := rfl
@[simp] theorem State.setKind_hdr (s : State) (k : ResKind) : (s.setKind k).hdr = s.hdr := rfl
@[simp] theorem State.setKind_pay (s : State) (k : ResKind) : (s.setKind k).pay = s.pay := rfl
@[simp] theorem State.setKind_dst (s : State) (k : ResKind) : (s.setKind k).dst = s.dst := rfl
@[simp] theorem State.setKind_trace (s : State) (k : ResKind) : (s.setKind k).trace = s.trace := rfl
@[simp] theorem State.setKind_par (s : State) (k : ResKind) : (s.setKind k).par = s.par := rfl

/-! ### `setVal` -/

@[simp] theorem State.setVal_cs (s : State) (v : Nat) : (s.setVal v).cs = s.cs := rfl
@[simp] theorem State.setVal_seqBusy (s : State) (v : Nat) : (s.setVal v).seqBusy = s.seqBusy := rfl
@[simp] theorem State.setVal_op (s : State) (v : Nat) : (s.setVal v).op = s.op := rfl
@[simp] theorem State.setVal_seqStep (s : State) (v : Nat) : (s.setVal v).seqStep = s.seqStep := rfl
@[simp] theorem State.setVal_stState (s : State) (v : Nat) : (s.setVal v).stState = s.stState := rfl
@[simp] theorem State.setVal_stFifo (s : State) (v : Nat) : (s.setVal v).stFifo = s.stFifo := rfl
@[simp] theorem State.setVal_rssiLast (s : State) (v : Nat) : (s.setVal v).rssiLast = s.rssiLast := rfl
@[simp] theorem State.setVal_lqiLast (s : State) (v : Nat) : (s.setVal v).lqiLast = s.lqiLast := rfl
@[simp] theorem State.setVal_handlerReg (s : State) (v : Nat) : (s.setVal v).handlerReg = s.handlerReg := rfl
@[simp] theorem State.setVal_irqPending (s : State) (v : Nat) : (s.setVal v).irqPending = s.irqPending := rfl
@[simp] theorem State.setVal_resKind (s : State) (v : Nat) : (s.setVal v).resKind = s.resKind := rfl
@[simp] theorem State.setVal_resVal (s : State) (v : Nat) : (s.setVal v).resVal = v % 2 ^ s.par.layout.lenW := rfl
@[simp] theorem State.setVal_running (s : State) (v : Nat) : (s.setVal v).running = s.running := rfl
@[simp] theorem State.setVal_todo (s : State) (v : Nat) : (s.setVal v).todo = s.todo := rfl
@[simp] theorem State.setVal_locals (s : State) (v : Nat) : (s.setVal v).locals = s.locals := rfl
@[simp] theorem State.setVal_miso (s : State) (v : Nat) : (s.setVal v).miso = s.miso := rfl
@[simp] theorem State.setVal_notReady (s : State) (v : Nat) : (s.setVal v).notReady = s.notReady := rfl
@[simp] theorem State.setVal_pktEdge (s : State) (v : Nat) : (s.setVal v).pktEdge = s.pktEdge := rfl
@[simp] theorem State.setVal_requests (s : State) (v : Nat) : (s.setVal v).requests = s.requests := rfl
@[simp] theorem State.setVal_access (s : State) (v : Nat) : (s.setVal v).access = s.access := rfl
@[simp] theorem State.setVal_hdr (s : State) (v : Nat) : (s.setVal v).hdr = s.hdr := rfl
@[simp] theorem State.setVal_pay (s : State) (v : Nat) : (s.setVal v).pay = s.pay := rfl
@[simp] theorem State.setVal_dst (s : State) (v : Nat) : (s.setVal v).dst = s.dst := rfl
@[simp] theorem State.setVal_trace (s : State) (v : Nat) : (s.setVal v).trace = s.trace := rfl
@[simp] theorem State.setVal_par (s : State) (v : Nat) : (s.setVal v).par = s.par := rfl

/-! ### `goto` -/

@[simp] theorem State.goto_cs (s : State) (k : Nat) : (s.goto k).cs = s.cs := rfl
@[simp] theorem State.goto_seqBusy (s : State) (k : Nat) : (s.goto k).seqBusy = s.seqBusy := rfl
@[simp] theorem State.goto_op (s : State) (k : Nat) : (s.goto k).op = s.op := rfl
@[simp] theorem State.goto_seqStep (s : State) (k : Nat) : (s.goto k).seqStep = k := rfl
@[simp] theorem State.goto_stState (s : State) (k : Nat) : (s.goto k).stState = s.stState := rfl
@[simp] theorem State.goto_stFifo (s : State) (k : Nat) : (s.goto k).stFifo = s.stFifo := rfl
@[simp] theorem State.goto_rssiLast (s : State) (k : Nat) : (s.goto k).rssiLast = s.rssiLast := rfl
@[simp] theorem State.goto_lqiLast (s : State) (k : Nat) : (s.goto k).lqiLast = s.lqiLast := rfl
@[simp] theorem State.goto_handlerReg (s : State) (k : Nat) : (s.goto k).handlerReg = s.handlerReg := rfl
@[simp] theorem State.goto_irqPending (s : State) (k : Nat) : (s.goto k).irqPending = s.irqPending := rfl
@[simp] theorem State.goto_resKind (s : State) (k : Nat) : (s.goto k).resKind = s.resKind := rfl
@[simp] theorem State.goto_resVal (s : State) (k : Nat) : (s.goto k).resVal = s.resVal := rfl
@[simp] theorem State.goto_running (s : State) (k : Nat) : (s.goto k).running = s.running := rfl
@[simp] theorem State.goto_todo (s : State) (k : Nat) : (s.goto k).todo = s.todo := rfl
@[simp] theorem State.goto_locals (s : State) (k : Nat) : (s.goto k).locals = s.locals := rfl
@[simp] theorem State.goto_miso (s : State) (k : Nat) : (s.goto k).miso = s.miso := rfl
@[simp] theorem State.goto_notReady (s : State) (k : Nat) : (s.goto k).notReady = s.notReady := rfl
@[simp] theorem State.goto_pktEdge (s : State) (k : Nat) : (s.goto k).pktEdge = s.pktEdge := rfl
@[simp] theorem State.goto_requests (s : State) (k : Nat) : (s.goto k).requests = s.requests := rfl
@[simp] theorem State.goto_access (s : State) (k : Nat) : (s.goto k).access = s.access := rfl
@[simp] theorem State.goto_hdr (s : State) (k : Nat) : (s.goto k).hdr = s.hdr := rfl
@[simp] theorem State.goto_pay (s : State) (k : Nat) : (s.goto k).pay = s.pay := rfl
@[simp] theorem State.goto_dst (s : State) (k : Nat) : (s.goto k).dst = s.dst := rfl
@[simp] theorem State.goto_trace (s : State) (k : Nat) : (s.goto k).trace = s.trace := rfl
@[simp] theorem State.goto_par (s : State) (k : Nat) : (s.goto k).par = s.par := rfl

/-! ### `take` -/

@[simp] theorem State.take_cs (s : State) (i : Instr) (c : BitVec 4) : (s.take i c).cs = s.cs := rfl
@[simp] theorem State.take_seqBusy (s : State) (i : Instr) (c : BitVec 4) : (s.take i c).seqBusy = true := rfl
@[simp] theorem State.take_op (s : State) (i : Instr) (c : BitVec 4) : (s.take i c).op = c := rfl
@[simp] theorem State.take_seqStep (s : State) (i : Instr) (c : BitVec 4) : (s.take i c).seqStep = 0 := rfl
@[simp] theorem State.take_stState (s : State) (i : Instr) (c : BitVec 4) : (s.take i c).stState = s.stState := rfl
@[simp] theorem State.take_stFifo (s : State) (i : Instr) (c : BitVec 4) : (s.take i c).stFifo = s.stFifo := rfl
@[simp] theorem State.take_rssiLast (s : State) (i : Instr) (c : BitVec 4) : (s.take i c).rssiLast = s.rssiLast := rfl
@[simp] theorem State.take_lqiLast (s : State) (i : Instr) (c : BitVec 4) : (s.take i c).lqiLast = s.lqiLast := rfl
@[simp] theorem State.take_handlerReg (s : State) (i : Instr) (c : BitVec 4) : (s.take i c).handlerReg = s.handlerReg := rfl
@[simp] theorem State.take_irqPending (s : State) (i : Instr) (c : BitVec 4) : (s.take i c).irqPending = s.irqPending := rfl
@[simp] theorem State.take_resKind (s : State) (i : Instr) (c : BitVec 4) : (s.take i c).resKind = s.resKind := rfl
@[simp] theorem State.take_resVal (s : State) (i : Instr) (c : BitVec 4) : (s.take i c).resVal = s.resVal := rfl
@[simp] theorem State.take_running (s : State) (i : Instr) (c : BitVec 4) : (s.take i c).running = some i := rfl
@[simp] theorem State.take_todo (s : State) (i : Instr) (c : BitVec 4) : (s.take i c).todo = [] := rfl
@[simp] theorem State.take_locals (s : State) (i : Instr) (c : BitVec 4) : (s.take i c).locals = Locals.empty := rfl
@[simp] theorem State.take_miso (s : State) (i : Instr) (c : BitVec 4) : (s.take i c).miso = s.miso := rfl
@[simp] theorem State.take_notReady (s : State) (i : Instr) (c : BitVec 4) : (s.take i c).notReady = s.notReady := rfl
@[simp] theorem State.take_pktEdge (s : State) (i : Instr) (c : BitVec 4) : (s.take i c).pktEdge = s.pktEdge := rfl
@[simp] theorem State.take_requests (s : State) (i : Instr) (c : BitVec 4) : (s.take i c).requests = s.requests := rfl
@[simp] theorem State.take_access (s : State) (i : Instr) (c : BitVec 4) : (s.take i c).access = s.access := rfl
@[simp] theorem State.take_hdr (s : State) (i : Instr) (c : BitVec 4) : (s.take i c).hdr = s.hdr := rfl
@[simp] theorem State.take_pay (s : State) (i : Instr) (c : BitVec 4) : (s.take i c).pay = s.pay := rfl
@[simp] theorem State.take_dst (s : State) (i : Instr) (c : BitVec 4) : (s.take i c).dst = s.dst := rfl
@[simp] theorem State.take_trace (s : State) (i : Instr) (c : BitVec 4) : (s.take i c).trace = s.trace := rfl
@[simp] theorem State.take_par (s : State) (i : Instr) (c : BitVec 4) : (s.take i c).par = s.par := rfl

/-! ### `takeAccess` -/

@[simp] theorem State.takeAccess_cs (s : State) (i : Instr) : (s.takeAccess i).cs = s.cs := rfl
@[simp] theorem State.takeAccess_seqBusy (s : State) (i : Instr) : (s.takeAccess i).seqBusy = true := rfl
@[simp] theorem State.takeAccess_op (s : State) (i : Instr) : (s.takeAccess i).op = s.op := rfl
@[simp] theorem State.takeAccess_seqStep (s : State) (i : Instr) : (s.takeAccess i).seqStep = 0 := rfl
@[simp] theorem State.takeAccess_stState (s : State) (i : Instr) : (s.takeAccess i).stState = s.stState := rfl
@[simp] theorem State.takeAccess_stFifo (s : State) (i : Instr) : (s.takeAccess i).stFifo = s.stFifo := rfl
@[simp] theorem State.takeAccess_rssiLast (s : State) (i : Instr) : (s.takeAccess i).rssiLast = s.rssiLast := rfl
@[simp] theorem State.takeAccess_lqiLast (s : State) (i : Instr) : (s.takeAccess i).lqiLast = s.lqiLast := rfl
@[simp] theorem State.takeAccess_handlerReg (s : State) (i : Instr) : (s.takeAccess i).handlerReg = s.handlerReg := rfl
@[simp] theorem State.takeAccess_irqPending (s : State) (i : Instr) : (s.takeAccess i).irqPending = s.irqPending := rfl
@[simp] theorem State.takeAccess_resKind (s : State) (i : Instr) : (s.takeAccess i).resKind = s.resKind := rfl
@[simp] theorem State.takeAccess_resVal (s : State) (i : Instr) : (s.takeAccess i).resVal = s.resVal := rfl
@[simp] theorem State.takeAccess_running (s : State) (i : Instr) : (s.takeAccess i).running = some i := rfl
@[simp] theorem State.takeAccess_todo (s : State) (i : Instr) : (s.takeAccess i).todo = [] := rfl
@[simp] theorem State.takeAccess_locals (s : State) (i : Instr) : (s.takeAccess i).locals = Locals.empty := rfl
@[simp] theorem State.takeAccess_miso (s : State) (i : Instr) : (s.takeAccess i).miso = s.miso := rfl
@[simp] theorem State.takeAccess_notReady (s : State) (i : Instr) : (s.takeAccess i).notReady = s.notReady := rfl
@[simp] theorem State.takeAccess_pktEdge (s : State) (i : Instr) : (s.takeAccess i).pktEdge = s.pktEdge := rfl
@[simp] theorem State.takeAccess_requests (s : State) (i : Instr) : (s.takeAccess i).requests = s.requests := rfl
@[simp] theorem State.takeAccess_access (s : State) (i : Instr) : (s.takeAccess i).access = s.access := rfl
@[simp] theorem State.takeAccess_hdr (s : State) (i : Instr) : (s.takeAccess i).hdr = s.hdr := rfl
@[simp] theorem State.takeAccess_pay (s : State) (i : Instr) : (s.takeAccess i).pay = s.pay := rfl
@[simp] theorem State.takeAccess_dst (s : State) (i : Instr) : (s.takeAccess i).dst = s.dst := rfl
@[simp] theorem State.takeAccess_trace (s : State) (i : Instr) : (s.takeAccess i).trace = s.trace := rfl
@[simp] theorem State.takeAccess_par (s : State) (i : Instr) : (s.takeAccess i).par = s.par := rfl

/-! ### `goIdle` -/

@[simp] theorem State.goIdle_cs (s : State) : (s.goIdle).cs = s.cs := rfl
@[simp] theorem State.goIdle_seqBusy (s : State) : (s.goIdle).seqBusy = false := rfl
@[simp] theorem State.goIdle_op (s : State) : (s.goIdle).op = s.op := rfl
@[simp] theorem State.goIdle_seqStep (s : State) : (s.goIdle).seqStep = 0 := rfl
@[simp] theorem State.goIdle_stState (s : State) : (s.goIdle).stState = s.stState := rfl
@[simp] theorem State.goIdle_stFifo (s : State) : (s.goIdle).stFifo = s.stFifo := rfl
@[simp] theorem State.goIdle_rssiLast (s : State) : (s.goIdle).rssiLast = s.rssiLast := rfl
@[simp] theorem State.goIdle_lqiLast (s : State) : (s.goIdle).lqiLast = s.lqiLast := rfl
@[simp] theorem State.goIdle_handlerReg (s : State) : (s.goIdle).handlerReg = s.handlerReg := rfl
@[simp] theorem State.goIdle_irqPending (s : State) : (s.goIdle).irqPending = s.irqPending := rfl
@[simp] theorem State.goIdle_resKind (s : State) : (s.goIdle).resKind = s.resKind := rfl
@[simp] theorem State.goIdle_resVal (s : State) : (s.goIdle).resVal = s.resVal := rfl
@[simp] theorem State.goIdle_running (s : State) : (s.goIdle).running = none := rfl
@[simp] theorem State.goIdle_todo (s : State) : (s.goIdle).todo = s.todo := rfl
@[simp] theorem State.goIdle_locals (s : State) : (s.goIdle).locals = s.locals := rfl
@[simp] theorem State.goIdle_miso (s : State) : (s.goIdle).miso = s.miso := rfl
@[simp] theorem State.goIdle_notReady (s : State) : (s.goIdle).notReady = s.notReady := rfl
@[simp] theorem State.goIdle_pktEdge (s : State) : (s.goIdle).pktEdge = s.pktEdge := rfl
@[simp] theorem State.goIdle_requests (s : State) : (s.goIdle).requests = s.requests := rfl
@[simp] theorem State.goIdle_access (s : State) : (s.goIdle).access = s.access := rfl
@[simp] theorem State.goIdle_hdr (s : State) : (s.goIdle).hdr = s.hdr := rfl
@[simp] theorem State.goIdle_pay (s : State) : (s.goIdle).pay = s.pay := rfl
@[simp] theorem State.goIdle_dst (s : State) : (s.goIdle).dst = s.dst := rfl
@[simp] theorem State.goIdle_trace (s : State) : (s.goIdle).trace = s.trace := rfl
@[simp] theorem State.goIdle_par (s : State) : (s.goIdle).par = s.par := rfl

/-! ### `discardLocals` -/

@[simp] theorem State.discardLocals_cs (s : State) : (s.discardLocals).cs = s.cs := rfl
@[simp] theorem State.discardLocals_seqBusy (s : State) : (s.discardLocals).seqBusy = s.seqBusy := rfl
@[simp] theorem State.discardLocals_op (s : State) : (s.discardLocals).op = s.op := rfl
@[simp] theorem State.discardLocals_seqStep (s : State) : (s.discardLocals).seqStep = s.seqStep := rfl
@[simp] theorem State.discardLocals_stState (s : State) : (s.discardLocals).stState = s.stState := rfl
@[simp] theorem State.discardLocals_stFifo (s : State) : (s.discardLocals).stFifo = s.stFifo := rfl
@[simp] theorem State.discardLocals_rssiLast (s : State) : (s.discardLocals).rssiLast = s.rssiLast := rfl
@[simp] theorem State.discardLocals_lqiLast (s : State) : (s.discardLocals).lqiLast = s.lqiLast := rfl
@[simp] theorem State.discardLocals_handlerReg (s : State) : (s.discardLocals).handlerReg = s.handlerReg := rfl
@[simp] theorem State.discardLocals_irqPending (s : State) : (s.discardLocals).irqPending = s.irqPending := rfl
@[simp] theorem State.discardLocals_resKind (s : State) : (s.discardLocals).resKind = s.resKind := rfl
@[simp] theorem State.discardLocals_resVal (s : State) : (s.discardLocals).resVal = s.resVal := rfl
@[simp] theorem State.discardLocals_running (s : State) : (s.discardLocals).running = s.running := rfl
@[simp] theorem State.discardLocals_todo (s : State) : (s.discardLocals).todo = s.todo := rfl
@[simp] theorem State.discardLocals_locals (s : State) : (s.discardLocals).locals = Locals.empty := rfl
@[simp] theorem State.discardLocals_miso (s : State) : (s.discardLocals).miso = s.miso := rfl
@[simp] theorem State.discardLocals_notReady (s : State) : (s.discardLocals).notReady = s.notReady := rfl
@[simp] theorem State.discardLocals_pktEdge (s : State) : (s.discardLocals).pktEdge = s.pktEdge := rfl
@[simp] theorem State.discardLocals_requests (s : State) : (s.discardLocals).requests = s.requests := rfl
@[simp] theorem State.discardLocals_access (s : State) : (s.discardLocals).access = s.access := rfl
@[simp] theorem State.discardLocals_hdr (s : State) : (s.discardLocals).hdr = s.hdr := rfl
@[simp] theorem State.discardLocals_pay (s : State) : (s.discardLocals).pay = s.pay := rfl
@[simp] theorem State.discardLocals_dst (s : State) : (s.discardLocals).dst = s.dst := rfl
@[simp] theorem State.discardLocals_trace (s : State) : (s.discardLocals).trace = s.trace := rfl
@[simp] theorem State.discardLocals_par (s : State) : (s.discardLocals).par = s.par := rfl

/-! ### `setTodo` -/

@[simp] theorem State.setTodo_cs (s : State) (r : List Micro) : (s.setTodo r).cs = s.cs := rfl
@[simp] theorem State.setTodo_seqBusy (s : State) (r : List Micro) : (s.setTodo r).seqBusy = s.seqBusy := rfl
@[simp] theorem State.setTodo_op (s : State) (r : List Micro) : (s.setTodo r).op = s.op := rfl
@[simp] theorem State.setTodo_seqStep (s : State) (r : List Micro) : (s.setTodo r).seqStep = s.seqStep := rfl
@[simp] theorem State.setTodo_stState (s : State) (r : List Micro) : (s.setTodo r).stState = s.stState := rfl
@[simp] theorem State.setTodo_stFifo (s : State) (r : List Micro) : (s.setTodo r).stFifo = s.stFifo := rfl
@[simp] theorem State.setTodo_rssiLast (s : State) (r : List Micro) : (s.setTodo r).rssiLast = s.rssiLast := rfl
@[simp] theorem State.setTodo_lqiLast (s : State) (r : List Micro) : (s.setTodo r).lqiLast = s.lqiLast := rfl
@[simp] theorem State.setTodo_handlerReg (s : State) (r : List Micro) : (s.setTodo r).handlerReg = s.handlerReg := rfl
@[simp] theorem State.setTodo_irqPending (s : State) (r : List Micro) : (s.setTodo r).irqPending = s.irqPending := rfl
@[simp] theorem State.setTodo_resKind (s : State) (r : List Micro) : (s.setTodo r).resKind = s.resKind := rfl
@[simp] theorem State.setTodo_resVal (s : State) (r : List Micro) : (s.setTodo r).resVal = s.resVal := rfl
@[simp] theorem State.setTodo_running (s : State) (r : List Micro) : (s.setTodo r).running = s.running := rfl
@[simp] theorem State.setTodo_todo (s : State) (r : List Micro) : (s.setTodo r).todo = r := rfl
@[simp] theorem State.setTodo_locals (s : State) (r : List Micro) : (s.setTodo r).locals = s.locals := rfl
@[simp] theorem State.setTodo_miso (s : State) (r : List Micro) : (s.setTodo r).miso = s.miso := rfl
@[simp] theorem State.setTodo_notReady (s : State) (r : List Micro) : (s.setTodo r).notReady = s.notReady := rfl
@[simp] theorem State.setTodo_pktEdge (s : State) (r : List Micro) : (s.setTodo r).pktEdge = s.pktEdge := rfl
@[simp] theorem State.setTodo_requests (s : State) (r : List Micro) : (s.setTodo r).requests = s.requests := rfl
@[simp] theorem State.setTodo_access (s : State) (r : List Micro) : (s.setTodo r).access = s.access := rfl
@[simp] theorem State.setTodo_hdr (s : State) (r : List Micro) : (s.setTodo r).hdr = s.hdr := rfl
@[simp] theorem State.setTodo_pay (s : State) (r : List Micro) : (s.setTodo r).pay = s.pay := rfl
@[simp] theorem State.setTodo_dst (s : State) (r : List Micro) : (s.setTodo r).dst = s.dst := rfl
@[simp] theorem State.setTodo_trace (s : State) (r : List Micro) : (s.setTodo r).trace = s.trace := rfl
@[simp] theorem State.setTodo_par (s : State) (r : List Micro) : (s.setTodo r).par = s.par := rfl

/-! ### `sampleReady` -/

@[simp] theorem State.sampleReady_cs (s : State) : (s.sampleReady).cs = s.cs := rfl
@[simp] theorem State.sampleReady_seqBusy (s : State) : (s.sampleReady).seqBusy = s.seqBusy := rfl
@[simp] theorem State.sampleReady_op (s : State) : (s.sampleReady).op = s.op := rfl
@[simp] theorem State.sampleReady_seqStep (s : State) : (s.sampleReady).seqStep = s.seqStep := rfl
@[simp] theorem State.sampleReady_stState (s : State) : (s.sampleReady).stState = s.stState := rfl
@[simp] theorem State.sampleReady_stFifo (s : State) : (s.sampleReady).stFifo = s.stFifo := rfl
@[simp] theorem State.sampleReady_rssiLast (s : State) : (s.sampleReady).rssiLast = s.rssiLast := rfl
@[simp] theorem State.sampleReady_lqiLast (s : State) : (s.sampleReady).lqiLast = s.lqiLast := rfl
@[simp] theorem State.sampleReady_handlerReg (s : State) : (s.sampleReady).handlerReg = s.handlerReg := rfl
@[simp] theorem State.sampleReady_irqPending (s : State) : (s.sampleReady).irqPending = s.irqPending := rfl
@[simp] theorem State.sampleReady_resKind (s : State) : (s.sampleReady).resKind = s.resKind := rfl
@[simp] theorem State.sampleReady_resVal (s : State) : (s.sampleReady).resVal = s.resVal := rfl
@[simp] theorem State.sampleReady_running (s : State) : (s.sampleReady).running = s.running := rfl
@[simp] theorem State.sampleReady_todo (s : State) : (s.sampleReady).todo = s.todo := rfl
@[simp] theorem State.sampleReady_locals (s : State) : (s.sampleReady).locals = s.locals := rfl
@[simp] theorem State.sampleReady_miso (s : State) : (s.sampleReady).miso = s.miso := rfl
@[simp] theorem State.sampleReady_notReady (s : State) : (s.sampleReady).notReady = s.notReady.advance := rfl
@[simp] theorem State.sampleReady_pktEdge (s : State) : (s.sampleReady).pktEdge = s.pktEdge := rfl
@[simp] theorem State.sampleReady_requests (s : State) : (s.sampleReady).requests = s.requests := rfl
@[simp] theorem State.sampleReady_access (s : State) : (s.sampleReady).access = s.access := rfl
@[simp] theorem State.sampleReady_hdr (s : State) : (s.sampleReady).hdr = s.hdr := rfl
@[simp] theorem State.sampleReady_pay (s : State) : (s.sampleReady).pay = s.pay := rfl
@[simp] theorem State.sampleReady_dst (s : State) : (s.sampleReady).dst = s.dst := rfl
@[simp] theorem State.sampleReady_trace (s : State) : (s.sampleReady).trace = s.trace := rfl
@[simp] theorem State.sampleReady_par (s : State) : (s.sampleReady).par = s.par := rfl

/-! ### `endService` -/

@[simp] theorem State.endService_cs (s : State) : (s.endService).cs = s.cs := rfl
@[simp] theorem State.endService_seqBusy (s : State) : (s.endService).seqBusy = false := rfl
@[simp] theorem State.endService_op (s : State) : (s.endService).op = s.op := rfl
@[simp] theorem State.endService_seqStep (s : State) : (s.endService).seqStep = s.seqStep := rfl
@[simp] theorem State.endService_stState (s : State) : (s.endService).stState = s.stState := rfl
@[simp] theorem State.endService_stFifo (s : State) : (s.endService).stFifo = s.stFifo := rfl
@[simp] theorem State.endService_rssiLast (s : State) : (s.endService).rssiLast = s.rssiLast := rfl
@[simp] theorem State.endService_lqiLast (s : State) : (s.endService).lqiLast = s.lqiLast := rfl
@[simp] theorem State.endService_handlerReg (s : State) : (s.endService).handlerReg = s.handlerReg := rfl
@[simp] theorem State.endService_irqPending (s : State) : (s.endService).irqPending = s.irqPending := rfl
@[simp] theorem State.endService_resKind (s : State) : (s.endService).resKind = s.resKind := rfl
@[simp] theorem State.endService_resVal (s : State) : (s.endService).resVal = s.resVal := rfl
@[simp] theorem State.endService_running (s : State) : (s.endService).running = s.running := rfl
@[simp] theorem State.endService_todo (s : State) : (s.endService).todo = s.todo := rfl
@[simp] theorem State.endService_locals (s : State) : (s.endService).locals = s.locals := rfl
@[simp] theorem State.endService_miso (s : State) : (s.endService).miso = s.miso := rfl
@[simp] theorem State.endService_notReady (s : State) : (s.endService).notReady = s.notReady := rfl
@[simp] theorem State.endService_pktEdge (s : State) : (s.endService).pktEdge = s.pktEdge := rfl
@[simp] theorem State.endService_requests (s : State) : (s.endService).requests = s.requests := rfl
@[simp] theorem State.endService_access (s : State) : (s.endService).access = s.access := rfl
@[simp] theorem State.endService_hdr (s : State) : (s.endService).hdr = s.hdr := rfl
@[simp] theorem State.endService_pay (s : State) : (s.endService).pay = s.pay := rfl
@[simp] theorem State.endService_dst (s : State) : (s.endService).dst = s.dst := rfl
@[simp] theorem State.endService_trace (s : State) : (s.endService).trace = s.trace := rfl
@[simp] theorem State.endService_par (s : State) : (s.endService).par = s.par := rfl

/-! ### `latchEdge` -/

@[simp] theorem State.latchEdge_cs (s : State) : (s.latchEdge).cs = s.cs := rfl
@[simp] theorem State.latchEdge_seqBusy (s : State) : (s.latchEdge).seqBusy = s.seqBusy := rfl
@[simp] theorem State.latchEdge_op (s : State) : (s.latchEdge).op = s.op := rfl
@[simp] theorem State.latchEdge_seqStep (s : State) : (s.latchEdge).seqStep = s.seqStep := rfl
@[simp] theorem State.latchEdge_stState (s : State) : (s.latchEdge).stState = s.stState := rfl
@[simp] theorem State.latchEdge_stFifo (s : State) : (s.latchEdge).stFifo = s.stFifo := rfl
@[simp] theorem State.latchEdge_rssiLast (s : State) : (s.latchEdge).rssiLast = s.rssiLast := rfl
@[simp] theorem State.latchEdge_lqiLast (s : State) : (s.latchEdge).lqiLast = s.lqiLast := rfl
@[simp] theorem State.latchEdge_handlerReg (s : State) : (s.latchEdge).handlerReg = s.handlerReg := rfl
@[simp] theorem State.latchEdge_irqPending (s : State) : (s.latchEdge).irqPending = true := rfl
@[simp] theorem State.latchEdge_resKind (s : State) : (s.latchEdge).resKind = s.resKind := rfl
@[simp] theorem State.latchEdge_resVal (s : State) : (s.latchEdge).resVal = s.resVal := rfl
@[simp] theorem State.latchEdge_running (s : State) : (s.latchEdge).running = s.running := rfl
@[simp] theorem State.latchEdge_todo (s : State) : (s.latchEdge).todo = s.todo := rfl
@[simp] theorem State.latchEdge_locals (s : State) : (s.latchEdge).locals = s.locals := rfl
@[simp] theorem State.latchEdge_miso (s : State) : (s.latchEdge).miso = s.miso := rfl
@[simp] theorem State.latchEdge_notReady (s : State) : (s.latchEdge).notReady = s.notReady := rfl
@[simp] theorem State.latchEdge_pktEdge (s : State) : (s.latchEdge).pktEdge = s.pktEdge := rfl
@[simp] theorem State.latchEdge_requests (s : State) : (s.latchEdge).requests = s.requests := rfl
@[simp] theorem State.latchEdge_access (s : State) : (s.latchEdge).access = s.access := rfl
@[simp] theorem State.latchEdge_hdr (s : State) : (s.latchEdge).hdr = s.hdr := rfl
@[simp] theorem State.latchEdge_pay (s : State) : (s.latchEdge).pay = s.pay := rfl
@[simp] theorem State.latchEdge_dst (s : State) : (s.latchEdge).dst = s.dst := rfl
@[simp] theorem State.latchEdge_trace (s : State) : (s.latchEdge).trace = s.trace := rfl
@[simp] theorem State.latchEdge_par (s : State) : (s.latchEdge).par = s.par := rfl

/-! ### `pastEdge` -/

@[simp] theorem State.pastEdge_cs (s : State) : (s.pastEdge).cs = s.cs := rfl
@[simp] theorem State.pastEdge_seqBusy (s : State) : (s.pastEdge).seqBusy = s.seqBusy := rfl
@[simp] theorem State.pastEdge_op (s : State) : (s.pastEdge).op = s.op := rfl
@[simp] theorem State.pastEdge_seqStep (s : State) : (s.pastEdge).seqStep = s.seqStep := rfl
@[simp] theorem State.pastEdge_stState (s : State) : (s.pastEdge).stState = s.stState := rfl
@[simp] theorem State.pastEdge_stFifo (s : State) : (s.pastEdge).stFifo = s.stFifo := rfl
@[simp] theorem State.pastEdge_rssiLast (s : State) : (s.pastEdge).rssiLast = s.rssiLast := rfl
@[simp] theorem State.pastEdge_lqiLast (s : State) : (s.pastEdge).lqiLast = s.lqiLast := rfl
@[simp] theorem State.pastEdge_handlerReg (s : State) : (s.pastEdge).handlerReg = s.handlerReg := rfl
@[simp] theorem State.pastEdge_irqPending (s : State) : (s.pastEdge).irqPending = s.irqPending := rfl
@[simp] theorem State.pastEdge_resKind (s : State) : (s.pastEdge).resKind = s.resKind := rfl
@[simp] theorem State.pastEdge_resVal (s : State) : (s.pastEdge).resVal = s.resVal := rfl
@[simp] theorem State.pastEdge_running (s : State) : (s.pastEdge).running = s.running := rfl
@[simp] theorem State.pastEdge_todo (s : State) : (s.pastEdge).todo = s.todo := rfl
@[simp] theorem State.pastEdge_locals (s : State) : (s.pastEdge).locals = s.locals := rfl
@[simp] theorem State.pastEdge_miso (s : State) : (s.pastEdge).miso = s.miso := rfl
@[simp] theorem State.pastEdge_notReady (s : State) : (s.pastEdge).notReady = s.notReady := rfl
@[simp] theorem State.pastEdge_pktEdge (s : State) : (s.pastEdge).pktEdge = s.pktEdge.advance := rfl
@[simp] theorem State.pastEdge_requests (s : State) : (s.pastEdge).requests = s.requests := rfl
@[simp] theorem State.pastEdge_access (s : State) : (s.pastEdge).access = s.access := rfl
@[simp] theorem State.pastEdge_hdr (s : State) : (s.pastEdge).hdr = s.hdr := rfl
@[simp] theorem State.pastEdge_pay (s : State) : (s.pastEdge).pay = s.pay := rfl
@[simp] theorem State.pastEdge_dst (s : State) : (s.pastEdge).dst = s.dst := rfl
@[simp] theorem State.pastEdge_trace (s : State) : (s.pastEdge).trace = s.trace := rfl
@[simp] theorem State.pastEdge_par (s : State) : (s.pastEdge).par = s.par := rfl

end Sys2Proof.Machine
end

