-- ==== Sys2Proof/Laws/Bus.lean ====
section
/-! SUPPORT. The laws of inputs and bus scripts: values by number, scripts that follow each other. -/

namespace Sys2Proof.Machine

theorem skip_add {α : Type} (a b : Nat) (m : Source α) : m.skip (a + b) = (m.skip a).skip b := by
  induction a generalizing m with
  | zero => simp [Source.skip]
  | succ n ih => rw [Nat.succ_add]; simp [Source.skip, ih]

theorem advance_skip {α : Type} (k : Nat) (m : Source α) : (m.skip k).advance = m.skip (k + 1) := by
  rw [skip_add]; rfl

theorem upcoming_length {α : Type} (free : Nat → α) (n : Nat) (m : Source α) : (m.upcoming free n).length = n := by
  induction n generalizing m with
  | zero => rfl
  | succ n ih => simp [Source.upcoming, ih]

theorem upcoming_getD {α : Type} (free : Nat → α) (n k : Nat) (m : Source α) (d : α) (h : k < n) :
    (m.upcoming free n).getD k d = (m.skip k).next free := by
  induction n generalizing m k with
  | zero => omega
  | succ n ih =>
    cases k with
    | zero => rfl
    | succ k => simpa [Source.upcoming, Source.skip] using ih k m.advance (by omega)

theorem exchanges_append (a b : List Act) : exchanges (a ++ b) = exchanges a + exchanges b := by
  induction a with
  | nil => simp [exchanges]
  | cons x a ih => cases x <;> simp [exchanges, ih]; omega

theorem play_append (a b : List Act) (m : Source Byte) :
    play (a ++ b) m = play a m ++ play b (m.skip (exchanges a)) := by
  induction a generalizing m with
  | nil => simp [play, exchanges, Source.skip]
  | cons x a ih => cases x <;> simp [play, exchanges, Source.skip, ih]

theorem exchanges_outs (os : List Byte) : exchanges (outs os) = os.length := by
  induction os with
  | nil => rfl
  | cons o os ih => simpa [outs, exchanges] using ih

theorem outs_append (a b : List Byte) : outs (a ++ b) = outs a ++ outs b := by simp [outs]

theorem play_outs_cons (o : Byte) (os : List Byte) (m : Source Byte) :
    play (outs (o :: os)) m = .x o (m.next Config.chipAnswer) :: play (outs os) m.advance := rfl

end Sys2Proof.Machine
end

