-- ==== Sys2Proof/Laws/Header.lean ====
section
/-! SUPPORT. The laws of the encodings: what the parameters' well-formedness gives, the three fields of a header byte and their inverse,
the address tags, and lengths as bytes and back. -/

namespace Sys2Proof

open Machine

/-! ### What a well-formed layout gives -/

/-- The register addresses of a map. -/
def AddrMap.registers (m : AddrMap) : List Byte := m.config ++ [m.patable, m.fifo]

/-- `Layout.wf` as facts. -/
theorem Layout.wf_spec {ly : Layout} (h : ly.wf = true) :
    ly.rBit < 8 ∧ ly.bBit < 8 ∧ ly.rBit ≠ ly.bBit ∧ ly.bBit < ly.addrW ∧ ly.addrW ≤ 8 ∧ 8 ≤ ly.lenW ∧
    (∀ a, a ∈ ly.addrMap.config ++ ly.addrMap.strobes ++ [ly.addrMap.patable, ly.addrMap.fifo] → ly.plainAddress a = true) ∧
    (∀ a, a ∈ ly.addrMap.status → ly.plainAddress a = true) ∧
    (ly.addrMap.config ++ ly.addrMap.strobes ++ [ly.addrMap.patable, ly.addrMap.fifo]).Nodup ∧
    (ly.addrMap.config ++ [ly.addrMap.patable, ly.addrMap.fifo] ++ ly.addrMap.status).Nodup := by
  simp only [Layout.wf, Bool.and_eq_true, decide_eq_true_eq, List.all_eq_true] at h
  obtain ⟨⟨⟨⟨⟨⟨⟨⟨⟨⟨⟨⟨⟨h1, h2⟩, h3⟩, h4⟩, h5⟩, -⟩, -⟩, h8⟩, -⟩, -⟩, h11⟩, h12⟩, h13⟩, h14⟩ := h
  exact ⟨h1, h2, h3, h4, h5, h8, h11, h12, h13, h14⟩

/-- The read bit alone is set in `readBit`. -/
theorem readBit_getLsbD {ly : Layout} (h : ly.rBit < 8) (j : Nat) : (readBit ly).getLsbD j = decide (j = ly.rBit) := by
  rw [readBit, BitVec.getLsbD_shiftLeft]
  by_cases hj : j = ly.rBit
  · subst hj; simp [h]
  · have : ∀ d, (1#8).getLsbD d = decide (d = 0) := by
      intro d; cases d <;> simp [BitVec.getLsbD, Nat.testBit_succ]
    simp only [this]
    by_cases h1 : j < ly.rBit
    · simp [hj, h1]
    · simp [hj, h1]; omega

/-- The burst bit alone is set in `burstBit`. -/
theorem burstBit_getLsbD {ly : Layout} (h : ly.bBit < 8) (j : Nat) : (burstBit ly).getLsbD j = decide (j = ly.bBit) :=
  readBit_getLsbD (ly := { ly with rBit := ly.bBit }) h j

theorem plain_spec {ly : Layout} (hr : ly.rBit < 8) (hb : ly.bBit < 8) {a : Byte} (h : ly.plainAddress a = true) :
    a.toNat < 2 ^ ly.addrW ∧ a.getLsbD ly.rBit = false ∧ a.getLsbD ly.bBit = false := by
  simp only [Layout.plainAddress, Bool.and_eq_true, decide_eq_true_eq] at h
  refine ⟨h.1, ?_, ?_⟩
  · have := congrArg (BitVec.getLsbD · ly.rBit) h.2
    simpa [BitVec.getLsbD_and, BitVec.getLsbD_or, readBit_getLsbD hr] using this
  · have := congrArg (BitVec.getLsbD · ly.bBit) h.2
    simpa [BitVec.getLsbD_and, BitVec.getLsbD_or, burstBit_getLsbD hb] using this

/-! ### The fields of a header byte -/

/-- Whether a kind reads: its header has the read bit set (R61). -/
def AccessKind.reads : AccessKind → Bool
  | .rdSingle | .rdBurst => true
  | .wrSingle | .wrBurst | .strobe => false

/-- Whether a kind's header has the burst bit set (R61). -/
def AccessKind.bursts : AccessKind → Bool
  | .wrBurst | .rdBurst => true
  | .wrSingle | .rdSingle | .strobe => false

theorem kindBits_getLsbD {ly : Layout} (hr : ly.rBit < 8) (hb : ly.bBit < 8) (k : AccessKind) (j : Nat) :
    (kindBits ly k).getLsbD j = (k.reads && decide (j = ly.rBit) || k.bursts && decide (j = ly.bBit)) := by
  cases k <;> simp [kindBits, AccessKind.reads, AccessKind.bursts, readBit_getLsbD hr, burstBit_getLsbD hb, BitVec.getLsbD_or]

theorem encodeHeader_fits {ly : Layout} {a : Byte} (h : a.toNat < 2 ^ ly.addrW) (k : AccessKind) :
    encodeHeader ly a k = a ||| kindBits ly k := by
  have : (a.setWidth ly.addrW).setWidth 8 = a := by
    apply BitVec.eq_of_toNat_eq
    rw [BitVec.toNat_setWidth, BitVec.toNat_setWidth, Nat.mod_eq_of_lt h, Nat.mod_eq_of_lt a.isLt]
  rw [encodeHeader, this]

theorem headerAddress_getLsbD {ly : Layout} (hr : ly.rBit < 8) (hb : ly.bBit < 8) (b : Byte) {j : Nat} (hj : j < 8) :
    (headerAddress ly b).getLsbD j = (b.getLsbD j && !(decide (j = ly.rBit) || decide (j = ly.bBit))) := by
  rw [headerAddress, BitVec.getLsbD_and, BitVec.getLsbD_not, BitVec.getLsbD_or, readBit_getLsbD hr, burstBit_getLsbD hb]
  simp [hj]

/-- The header of a plain address: its address field, its read bit and its burst bit (R60, R61). -/
theorem header_fields {ly : Layout} (h : ly.wf = true) {a : Byte} (ha : ly.plainAddress a = true) (k : AccessKind) :
    headerAddress ly (encodeHeader ly a k) = a ∧ (encodeHeader ly a k).getLsbD ly.rBit = k.reads ∧
    (encodeHeader ly a k).getLsbD ly.bBit = k.bursts := by
  obtain ⟨hr, hb, hne, -⟩ := Layout.wf_spec h
  obtain ⟨hf, h1, h2⟩ := plain_spec hr hb ha
  rw [encodeHeader_fits hf]
  refine ⟨?_, ?_, ?_⟩
  · apply BitVec.eq_of_getLsbD_eq
    intro j hj
    rw [headerAddress_getLsbD hr hb _ hj, BitVec.getLsbD_or, kindBits_getLsbD hr hb]
    by_cases e1 : j = ly.rBit
    · subst e1; simp [h1]
    · by_cases e2 : j = ly.bBit
      · subst e2; simp [h2]
      · simp [e1, e2]
  · rw [BitVec.getLsbD_or, kindBits_getLsbD hr hb, h1]; simp [hne]
  · rw [BitVec.getLsbD_or, kindBits_getLsbD hr hb, h2]; simp [hne.symm]

/-- A header byte is its address with the bits of its kind. -/
theorem header_inverse {ly : Layout} (h : ly.wf = true) {b : Byte} {k : AccessKind} (h1 : b.getLsbD ly.rBit = k.reads)
    (h2 : b.getLsbD ly.bBit = k.bursts) : headerAddress ly b ||| kindBits ly k = b := by
  obtain ⟨hr, hb, -⟩ := Layout.wf_spec h
  apply BitVec.eq_of_getLsbD_eq
  intro j hj
  rw [BitVec.getLsbD_or, headerAddress_getLsbD hr hb _ hj, kindBits_getLsbD hr hb, ← h1, ← h2]
  by_cases e1 : j = ly.rBit
  · subst e1; simp
    intro h e; exact e ▸ h
  · by_cases e2 : j = ly.bBit
    · subst e2; simp
      intro h e; exact e ▸ h
    · simp [e1, e2]

/-! ### Baked addresses (R62) -/

/-- A baked address still fits, and its header as a single read carries the chip address with both bits set. -/
theorem bake_spec {ly : Layout} (h : ly.wf = true) {A : Byte} (hA : ly.plainAddress A = true) :
    (bake ly A).toNat < 2 ^ ly.addrW ∧ (bake ly A).getLsbD ly.bBit = true ∧
    encodeHeader ly (bake ly A) .rdSingle = A ||| kindBits ly .rdBurst := by
  obtain ⟨hr, hb, -, hw, -⟩ := Layout.wf_spec h
  obtain ⟨hf, -, -⟩ := plain_spec hr hb hA
  have hB : (burstBit ly).toNat < 2 ^ ly.addrW := by
    rw [burstBit, BitVec.toNat_shiftLeft]
    have : 2 ^ ly.bBit < 2 ^ ly.addrW := Nat.pow_lt_pow_right (by omega) hw
    have : 2 ^ ly.bBit < 2 ^ 8 := Nat.pow_lt_pow_right (by omega) hb
    have h2 : 2 ^ ly.bBit % 256 = 2 ^ ly.bBit := Nat.mod_eq_of_lt (by omega)
    simp [Nat.shiftLeft_eq, h2]
    omega
  have hfit : (bake ly A).toNat < 2 ^ ly.addrW := by
    rw [bake, BitVec.toNat_or]
    exact Nat.or_lt_two_pow hf hB
  refine ⟨hfit, ?_, ?_⟩
  · rw [bake, BitVec.getLsbD_or, burstBit_getLsbD hb]; simp
  · rw [encodeHeader_fits hfit, bake, kindBits, kindBits, BitVec.or_assoc, BitVec.or_comm (burstBit ly)]

/-! ### Address tags (R41) -/

/-- A register address is a configuration register or a multi-byte register. -/
theorem isRegister_iff {ly : Layout} (h : ly.wf = true) {a : Byte} : isRegister ly a = true ↔ a ∈ ly.addrMap.registers := by
  obtain ⟨-, -, -, -, -, -, -, -, hn, -⟩ := Layout.wf_spec h
  rw [List.append_assoc, List.nodup_append] at hn
  have hd := (List.nodup_append.mp hn.2.1).2.2
  unfold isRegister addrTag AddrMap.registers
  split
  · simp [*]
  split
  · rename_i h1 h2
    have h3 : a ≠ ly.addrMap.patable := fun e => hd a h2 _ (by simp) e
    have h4 : a ≠ ly.addrMap.fifo := fun e => hd a h2 _ (by simp) e
    simp [h1, h3, h4]
  split
  · rename_i h1 h2 h3
    rcases h3 with h3 | h3 <;> simp [h3]
  split <;> simp_all

theorem register_plain {ly : Layout} (h : ly.wf = true) {a : Byte} (ha : isRegister ly a = true) : ly.plainAddress a = true := by
  obtain ⟨-, -, -, -, -, -, hp, -⟩ := Layout.wf_spec h
  rw [isRegister_iff h, AddrMap.registers] at ha
  apply hp
  simp only [List.mem_append] at ha ⊢
  exact ha.elim (fun h => .inl (.inl h)) .inr

theorem strobe_plain {ly : Layout} (h : ly.wf = true) {a : Byte} (ha : a ∈ ly.addrMap.strobes) : ly.plainAddress a = true := by
  obtain ⟨-, -, -, -, -, -, hp, -⟩ := Layout.wf_spec h
  exact hp a (by simp [ha])

theorem register_not_strobe {ly : Layout} (h : ly.wf = true) {a : Byte} (ha : isRegister ly a = true) : a ∉ ly.addrMap.strobes := by
  obtain ⟨-, -, -, -, -, -, -, -, hn, -⟩ := Layout.wf_spec h
  rw [isRegister_iff h, AddrMap.registers] at ha
  intro hs
  rw [List.append_assoc, List.nodup_append] at hn
  rcases List.mem_append.mp ha with hc | hc
  · exact hn.2.2 a hc a (by simp [hs]) rfl
  · exact (List.nodup_append.mp hn.2.1).2.2 a hs a hc rfl

/-- A baked status address is the baked address of a status register. -/
theorem isStatus_iff {ly : Layout} (h : ly.wf = true) {a : Byte} : isStatus ly a = true ↔ ∃ A ∈ ly.addrMap.status, bake ly A = a := by
  obtain ⟨hr, hb, -, -, -, -, hp, hs, -⟩ := Layout.wf_spec h
  constructor
  · intro ha
    unfold isStatus addrTag at ha
    split at ha
    · simp at ha
    split at ha
    · simp at ha
    split at ha
    · simp at ha
    split at ha
    · rename_i hm
      simpa using hm
    · simp at ha
  · rintro ⟨A, hA, rfl⟩
    have hbit := (bake_spec h (hs A hA)).2.1
    have hnot : ∀ b, ly.plainAddress b = true → bake ly A ≠ b := by
      rintro b hb' rfl
      have := (plain_spec hr hb hb').2.2
      rw [hbit] at this
      cases this
    have h1 : bake ly A ∉ ly.addrMap.config := fun hm => hnot _ (hp _ (by simp [hm])) rfl
    have h2 : bake ly A ∉ ly.addrMap.strobes := fun hm => hnot _ (hp _ (by simp [hm])) rfl
    have h3 : bake ly A ≠ ly.addrMap.patable := hnot _ (hp _ (by simp))
    have h4 : bake ly A ≠ ly.addrMap.fifo := hnot _ (hp _ (by simp))
    have h5 : bake ly A ∈ ly.addrMap.status.map (bake ly) := List.mem_map_of_mem hA
    unfold isStatus addrTag
    rw [if_neg h1, if_neg h2, if_neg (by simp [h3, h4]), if_pos h5]
    rfl

theorem status_not_register {ly : Layout} (h : ly.wf = true) {A : Byte} (hA : A ∈ ly.addrMap.status) : isRegister ly A = false := by
  obtain ⟨-, -, -, -, -, -, -, -, -, hn⟩ := Layout.wf_spec h
  rw [Bool.eq_false_iff]
  intro hr
  rw [isRegister_iff h] at hr
  exact (List.nodup_append.mp hn).2.2 A hr A hA rfl

/-! ### The table of strobes -/

theorem lookup_mem {l : List (Byte × Instr)} {b : Byte} {i : Instr} (h : l.lookup b = some i) : (b, i) ∈ l := by
  induction l with
  | nil => cases h
  | cons e l ih =>
    obtain ⟨a, j⟩ := e
    by_cases hb : b = a
    · subst hb
      simp only [List.lookup_cons, beq_self_eq_true, Option.some.injEq] at h
      simp [h]
    · rw [List.lookup_cons, beq_false_of_ne hb] at h
      exact List.mem_cons_of_mem _ (ih h)

theorem lookup_of_mem {l : List (Byte × Instr)} {b : Byte} {i : Instr} (hn : (l.map Prod.fst).Nodup) (h : (b, i) ∈ l) :
    l.lookup b = some i := by
  induction l with
  | nil => cases h
  | cons e l ih =>
    obtain ⟨a, j⟩ := e
    rw [List.map_cons, List.nodup_cons] at hn
    rcases List.mem_cons.mp h with he | hm
    · injection he with h1 h2
      subst h1 h2
      simp
    · have hb : b ≠ a := by
        rintro rfl
        exact hn.1 (List.mem_map.mpr ⟨(b, i), hm, rfl⟩)
      rw [List.lookup_cons, beq_false_of_ne hb]
      exact ih hn.2 hm

theorem strobeTable_addresses (m : AddrMap) : (strobeTable m).map Prod.fst = m.strobes := rfl

theorem strobes_nodup {ly : Layout} (h : ly.wf = true) : ly.addrMap.strobes.Nodup := by
  obtain ⟨-, -, -, -, -, -, -, -, hn, -⟩ := Layout.wf_spec h
  rw [List.append_assoc, List.nodup_append] at hn
  exact (List.nodup_append.mp hn.2.1).1

/-- A row of the strobe table decodes to its strobe. -/
theorem decodeStrobe_row {ly : Layout} (h : ly.wf = true) {a : Byte} {i : Instr} (hm : (a, i) ∈ strobeTable ly.addrMap) :
    decodeStrobe ly.addrMap a = some i := lookup_of_mem (strobes_nodup h) hm

/-- What decodes to a strobe is a row of the strobe table. -/
theorem decodeStrobe_some {m : AddrMap} {a : Byte} {i : Instr} (h : decodeStrobe m a = some i) : (a, i) ∈ strobeTable m := lookup_mem h

theorem decodeStrobe_none {m : AddrMap} {a : Byte} (h : a ∉ m.strobes) : decodeStrobe m a = none := by
  cases hd : decodeStrobe m a with
  | none => rfl
  | some i => exact absurd (strobeTable_addresses m ▸ List.mem_map_of_mem (f := Prod.fst) (decodeStrobe_some hd)) h

/-! ### Lengths as bytes -/

theorem bytesOfNat_length (k w : Nat) : (bytesOfNat k w).length = k := by
  induction k generalizing w with
  | zero => rfl
  | succ k ih => simp [bytesOfNat, ih]

theorem natOfBytes_bytesOfNat {k w : Nat} (h : w < 256 ^ k) : natOfBytes (bytesOfNat k w) = w := by
  induction k generalizing w with
  | zero => simp at h; simp [bytesOfNat, natOfBytes, h]
  | succ k ih =>
    have : w / 256 < 256 ^ k := Nat.div_lt_of_lt_mul (by rwa [Nat.pow_succ, Nat.mul_comm] at h)
    simp only [bytesOfNat, natOfBytes, ih this, BitVec.toNat_ofNat]
    omega

theorem bytesOfNat_natOfBytes (bs : List Byte) : bytesOfNat bs.length (natOfBytes bs) = bs := by
  induction bs with
  | nil => rfl
  | cons b bs ih =>
    have hb := b.isLt
    have h1 : (b.toNat + 256 * natOfBytes bs) / 256 = natOfBytes bs := by omega
    have h2 : BitVec.ofNat 8 (b.toNat + 256 * natOfBytes bs) = b := by
      apply BitVec.eq_of_toNat_eq
      rw [BitVec.toNat_ofNat]
      omega
    simp only [List.length_cons, natOfBytes, bytesOfNat, h1, h2, ih]

/-- A length of `LEN_W` bits fits the bytes that carry it. -/
theorem length_fits {ly : Layout} {n : Nat} (h : n < 2 ^ ly.lenW) : n < 256 ^ ly.lenBytes := by
  have : 2 ^ ly.lenW ≤ 256 ^ ly.lenBytes := by
    rw [show 256 = 2 ^ 8 from rfl, ← Nat.pow_mul]
    exact Nat.pow_le_pow_right (by omega) (by unfold Layout.lenBytes; omega)
  omega

/-- A length decodes back, with the bytes after it left over. -/
theorem takeLen_bytesOfLen {ly : Layout} {n : Nat} (h : n < 2 ^ ly.lenW) (rest : List Byte) (f : Nat → List Byte → Decoded) :
    takeLen ly (bytesOfLen ly n ++ rest) f = f n rest := by
  have hl : (bytesOfLen ly n).length = ly.lenBytes := bytesOfNat_length ..
  have ht : (bytesOfLen ly n ++ rest).take ly.lenBytes = bytesOfLen ly n := by rw [← hl]; exact List.take_left
  have hd : (bytesOfLen ly n ++ rest).drop ly.lenBytes = rest := by rw [← hl]; exact List.drop_left
  have hn : natOfBytes (bytesOfLen ly n) = n := natOfBytes_bytesOfNat (length_fits h)
  rw [takeLen, ht, hd, hn, if_neg (by simp [hl]), if_pos h]

/-- What a length that decodes was: the bytes of the number, and then the bytes left over. -/
theorem takeLen_ok {ly : Layout} {bs rest : List Byte} {f : Nat → List Byte → Decoded} {i : Instr} (h : takeLen ly bs f = .ok i rest) :
    ∃ n after, n < 2 ^ ly.lenW ∧ bs = bytesOfLen ly n ++ after ∧ f n after = .ok i rest := by
  unfold takeLen at h
  split at h
  · cases h
  split at h
  · rename_i hl hn
    refine ⟨_, _, hn, ?_, h⟩
    have hlen : (bs.take ly.lenBytes).length = ly.lenBytes := by rw [List.length_take]; omega
    have := bytesOfNat_natOfBytes (bs.take ly.lenBytes)
    rw [hlen] at this
    rw [bytesOfLen, this, List.take_append_drop]
  · cases h

/-! ### The reference map against the table of R63 -/

/-- In the reference layout an address is a configuration register exactly in 0x00–0x2E, and a multi-byte register exactly at 0x3E and
0x3F: the classes of R63. -/
theorem reference_registers :
    ∀ A : BitVec 6, (addrTag .reference (A.setWidth 8) = some .configRegister ↔ addrClass A = .config) ∧
      (addrTag .reference (A.setWidth 8) = some .multiByteRegister ↔ addrClass A = .powerTable ∨ addrClass A = .fifo) := by decide

end Sys2Proof
end

