-- ==== Sys2Proof/Laws/Operands.lean ====
section
/-! SUPPORT. The laws of host buffers: read after write, the canonical form, the bytes of a buffer. -/

namespace Sys2Proof.Machine

/-! ### Host buffers -/

theorem wfFrom_mono {lo lo' : Nat} {m : Memory} (h : Memory.wfFrom lo m = true) (hl : lo' ≤ lo) :
    Memory.wfFrom lo' m = true := by
  cases m with
  | nil => rfl
  | cons c m =>
    simp only [Memory.wfFrom, Bool.and_eq_true, decide_eq_true_eq] at h ⊢
    exact ⟨⟨by omega, h.1.2⟩, h.2⟩

/-- An index below every cell reads as unlisted. -/
theorem memRead_below {lo k : Nat} {m : Memory} (h : Memory.wfFrom lo m = true) (hk : k < lo) :
    memRead m k = Config.unlistedByte := by
  induction m generalizing lo with
  | nil => rfl
  | cons c m ih =>
    simp only [Memory.wfFrom, Bool.and_eq_true, decide_eq_true_eq] at h
    simp only [memRead]
    rw [if_neg (by omega)]
    exact ih h.2 (by omega)

theorem memWrite_wfFrom {lo k : Nat} {v : Byte} {m : Memory} (h : Memory.wfFrom lo m = true) (hk : lo ≤ k) :
    Memory.wfFrom lo (memWrite m k v) = true := by
  induction m generalizing lo with
  | nil => by_cases hv : v = Config.unlistedByte <;> simp [memWrite, Memory.wfFrom, hv, hk]
  | cons c m ih =>
    obtain ⟨j, w⟩ := c
    simp only [Memory.wfFrom, Bool.and_eq_true, decide_eq_true_eq] at h
    simp only [memWrite]
    split
    · simp only [Memory.wfFrom, Bool.and_eq_true, decide_eq_true_eq]
      exact ⟨h.1, ih h.2 (by omega)⟩
    split
    · split
      · exact wfFrom_mono h.2 (by omega)
      · rename_i hj hv
        subst hj
        simp only [Memory.wfFrom, Bool.and_eq_true, decide_eq_true_eq]
        exact ⟨⟨hk, hv⟩, h.2⟩
    split
    · simp only [Memory.wfFrom, Bool.and_eq_true, decide_eq_true_eq]
      exact h
    · simp only [Memory.wfFrom, Bool.and_eq_true, decide_eq_true_eq]
      rename_i hv
      exact ⟨⟨hk, hv⟩, ⟨by omega, h.1.2⟩, h.2⟩

/-- Every write keeps the canonical form. -/
theorem memWrite_wf {k : Nat} {v : Byte} {m : Memory} (h : Memory.wf m = true) : Memory.wf (memWrite m k v) = true :=
  memWrite_wfFrom h (Nat.zero_le k)

theorem memStore_wf {k : Nat} {t : List Byte} {m : Memory} (h : Memory.wf m = true) : Memory.wf (memStore m k t) = true := by
  induction t generalizing m k with
  | nil => exact h
  | cons v t ih => exact ih (memWrite_wf h)

theorem memRead_memWrite_same {lo k : Nat} {v : Byte} {m : Memory} (h : Memory.wfFrom lo m = true) :
    memRead (memWrite m k v) k = v := by
  induction m generalizing lo with
  | nil => by_cases hv : v = Config.unlistedByte <;> simp [memWrite, memRead, hv]
  | cons c m ih =>
    obtain ⟨j, w⟩ := c
    simp only [Memory.wfFrom, Bool.and_eq_true, decide_eq_true_eq] at h
    simp only [memWrite]
    split
    · simp only [memRead]
      rw [if_neg (by omega)]
      exact ih h.2
    split
    · split
      · rename_i hj hv
        rw [hv]
        exact memRead_below h.2 (by omega)
      · simp [memRead]
    split
    · rename_i hv
      rw [hv]
      simp only [memRead]
      rw [if_neg (by omega)]
      exact memRead_below h.2 (by omega)
    · simp [memRead]

theorem memRead_memWrite_other {k j : Nat} {v : Byte} {m : Memory} (hne : j ≠ k) :
    memRead (memWrite m k v) j = memRead m j := by
  induction m with
  | nil => by_cases hv : v = Config.unlistedByte <;> simp [memWrite, memRead, hv, Ne.symm hne]
  | cons c m ih =>
    obtain ⟨a, w⟩ := c
    simp only [memWrite]
    split
    · simp only [memRead, ih]
    split
    · rename_i ha
      subst ha
      split <;> simp [memRead, Ne.symm hne]
    split
    · rfl
    · simp [memRead, Ne.symm hne]

theorem memRead_memStore_outside {k j : Nat} {t : List Byte} {m : Memory} (h : j < k ∨ k + t.length ≤ j) :
    memRead (memStore m k t) j = memRead m j := by
  induction t generalizing m k with
  | nil => rfl
  | cons v t ih =>
    simp only [List.length_cons] at h
    simp only [memStore]
    rw [ih (by omega), memRead_memWrite_other (by omega)]

theorem memRead_memStore_inside {k j : Nat} {t : List Byte} {m : Memory} (hw : Memory.wf m = true) (hj : j < t.length) :
    memRead (memStore m k t) (k + j) = t.getD j 0 := by
  induction t generalizing m k j with
  | nil => simp at hj
  | cons v t ih =>
    simp only [memStore]
    cases j with
    | zero =>
      rw [memRead_memStore_outside (by omega)]
      simpa using memRead_memWrite_same hw
    | succ j =>
      have := ih (m := memWrite m k v) (k := k + 1) (j := j) (memWrite_wf hw) (by simpa using hj)
      simpa [Nat.add_assoc, Nat.add_comm 1 j] using this

theorem memBytes_length (m : Memory) (k n : Nat) : (memBytes m k n).length = n := by
  induction n generalizing k with
  | zero => rfl
  | succ n ih => simp [memBytes, ih]

theorem memBytes_congr {m m' : Memory} {k n : Nat} (h : ∀ j, k ≤ j → j < k + n → memRead m j = memRead m' j) :
    memBytes m k n = memBytes m' k n := by
  induction n generalizing k with
  | zero => rfl
  | succ n ih =>
    simp only [memBytes]
    rw [h k (by omega) (by omega), ih (fun j h1 h2 => h j (by omega) (by omega))]

/-- The bytes stored from index 0 up read back. -/
theorem memBytes_memStore {m : Memory} {t : List Byte} (hw : Memory.wf m = true) : memBytes (memStore m 0 t) 0 t.length = t := by
  have h : ∀ n k : Nat, k + n = t.length → memBytes (memStore m 0 t) k n = t.drop k := by
    intro n
    induction n with
    | zero => intro k h; simp [memBytes, ← h]
    | succ n ih =>
      intro k h
      have h1 := memRead_memStore_inside (k := 0) (t := t) hw (j := k) (by omega)
      rw [Nat.zero_add] at h1
      rw [memBytes, ih (k + 1) (by omega), h1, List.getD_eq_getElem _ _ (by omega)]
      exact List.getElem_cons_drop ..
  simpa using h t.length 0 (by simp)

end Sys2Proof.Machine
end

