-- ==== Sys2Proof/Laws/Sequencer.lean ====
section
/-! SUPPORT. One event of the sequencer, said once for all instructions: an idle sequencer takes the instruction, a busy one makes the
first event left of its line; and a list of events in a row. Later proofs cite these lemmas and unfold no meaning. -/

namespace Sys2Proof.Machine

/-! ### What `exec` does, for every instruction -/

/-- The events of the line at `STEP`, for every instruction. -/
def lineOf (i : Instr) (s : State) : List Micro :=
  let ly := s.par.layout
  let m := ly.addrMap
  match i with
  | .wrSingle a v => accessLine (singleWrite ly a v) s
  | .rdSingle a => accessLine (singleRead ly a .v) s
  | .wrBurst a t => accessLine (burstWrite ly a (t.map .byte)) s
  | .rdBurst a n => accessLine (burstRead ly a n .t) s
  | .rdStatus a => accessLine (statusRead ly a .v) s
  | .sres => accessLine (strobe ly m.sres) s
  | .sfstxon => accessLine (strobe ly m.sfstxon) s
  | .sxoff => accessLine (strobe ly m.sxoff) s
  | .scal => accessLine (strobe ly m.scal) s
  | .srx => accessLine (strobe ly m.srx) s
  | .stx => accessLine (strobe ly m.stx) s
  | .sidle => accessLine (strobe ly m.sidle) s
  | .swor => accessLine (strobe ly m.swor) s
  | .spwd => accessLine (strobe ly m.spwd) s
  | .sfrx => accessLine (strobe ly m.sfrx) s
  | .sftx => accessLine (strobe ly m.sftx) s
  | .sworrst => accessLine (strobe ly m.sworrst) s
  | .snop => accessLine (strobe ly m.snop) s
  | .init => initLine s
  | .radioOn => onLine s
  | .radioOff => offLine s
  | .setChannel n => writeRegisterLine m.channr n s
  | .setTxPower level => writeRegisterLine m.patable level s
  | .setAddress addr => writeRegisterLine m.addr addr s
  | .setCallback r => setCallbackLine r s
  | .send h p => sendLine h p s
  | .receive C => receiveLine C s
  | .discard => discardLine s
  | .getRssi => getRssiLine s
  | .getLastRssi => answerLine (complete .ok s.rssiLast.toNat) s
  | .getLastLqi => answerLine (complete .ok s.lqiLast.toNat) s
  | .isChannelClear => answerLine (complete .ok 1) s
  | .reserved0 => answerLine (raiseError .illegal) s
  | .reservedF => answerLine (raiseError .illegal) s

/-- What an idle sequencer does with an instruction: a request has a code, a presented access has none. -/
def takeOf (i : Instr) (s : State) : State :=
  match requestCode i with
  | some code => s.take i code
  | none => s.takeAccess i

theorem exec_idle {i : Instr} {s : State} (hb : s.seqBusy = false) : exec i s = .next (takeOf i s) := by
  cases i <;> simp [exec, takeOf, requestCode, execWrSingle, execRdSingle, execWrBurst, execRdBurst, execRdStatus, execSres, execSfstxon,
    execSxoff, execScal, execSrx, execStx, execSidle, execSwor, execSpwd, execSfrx, execSftx, execSworrst, execSnop, execInit,
    execRadioOn, execRadioOff, execSetChannel, execSetTxPower, execSetAddress, execSetCallback, execSend, execReceive, execDiscard,
    execGetRssi, execGetLastRssi, execGetLastLqi, execIsChannelClear, execReserved0, execReservedF, runOperation, runAccess, hb]

theorem exec_busy {i : Instr} {s : State} (hb : s.seqBusy = true) : exec i s = runNext (lineOf i s) s := by
  cases i <;> simp [exec, lineOf, execWrSingle, execRdSingle, execWrBurst, execRdBurst, execRdStatus, execSres, execSfstxon,
    execSxoff, execScal, execSrx, execStx, execSidle, execSwor, execSpwd, execSfrx, execSftx, execSworrst, execSnop, execInit,
    execRadioOn, execRadioOff, execSetChannel, execSetTxPower, execSetAddress, execSetCallback, execSend, execReceive, execDiscard,
    execGetRssi, execGetLastRssi, execGetLastLqi, execIsChannelClear, execReserved0, execReservedF, runOperation, runAccess, hb]

@[simp] theorem setTodo_setTodo (s : State) (a b : List Micro) : (s.setTodo a).setTodo b = s.setTodo b := rfl

theorem setTodo_self {s : State} {r : List Micro} (h : s.todo = r) : s.setTodo r = s := by subst h; rfl

theorem effect_setTodo (m : Micro) (s : State) (r : List Micro) : m.effect (s.setTodo r) = (m.effect s).setTodo r := by
  cases m <;> rfl

theorem legal_setTodo (m : Micro) (s : State) (r : List Micro) : m.legal (s.setTodo r) = m.legal s := by
  cases m <;> rfl

theorem runMicro_legal {m : Micro} {s : State} (h : m.legal s = true) (r : List Micro) :
    runMicro m (s.setTodo r) = .next ((m.effect s).setTodo r) := by
  rw [runMicro, legal_setTodo, if_pos h, effect_setTodo]

theorem runNext_todo {line rest : List Micro} {m : Micro} {s : State} (h : s.todo = m :: rest) :
    runNext line s = runMicro m (s.setTodo rest) := by simp [runNext, h]

theorem runNext_line {rest : List Micro} {m : Micro} {s : State} (h : s.todo = []) :
    runNext (m :: rest) s = runMicro m (s.setTodo rest) := by simp [runNext, h]

/-- A step of the sequencer that answers makes exactly the first event left, and that event was legal. -/
theorem runNext_next {line : List Micro} {s t : State} (h : runNext line s = .next t) :
    ∃ m rest, (s.todo = m :: rest ∨ s.todo = [] ∧ line = m :: rest) ∧ m.legal s = true ∧ t = (m.effect s).setTodo rest := by
  unfold runNext at h
  split at h
  · cases h
  rename_i m rest hm
  refine ⟨m, rest, ?_, ?_⟩
  · split at hm
    · exact .inr ⟨‹_›, hm⟩
    · exact .inl hm
  · unfold runMicro at h
    split at h
    · rename_i hl
      injection h with h
      rw [legal_setTodo] at hl
      exact ⟨hl, h.symm.trans (effect_setTodo m s rest)⟩
    · cases h

/-! ### Events in a row -/

/-- The effects of a list of events, in order. -/
def effects : List Micro → State → State
  | [], s => s
  | m :: rest, s => effects rest (m.effect s)

theorem effects_append (a b : List Micro) (s : State) : effects (a ++ b) s = effects b (effects a s) := by
  induction a generalizing s with
  | nil => rfl
  | cons m a ih => exact ih (m.effect s)

/-- Chip select after a list of events that starts with it at `cs`; none where an exchange falls outside a scope (R9) or the list makes
the sequencer idle. -/
def csRun : Bool → List Micro → Option Bool
  | cs, [] => some cs
  | _, .select :: r => csRun true r
  | _, .release :: r => csRun false r
  | cs, .xfer _ _ :: r => if cs then csRun cs r else none
  | _, .finish :: _ => none
  | _, .finishAccess :: _ => none
  | _, .finishService :: _ => none
  | cs, .latchState :: r => csRun cs r
  | cs, .latchFifo :: r => csRun cs r
  | cs, .setTotal _ :: r => csRun cs r
  | cs, .nextEntry :: r => csRun cs r
  | cs, .store _ :: r => csRun cs r
  | cs, .setRssi :: r => csRun cs r
  | cs, .setLqi :: r => csRun cs r
  | cs, .setHandler _ :: r => csRun cs r
  | cs, .goto _ :: r => csRun cs r
  | cs, .untilReady _ :: r => csRun cs r
  | cs, .untilRx _ :: r => csRun cs r
  | cs, .setKind _ :: r => csRun cs r
  | cs, .setVal _ :: r => csRun cs r
  | cs, .notify :: r => csRun cs r

theorem csRun_append (a b : List Micro) (cs : Bool) : csRun cs (a ++ b) = (csRun cs a).bind fun c => csRun c b := by
  induction a generalizing cs with
  | nil => rfl
  | cons m a ih => cases m <;> simp [csRun, ih]; split <;> simp [*]

theorem effects_setTodo (ops r : List Micro) (s : State) : effects ops (s.setTodo r) = (effects ops s).setTodo r := by
  induction ops generalizing s with
  | nil => rfl
  | cons m ops ih => rw [effects, effect_setTodo, ih]; rfl

theorem effects_todo (ops : List Micro) (s : State) : (effects ops s).todo = s.todo := by
  have h := effects_setTodo ops s.todo s
  rw [setTodo_self rfl] at h
  rw [h]; rfl

/-- The effect of one event on chip select and on the sequencer, where `csRun` allows it. -/
theorem effect_csRun {m : Micro} {r : List Micro} {s : State} {c : Bool} (h : csRun s.cs (m :: r) = some c) :
    m.legal s = true ∧ (m.effect s).seqBusy = s.seqBusy ∧ csRun (m.effect s).cs r = some c := by
  cases m <;> simp_all [csRun, Micro.effect, Micro.legal]

theorem effects_csRun {ops : List Micro} {s : State} {c : Bool} (h : csRun s.cs ops = some c) :
    (effects ops s).seqBusy = s.seqBusy ∧ (effects ops s).cs = c := by
  induction ops generalizing s with
  | nil => exact ⟨rfl, by simpa [csRun, effects] using h⟩
  | cons m ops ih =>
    obtain ⟨-, hb, hc⟩ := effect_csRun h
    obtain ⟨h1, h2⟩ := ih hc
    exact ⟨h1.trans hb, h2⟩

theorem Goes.trans {i : Instr} {a b : Nat} {s t u : State} (h1 : Goes i a s t) (h2 : Goes i b t u) : Goes i (a + b) s u := by
  induction a generalizing s with
  | zero => cases h1; simpa using h2
  | succ a ih =>
    obtain ⟨v, e, hb, h1⟩ := h1
    rw [Nat.succ_add]
    exact ⟨v, e, hb, ih h1⟩

/-- A busy sequencer makes the events it has left, whatever it runs. -/
theorem goes_todo {i : Instr} {ops rest : List Micro} {s : State} {c : Bool} (hb : s.seqBusy = true)
    (hc : csRun s.cs ops = some c) (ht : s.todo = ops ++ rest) : Goes i ops.length s ((effects ops s).setTodo rest) := by
  induction ops generalizing s with
  | nil => exact (setTodo_self ht).symm
  | cons m ops ih =>
    obtain ⟨hl, hb', hc'⟩ := effect_csRun hc
    refine ⟨(m.effect s).setTodo (ops ++ rest), ?_, hb'.trans hb, ?_⟩
    · rw [exec_busy hb, runNext_todo (ht.trans (List.cons_append ..)), runMicro_legal hl]
    · have := ih (s := (m.effect s).setTodo (ops ++ rest)) (hb'.trans hb) hc' rfl
      rwa [effects_setTodo, setTodo_setTodo] at this

/-- The head of a line, with the events of the line put in the list of those left. -/
theorem exec_head {i : Instr} {m : Micro} {ops : List Micro} {s : State} (hb : s.seqBusy = true) (ht : s.todo = [])
    (hl : lineOf i s = m :: ops) : exec i (s.setTodo (m :: ops)) = exec i s := by
  rw [exec_busy (s := s.setTodo (m :: ops)) hb, exec_busy hb, hl, runNext_line ht, runNext_todo rfl, setTodo_setTodo]

/-- A busy sequencer at the head of a line makes the first events of the line. -/
theorem goes_prefix {i : Instr} {ops rest : List Micro} {s : State} {c : Bool} (hb : s.seqBusy = true) (ht : s.todo = [])
    (hl : lineOf i s = ops ++ rest) (hne : ops ≠ []) (hc : csRun s.cs ops = some c) :
    Goes i ops.length s ((effects ops s).setTodo rest) := by
  cases ops with
  | nil => exact absurd rfl hne
  | cons m ops =>
    obtain ⟨v, e, hv, hg⟩ := goes_todo (i := i) (s := s.setTodo (m :: ops ++ rest)) (rest := rest) (ops := m :: ops) hb hc rfl
    rw [effects_setTodo, setTodo_setTodo] at hg
    exact ⟨v, (exec_head hb ht hl) ▸ e, hv, hg⟩

/-- A busy sequencer at the head of a line makes the events of the line. -/
theorem goes_line {i : Instr} {ops : List Micro} {s : State} {c : Bool} (hb : s.seqBusy = true) (ht : s.todo = [])
    (hl : lineOf i s = ops) (hne : ops ≠ []) (hc : csRun s.cs ops = some c) : Goes i ops.length s (effects ops s) := by
  have h := goes_prefix (rest := []) hb ht (by rw [hl, List.append_nil]) hne hc
  rwa [setTodo_self ((effects_todo _ _).trans ht)] at h

/-- Some number of events of `i` lead from `s` to `t`. -/
def Reaches (i : Instr) (s t : State) : Prop := ∃ n, Goes i n s t

theorem Reaches.trans {i : Instr} {s t u : State} (h1 : Reaches i s t) (h2 : Reaches i t u) : Reaches i s u :=
  ⟨h1.choose + h2.choose, h1.choose_spec.trans h2.choose_spec⟩

theorem Reaches.refl (i : Instr) (s : State) : Reaches i s s := ⟨0, rfl⟩

theorem Reaches.completes {i : Instr} {s t u : State} (h1 : Reaches i s t) (h2 : Completes i t u) : Completes i s u := by
  obtain ⟨n, h1⟩ := h1
  obtain ⟨m, v, h2, h3, h4⟩ := h2
  exact ⟨n + m, v, h1.trans h2, h3, h4⟩

theorem reaches_line {i : Instr} {ops : List Micro} {s t : State} {c : Bool} (hb : s.seqBusy = true) (ht : s.todo = [])
    (hl : lineOf i s = ops) (hne : ops ≠ []) (hc : csRun s.cs ops = some c) (he : effects ops s = t) : Reaches i s t :=
  ⟨_, he ▸ goes_line hb ht hl hne hc⟩

/-- An idle sequencer takes the instruction. -/
theorem reaches_take {i : Instr} {s : State} (hb : s.seqBusy = false) : Reaches i s (takeOf i s) :=
  ⟨1, takeOf i s, exec_idle hb, by unfold takeOf; split <;> rfl, rfl⟩

/-- A line that ends with the sequencer idle completes the instruction. -/
theorem completes_line {i : Instr} {ops : List Micro} {m : Micro} {s t : State} {c : Bool} (hb : s.seqBusy = true) (ht : s.todo = [])
    (hl : lineOf i s = ops ++ [m]) (hc : csRun s.cs ops = some c) (hm : m.legal (effects ops s) = true)
    (he : m.effect (effects ops s) = t) (hi : t.seqBusy = false) : Completes i s t := by
  cases ops with
  | nil =>
    refine ⟨0, s, rfl, ?_, hi⟩
    have hm : m.legal s = true := hm
    rw [exec_busy hb, hl, List.nil_append, runNext_line ht, runMicro_legal hm, ← he]
    exact congrArg _ (setTodo_self ((effects_todo [m] s).trans ht))
  | cons n ops =>
    obtain ⟨v, e, hv, hg⟩ := goes_todo (i := i) (s := s.setTodo (n :: ops ++ [m])) (rest := [m]) (ops := n :: ops) hb hc rfl
    rw [effects_setTodo, setTodo_setTodo] at hg
    refine ⟨(n :: ops).length, _, ⟨v, (exec_head hb ht hl) ▸ e, hv, hg⟩, ?_, hi⟩
    have hb' : ((effects (n :: ops) s).setTodo [m]).seqBusy = true := (effects_csRun hc).1.trans hb
    rw [exec_busy hb', runNext_todo rfl, setTodo_setTodo, runMicro_legal hm, he]
    refine congrArg _ (setTodo_self ?_)
    rw [← he]
    exact (effects_todo [m] _).trans ((effects_todo _ s).trans ht)

/-! ### A run is determined -/

theorem Goes.unique {i : Instr} {n : Nat} {s t u : State} (h1 : Goes i n s t) (h2 : Goes i n s u) : t = u := by
  induction n generalizing s with
  | zero => exact h1.symm.trans h2
  | succ n ih =>
    obtain ⟨v, e, -, h1⟩ := h1
    obtain ⟨w, e', -, h2⟩ := h2
    rw [e] at e'
    injection e' with e'
    exact ih h1 (e' ▸ h2)

/-- An instruction completes in at most one way. -/
theorem Completes.unique {i : Instr} {s t u : State} (h1 : Completes i s t) (h2 : Completes i s u) : t = u := by
  obtain ⟨n, v, g1, e1, b1⟩ := h1
  obtain ⟨m, w, g2, e2, b2⟩ := h2
  induction n generalizing s m with
  | zero =>
    cases g1
    cases m with
    | zero => cases g2; rw [e1] at e2; injection e2
    | succ m =>
      obtain ⟨x, e, hb, -⟩ := g2
      rw [e1] at e
      injection e with e
      rw [e, hb] at b1
      cases b1
  | succ n ih =>
    obtain ⟨x, e, hb, g1⟩ := g1
    cases m with
    | zero =>
      cases g2
      rw [e] at e2
      injection e2 with e2
      rw [← e2, hb] at b2
      cases b2
    | succ m =>
      obtain ⟨y, e', -, g2⟩ := g2
      rw [e] at e'
      injection e' with e'
      exact ih g1 m (e' ▸ g2)

/-- A run that goes `n` events far has not completed before. -/
theorem Goes.le_of_ends {i : Instr} {n m : Nat} {s t u v : State} (h1 : Goes i n s u) (h2 : Goes i m s v) (he : exec i v = .next t)
    (hb : t.seqBusy = false) : n ≤ m := by
  induction n generalizing s m with
  | zero => exact Nat.zero_le m
  | succ n ih =>
    obtain ⟨x, e, hx, h1⟩ := h1
    cases m with
    | zero =>
      cases h2
      rw [he] at e
      injection e with e
      rw [e, hx] at hb
      cases hb
    | succ m =>
      obtain ⟨y, e', -, h2⟩ := h2
      rw [e] at e'
      injection e' with e'
      exact Nat.succ_le_succ (ih h1 (e' ▸ h2))

/-- A run that completes from a state it reaches. -/
theorem Completes.of_goes {i : Instr} {n : Nat} {s t u : State} (h1 : Goes i n s u) (h2 : Completes i s t) :
    Completes i u t := by
  obtain ⟨m, w, g2, e2, b2⟩ := h2
  induction n generalizing s m with
  | zero => cases h1; exact ⟨m, w, g2, e2, b2⟩
  | succ n ih =>
    obtain ⟨x, e, hb, g1⟩ := h1
    cases m with
    | zero =>
      cases g2
      rw [e] at e2
      injection e2 with e2
      rw [← e2, hb] at b2
      cases b2
    | succ m =>
      obtain ⟨y, e', -, g2⟩ := g2
      rw [e] at e'
      injection e' with e'
      exact ih g1 m (e' ▸ g2)

end Sys2Proof.Machine
end

