-- ==== Sys2Proof/Laws/Steps.lean ====
section
/-! SUPPORT. Steps of the block: the setting of `IRQ_PENDING` is a step of its own and commutes with the sequencer's events, so a run of
many steps of a busy sequencer is its events, one less than the steps where an edge set the latch, with the edges gathered beside them. -/

namespace Sys2Proof.Machine

/-- A state with other interrupt inputs: the latch at `b`, the samples of the line at `e`. -/
def State.withEdges (s : State) (b : Bool) (e : Source Bool) : State := { s with irqPending := b, pktEdge := e }

@[simp] theorem withEdges_self (s : State) : s.withEdges s.irqPending s.pktEdge = s := rfl
@[simp] theorem withEdges_withEdges (s : State) (b c : Bool) (e f : Source Bool) : (s.withEdges b e).withEdges c f = s.withEdges c f := rfl
@[simp] theorem withEdges_seqBusy (s : State) (b : Bool) (e : Source Bool) : (s.withEdges b e).seqBusy = s.seqBusy := rfl
@[simp] theorem withEdges_todo (s : State) (b : Bool) (e : Source Bool) : (s.withEdges b e).todo = s.todo := rfl
@[simp] theorem withEdges_running (s : State) (b : Bool) (e : Source Bool) : (s.withEdges b e).running = s.running := rfl
@[simp] theorem withEdges_irqPending (s : State) (b : Bool) (e : Source Bool) : (s.withEdges b e).irqPending = b := rfl
@[simp] theorem withEdges_pktEdge (s : State) (b : Bool) (e : Source Bool) : (s.withEdges b e).pktEdge = e := rfl

theorem effect_withEdges (m : Micro) (s : State) (b : Bool) (e : Source Bool) :
    m.effect (s.withEdges b e) = (m.effect s).withEdges b e := by
  cases m <;> rfl

theorem effects_withEdges (ops : List Micro) (s : State) (b : Bool) (e : Source Bool) :
    effects ops (s.withEdges b e) = (effects ops s).withEdges b e := by
  induction ops generalizing s with
  | nil => rfl
  | cons m ops ih => rw [effects, effect_withEdges, ih]; rfl

theorem legal_withEdges (m : Micro) (s : State) (b : Bool) (e : Source Bool) : m.legal (s.withEdges b e) = m.legal s := by
  cases m <;> rfl

theorem lineOf_withEdges (i : Instr) (s : State) (b : Bool) (e : Source Bool) : lineOf i (s.withEdges b e) = lineOf i s := by
  cases i <;> rfl

/-! ### One step -/

/-- A step in which an edge comes and none is pending sets the latch (R209). -/
theorem step_edge {s : State} (h : s.latches = true) : step s = .next (s.withEdges true s.pktEdge.advance) := by
  unfold State.latches State.edgeNow at h
  simp only [step, h, if_true]
  rfl

/-- Every other step is one event of the sequencer (R28, R175). -/
theorem step_quiet {s : State} (h : s.latches = false) : step s = sequencerStep (s.withEdges s.irqPending s.pktEdge.advance) := by
  unfold State.latches State.edgeNow at h
  simp only [step, h]
  rfl

theorem latches_of_noEdge {s : State} (h : s.edgeNow = false) : s.latches = false := by simp [State.latches, h]

theorem latches_of_pending {s : State} (h : s.irqPending = true) : s.latches = false := by simp [State.latches, h]

theorem latches_iff {s : State} : s.latches = true ↔ s.edgeNow = true ∧ s.irqPending = false := by simp [State.latches]

/-- An instruction neither reads nor writes the interrupt inputs. -/
theorem exec_withEdges {i : Instr} {s t : State} (b : Bool) (e : Source Bool) (h : exec i s = .next t) :
    exec i (s.withEdges b e) = .next (t.withEdges b e) := by
  by_cases hb : s.seqBusy = true
  · rw [exec_busy hb] at h
    obtain ⟨m, rest, hm, hl, rfl⟩ := runNext_next h
    rw [exec_busy (s := s.withEdges b e) hb, lineOf_withEdges]
    rcases hm with hm | ⟨ht, hm⟩
    · rw [runNext_todo (s := s.withEdges b e) hm, runMicro_legal ((legal_withEdges ..).trans hl), effect_withEdges]
      rfl
    · rw [hm, runNext_line (s := s.withEdges b e) ht, runMicro_legal ((legal_withEdges ..).trans hl), effect_withEdges]
      rfl
  · have hb : s.seqBusy = false := by simpa using hb
    rw [exec_idle hb] at h
    rw [exec_idle (s := s.withEdges b e) hb]
    injection h with h
    subst h
    unfold takeOf
    split <;> rfl

/-- An operation that goes on is still the one running. -/
theorem exec_keeps_running {i : Instr} {s t : State} (hb : s.seqBusy = true) (h : exec i s = .next t) (ht : t.seqBusy = true) :
    t.running = s.running := by
  rw [exec_busy hb] at h
  obtain ⟨m, rest, -, -, rfl⟩ := runNext_next h
  cases m <;> first | rfl | simp [Micro.effect] at ht

/-- A busy sequencer makes the first event it has left, whatever it runs (R175). -/
theorem sequencerStep_todo {s : State} {m : Micro} {rest : List Micro} (hb : s.seqBusy = true) (ht : s.todo = m :: rest)
    (hl : m.legal s = true) : sequencerStep s = .next ((m.effect s).setTodo rest) := by
  rw [sequencerStep, if_pos hb, stepBusy]
  split
  · rw [exec_busy hb, runNext_todo ht, runMicro_legal hl]
  · rw [runNext_todo ht, runMicro_legal hl]

/-- A busy sequencer at the head of a line begins it. -/
theorem sequencerStep_line {s : State} {i : Instr} {m : Micro} {rest : List Micro} (hb : s.seqBusy = true) (hr : s.running = some i)
    (ht : s.todo = []) (hl : lineOf i s = m :: rest) (hm : m.legal s = true) : sequencerStep s = .next ((m.effect s).setTodo rest) := by
  simp only [sequencerStep, hb, if_true, stepBusy, hr]
  rw [exec_busy hb, hl, runNext_line ht, runMicro_legal hm]

/-- An event of a busy sequencer, said once: the first event left, or the first of the running operation's line (R175). -/
theorem sequencerStep_busy {s t : State} (hb : s.seqBusy = true) (h : sequencerStep s = .next t) :
    ∃ m rest, (s.todo = m :: rest ∨ s.todo = [] ∧ ∃ i, s.running = some i ∧ lineOf i s = m :: rest) ∧ m.legal s = true ∧
      t = (m.effect s).setTodo rest := by
  rw [sequencerStep, if_pos hb, stepBusy] at h
  split at h
  · rename_i i hi
    rw [exec_busy hb] at h
    obtain ⟨m, rest, hm, hl, ht⟩ := runNext_next h
    exact ⟨m, rest, hm.imp id fun h => ⟨h.1, i, hi, h.2⟩, hl, ht⟩
  · obtain ⟨m, rest, hm, hl, ht⟩ := runNext_next h
    refine ⟨m, rest, .inl (hm.resolve_right ?_), hl, ht⟩
    rintro ⟨-, h⟩
    cases h

/-- Service starts at an idle point with an edge pending (R211). -/
theorem sequencerStep_service {s : State} (hb : s.seqBusy = false) (hi : s.irqPending = true) :
    sequencerStep s = .next (beginService s) := by simp [sequencerStep, hb, hi]

/-- At an idle point with no edge pending the presented access runs. -/
theorem sequencerStep_access {s : State} {bytes : List Byte} {i : Instr} (hb : s.seqBusy = false) (hi : s.irqPending = false)
    (ha : s.access = some bytes) (hd : decode s.par.layout .hdr bytes = .ok i []) :
    sequencerStep s = exec i { s with access := none } := by
  rw [sequencerStep, if_neg (by simp [hb]), if_neg (by simp [hi]), stepIdle, ha]
  simp [stepPort, hd]

/-- At an idle point with no edge pending the request at the port is taken. -/
theorem sequencerStep_request {s : State} {r : Request} {rest : List Request} {i : Instr} (hb : s.seqBusy = false)
    (hi : s.irqPending = false) (ha : s.access = none) (hr : s.requests = r :: rest) (hd : decode s.par.layout .req r.bytes = .ok i []) :
    sequencerStep s = exec i ({ s with requests := rest }.loadBuffers i r) := by
  rw [sequencerStep, if_neg (by simp [hb]), if_neg (by simp [hi]), stepIdle, ha, hr]
  simp [stepPort, hd]

theorem stepPort_next {ly : Layout} {p : Port} {bytes : List Byte} {t : State} {run : Instr → Host.Outcome State Fault Refusal}
    (h : stepPort ly p bytes run = .next t) : ∃ i, decode ly p bytes = .ok i [] ∧ run i = .next t := by
  unfold stepPort at h
  split at h
  · exact ⟨_, ‹_›, h⟩
  · cases h
  · cases h

/-- An idle sequencer, said once: it begins a service, takes the presented access, stays idle, or takes a request (R215). -/
theorem sequencerStep_idle {s t : State} (hb : s.seqBusy = false) (h : sequencerStep s = .next t) :
    (s.irqPending = true ∧ t = beginService s) ∨
    (s.irqPending = false ∧
      ((∃ bytes i, s.access = some bytes ∧ decode s.par.layout .hdr bytes = .ok i [] ∧ t = takeOf i { s with access := none }) ∨
        (s.access = none ∧ s.requests = [] ∧ t = s) ∨
        ∃ r rest i, s.access = none ∧ s.requests = r :: rest ∧ decode s.par.layout .req r.bytes = .ok i [] ∧
          t = takeOf i ({ s with requests := rest }.loadBuffers i r))) := by
  by_cases hi : s.irqPending = true
  · rw [sequencerStep_service hb hi] at h
    injection h with h
    exact .inl ⟨hi, h.symm⟩
  have hi : s.irqPending = false := by simpa using hi
  refine .inr ⟨hi, ?_⟩
  rw [sequencerStep, if_neg (by simp [hb]), if_neg (by simp [hi]), stepIdle] at h
  split at h
  · rename_i bytes ha
    obtain ⟨i, hd, h⟩ := stepPort_next h
    rw [exec_idle (by exact hb)] at h
    injection h with h
    exact .inl ⟨_, i, ha, hd, h.symm⟩
  · rename_i ha
    split at h
    · rename_i hr
      injection h with h
      exact .inr (.inl ⟨ha, hr, h.symm⟩)
    · rename_i r rest hr
      obtain ⟨i, hd, h⟩ := stepPort_next h
      rw [exec_idle (by exact hb)] at h
      injection h with h
      exact .inr (.inr ⟨r, rest, i, ha, hr, hd, h.symm⟩)

/-- A step, said once: it sets the latch (R209), or it is one event of the sequencer. -/
theorem step_cases {s t : State} (h : step s = .next t) :
    (s.latches = true ∧ t = s.withEdges true s.pktEdge.advance) ∨
    (s.latches = false ∧ sequencerStep (s.withEdges s.irqPending s.pktEdge.advance) = .next t) := by
  by_cases he : s.latches = true
  · rw [step_edge he] at h
    injection h with h
    exact .inl ⟨he, h.symm⟩
  · have he : s.latches = false := by simpa using he
    rw [step_quiet he] at h
    exact .inr ⟨he, h⟩

/-! ### Runs -/

theorem run_succ {n : Nat} {s t : State} (h : step s = .next t) : core.run (n + 1) s = core.run n t := by
  have hc : core.step s = .next t := h
  simp only [Host.Core.run]
  rw [hc]

theorem edges_succ (s : State) (n : Nat) : s.edges (n + 1) = s.edgeNow :: s.pktEdge.advance.upcoming Config.packetEdge n := rfl

@[simp] theorem events_zero (s : State) : s.events 0 = 0 := by simp [State.events]

/-- The step that sets the latch is no event. -/
theorem events_latch {s : State} (h : s.latches = true) (n : Nat) :
    s.events (n + 1) = (s.withEdges true s.pktEdge.advance).events n := by
  obtain ⟨he, hi⟩ := latches_iff.mp h
  simp [State.events, edges_succ, he, hi]

/-- Every other step is one. -/
theorem events_quiet {s : State} (h : s.latches = false) (n : Nat) :
    s.events (n + 1) = (s.withEdges s.irqPending s.pktEdge.advance).events n + 1 := by
  cases hi : s.irqPending
  · have he : s.edgeNow = false := by simpa [State.latches, hi] using h
    have hn : ((s.pktEdge.advance.upcoming Config.packetEdge n).any id).toNat ≤ n := by
      cases n with
      | zero => simp [Source.upcoming]
      | succ n => exact (Bool.toNat_le _).trans (by omega)
    rw [State.events, State.events, edges_succ, withEdges_irqPending, hi, he]
    simp only [State.edges, withEdges_pktEdge, List.any_cons, id_eq, Bool.false_or, Bool.false_eq_true, if_false]
    omega
  · simp [State.events, hi]

/-- The edges of the next steps, gathered in the latch over one step. -/
theorem pending_succ (s : State) (n : Nat) :
    (s.irqPending || (s.edges (n + 1)).any id) =
      ((s.irqPending || s.edgeNow) || (s.pktEdge.advance.upcoming Config.packetEdge n).any id) := by
  simp [edges_succ, Bool.or_assoc]

/-- A step that is an event finds the latch as it leaves it, whether an edge comes or not. -/
theorem pending_quiet {s : State} (h : s.latches = false) : (s.irqPending || s.edgeNow) = s.irqPending := by
  cases hi : s.irqPending <;> simp_all [State.latches]

/-- The events `ops` in a row from `s`: busy before every one, and every one legal. -/
def RunsAll : List Micro → State → Prop
  | [], _ => True
  | m :: rest, s => s.seqBusy = true ∧ m.legal s = true ∧ RunsAll rest (m.effect s)

theorem runsAll_withEdges {ops : List Micro} {s : State} {b : Bool} {e : Source Bool} (h : RunsAll ops s) :
    RunsAll ops (s.withEdges b e) := by
  induction ops generalizing s with
  | nil => trivial
  | cons m ops ih => exact ⟨h.1, (legal_withEdges ..).trans h.2.1, by rw [effect_withEdges]; exact ih h.2.2⟩

theorem runsAll_setTodo {ops r : List Micro} {s : State} (h : RunsAll ops s) : RunsAll ops (s.setTodo r) := by
  induction ops generalizing s with
  | nil => trivial
  | cons m ops ih => exact ⟨h.1, (legal_setTodo ..).trans h.2.1, by rw [effect_setTodo]; exact ih h.2.2⟩

/-- A run of `n` steps makes the events that are left, where they are as many as the steps make, and gathers the edges. -/
theorem run_todo {ops : List Micro} {n : Nat} {s : State} (ht : s.todo = ops) (hr : RunsAll ops s) (hn : s.events n = ops.length) :
    core.run n s = .next (((effects ops s).setTodo []).withEdges (s.irqPending || (s.edges n).any id) (s.pktEdge.skip n)) := by
  induction n generalizing s ops with
  | zero =>
    have : ops = [] := List.length_eq_zero_iff.mp (by simpa using hn.symm)
    subst this
    show Host.Outcome.next s = _
    rw [effects, setTodo_self ht]
    simp [State.edges, Source.upcoming, Source.skip]
    rfl
  | succ n ih =>
    rw [pending_succ]
    by_cases he : s.latches = true
    · rw [events_latch he] at hn
      rw [run_succ (step_edge he), ih (s := s.withEdges true s.pktEdge.advance) ht (runsAll_withEdges hr) hn, effects_withEdges,
        (latches_iff.mp he).1]
      simp [State.edges, State.setTodo, Source.skip, State.withEdges]
    · have he : s.latches = false := by simpa using he
      rw [events_quiet he] at hn
      cases ops with
      | nil => simp at hn
      | cons m ops =>
        obtain ⟨hb, hm, hr⟩ := hr
        have hp : (m.effect s).irqPending = s.irqPending := by cases m <;> rfl
        have hs := (step_quiet he).trans (sequencerStep_todo (s := s.withEdges s.irqPending s.pktEdge.advance) hb ht
          ((legal_withEdges ..).trans hm))
        rw [effect_withEdges] at hs
        rw [run_succ hs, ih (s := ((m.effect s).withEdges s.irqPending s.pktEdge.advance).setTodo ops) (ops := ops) rfl
          (runsAll_setTodo (runsAll_withEdges hr)) (Nat.succ.inj hn), effects_setTodo,
          effects_withEdges, pending_quiet he]
        simp [State.edges, State.setTodo, State.withEdges, Source.skip, effects]

end Sys2Proof.Machine
end

