-- ==== Sys2Proof/Laws/Keeps.lean ====
section
/-! SUPPORT. What an event leaves alone, and that every line of every operation keeps to the order that `follows` states: exchanges inside
the scope, the result registers in the last line, one line to go on with. -/

namespace Sys2Proof.Machine

/-! ### What no event, or one event alone, writes -/

section
variable (m : Micro) (s : State)

theorem effect_par : (m.effect s).par = s.par := by cases m <;> rfl
theorem effect_op : (m.effect s).op = s.op := by cases m <;> rfl
theorem effect_irqPending : (m.effect s).irqPending = s.irqPending := by cases m <;> rfl
theorem effect_pktEdge : (m.effect s).pktEdge = s.pktEdge := by cases m <;> rfl
theorem effect_requests : (m.effect s).requests = s.requests := by cases m <;> rfl
theorem effect_access : (m.effect s).access = s.access := by cases m <;> rfl
theorem effect_hdr : (m.effect s).hdr = s.hdr := by cases m <;> rfl
theorem effect_pay : (m.effect s).pay = s.pay := by cases m <;> rfl
theorem effect_todo : (m.effect s).todo = s.todo := by cases m <;> rfl

theorem effect_rssiLast (h : m ≠ .setRssi) : (m.effect s).rssiLast = s.rssiLast := by cases m <;> first | rfl | exact absurd rfl h
theorem effect_lqiLast (h : m ≠ .setLqi) : (m.effect s).lqiLast = s.lqiLast := by cases m <;> first | rfl | exact absurd rfl h
theorem effect_handlerReg (h : ∀ r, m ≠ .setHandler r) : (m.effect s).handlerReg = s.handlerReg := by
  cases m <;> first | rfl | exact absurd rfl (h _)
theorem effect_dst (h : ∀ k, m ≠ .store k) : (m.effect s).dst = s.dst := by
  cases m <;> first | rfl | exact absurd rfl (h _)
theorem effect_resKind (h : ∀ kind, m ≠ .setKind kind) : (m.effect s).resKind = s.resKind := by
  cases m <;> first | rfl | exact absurd rfl (h _)
theorem effect_resVal (h : ∀ val, m ≠ .setVal val) : (m.effect s).resVal = s.resVal := by
  cases m <;> first | rfl | exact absurd rfl (h _)

/-- An event adds at most one entry to the trace (R2, R12). -/
theorem effect_trace : (m.effect s).trace = s.trace ∨ ∃ e, (m.effect s).trace = s.trace ++ [e] := by
  cases m <;> first | exact .inl rfl | exact .inr ⟨_, rfl⟩

end

/-! ### Lists of events that `follows` accepts -/

/-- An exchange or a write of the latch. -/
def Micro.inert : Micro → Bool
  | .xfer _ _ => true
  | .latchState => true
  | .latchFifo => true
  | _ => false

theorem follows_inert {i : Option Instr} {k : Nat} {ops rest : List Micro} (h : ops.all Micro.inert = true) :
    follows i k true (ops ++ rest) = follows i k true rest := by
  induction ops with
  | nil => rfl
  | cons m ops ih =>
    simp only [List.all_cons, Bool.and_eq_true] at h
    have ih := ih h.2
    cases m <;> simp_all [Micro.inert, follows]

theorem inert_hdrXfer (hb : Byte) : (hdrXfer hb).all Micro.inert = true := rfl
theorem inert_strobe (ly : Layout) (a : Byte) : (strobe ly a).all Micro.inert = true := rfl
theorem inert_flushRx (ly : Layout) : (flushRx ly).all Micro.inert = true := rfl
theorem inert_singleWrite (ly : Layout) (a v : Byte) : (singleWrite ly a v).all Micro.inert = true := rfl
theorem inert_singleRead (ly : Layout) (a : Byte) (into : Bound) : (singleRead ly a into).all Micro.inert = true := rfl
theorem inert_burstWrite (ly : Layout) (a : Byte) (t : List Sent) : (burstWrite ly a t).all Micro.inert = true := by
  simp [burstWrite, inert_hdrXfer, Micro.inert]
theorem inert_burstRead (ly : Layout) (a : Byte) (n : Nat) (into : Bound) : (burstRead ly a n into).all Micro.inert = true := by
  simp [burstRead, inert_hdrXfer, Micro.inert]

section
variable {i : Option Instr} {k : Nat} {rest : List Micro} {ly : Layout}

theorem follows_strobe {a : Byte} : follows i k true (strobe ly a ++ rest) = follows i k true rest := follows_inert (inert_strobe ..)
theorem follows_flushRx : follows i k true (flushRx ly ++ rest) = follows i k true rest := follows_inert (inert_flushRx _)
theorem follows_singleWrite {a v : Byte} : follows i k true (singleWrite ly a v ++ rest) = follows i k true rest :=
  follows_inert (inert_singleWrite ..)
theorem follows_singleRead {a : Byte} {into : Bound} : follows i k true (singleRead ly a into ++ rest) = follows i k true rest :=
  follows_inert (inert_singleRead ..)
theorem follows_burstWrite {a : Byte} {t : List Sent} : follows i k true (burstWrite ly a t ++ rest) = follows i k true rest :=
  follows_inert (inert_burstWrite ..)
theorem follows_burstRead {a : Byte} {n : Nat} {into : Bound} :
    follows i k true (burstRead ly a n into ++ rest) = follows i k true rest := follows_inert (inert_burstRead ..)

end

theorem follows_burstEnd {i : Option Instr} {k : Nat} {par : Params} {rest : List Micro} :
    follows i k true (burstEnd par ++ rest) = follows i k true rest := by
  unfold burstEnd; split <;> simp [follows]

theorem follows_receivePayload {C k : Nat} {ly : Layout} {n : Nat} {rest : List Micro} :
    follows (some (.receive C)) k true (receivePayload ly n ++ rest) = follows (some (.receive C)) k true rest := by
  rw [receivePayload, List.append_assoc, follows_inert (inert_hdrXfer _)]
  induction List.range n with
  | nil => rfl
  | cons j js ih => simpa [follows] using ih

theorem lineHead_lt {i : Instr} {k : Nat} {c : Bool} (h : lineHead i k c = true) : k < (csLines i).length := by
  simp only [lineHead, beq_iff_eq] at h
  exact (List.getElem?_eq_some_iff.mp h).1

/-- The lines of a presented access. -/
theorem follows_accessLine {i : Instr} {ops : List Micro} {s : State} (hp : i.port = .hdr)
    (hc : csLines i = [false, true, true, false]) (ho : ops.all Micro.inert = true) (h : lineHead i s.seqStep s.cs = true) :
    follows (some i) s.seqStep s.cs (accessLine ops s) = true := by
  have hl : ∀ k c, lineHead i k c = ([false, true, true, false][k]? == some c) := fun k c => by rw [lineHead, hc]
  have hlt := lineHead_lt h
  rw [hc] at hlt
  rw [hl] at h
  rw [accessLine]
  generalize s.seqStep = k at h hlt ⊢
  generalize s.cs = c at h ⊢
  match k with
  | 0 => simp at h; simp [← h, follows, mayGo, hl]
  | 1 => simp at h; subst h; exact (follows_inert (rest := [.goto 2]) ho).trans (by simp [follows, mayGo, hl])
  | 2 => simp at h; simp [← h, follows, mayGo, hl]
  | 3 => simp at h; simp [← h, follows, hp]
  | k + 4 => simp at hlt

/-- Every line of every operation keeps to the order of `follows`. -/
theorem line_follows {i : Instr} {s : State} (h : lineHead i s.seqStep s.cs = true) :
    follows (some i) s.seqStep s.cs (lineOf i s) = true := by
  cases i
  case wrSingle a v => exact follows_accessLine rfl rfl (inert_singleWrite ..) h
  case rdSingle a => exact follows_accessLine rfl rfl (inert_singleRead ..) h
  case wrBurst a t => exact follows_accessLine rfl rfl (inert_burstWrite ..) h
  case rdBurst a n => exact follows_accessLine rfl rfl (inert_burstRead ..) h
  case rdStatus a => exact follows_accessLine rfl rfl (inert_singleRead ..) h
  case sres => exact follows_accessLine rfl rfl (inert_strobe ..) h
  case sfstxon => exact follows_accessLine rfl rfl (inert_strobe ..) h
  case sxoff => exact follows_accessLine rfl rfl (inert_strobe ..) h
  case scal => exact follows_accessLine rfl rfl (inert_strobe ..) h
  case srx => exact follows_accessLine rfl rfl (inert_strobe ..) h
  case stx => exact follows_accessLine rfl rfl (inert_strobe ..) h
  case sidle => exact follows_accessLine rfl rfl (inert_strobe ..) h
  case swor => exact follows_accessLine rfl rfl (inert_strobe ..) h
  case spwd => exact follows_accessLine rfl rfl (inert_strobe ..) h
  case sfrx => exact follows_accessLine rfl rfl (inert_strobe ..) h
  case sftx => exact follows_accessLine rfl rfl (inert_strobe ..) h
  case sworrst => exact follows_accessLine rfl rfl (inert_strobe ..) h
  case snop => exact follows_accessLine rfl rfl (inert_strobe ..) h
  all_goals
    have hlt := lineHead_lt h
    simp only [csLines, List.length_cons, List.length_nil, List.length_append, List.length_replicate] at hlt
    generalize hk : s.seqStep = k at h hlt ⊢
    generalize hc : s.cs = c at h ⊢
    interval_cases k <;> simp [lineHead, csLines, List.replicate] at h <;> subst h <;>
      simp [lineOf, initLine, onLine, offLine, writeRegisterLine, setCallbackLine, sendLine, receiveLine, discardLine, getRssiLine,
        answerLine, hk, waitReady, waitRX, statusRead, complete, raiseError, follows_strobe, follows_flushRx, follows_singleWrite,
        follows_singleRead, follows_burstWrite, follows_burstRead, follows_burstEnd, follows_receivePayload, follows, mayGo,
        lineHead, csLines, requestCode, List.replicate, -List.append_assoc] <;>
      (try split) <;> (try simp [follows, mayGo, lineHead, csLines, requestCode, List.replicate, follows_flushRx])
  -- what is left: INIT's line 3, the body of its loop
  unfold initEntry
  split <;> simp [follows_singleWrite, follows, mayGo, lineHead, csLines]

/-- What an event that `follows` accepts leaves, said once: the line goes on, the line is over and `STEP` is at the head of one, or the
sequencer is idle with the chip released. -/
theorem effect_follows {i : Option Instr} {k : Nat} {cs : Bool} {m : Micro} {rest : List Micro} {s : State}
    (hf : follows i k cs (m :: rest) = true) (hk : s.seqStep = k) (hc : s.cs = cs) (hr : s.running = i) (hb : s.seqBusy = true) :
    ((m.effect s).seqBusy = true ∧ (m.effect s).running = i ∧ rest ≠ [] ∧ (m.effect s).seqStep = k ∧
      follows i k (m.effect s).cs rest = true) ∨
    ((m.effect s).seqBusy = true ∧ (m.effect s).running = i ∧ rest = [] ∧
      (∃ k', m = .goto k' ∨ (m = .untilReady k' ∧ k' = k) ∨ (m = .untilRx k' ∧ k' = k)) ∧
      ∃ j, i = some j ∧ lineHead j (m.effect s).seqStep (m.effect s).cs = true) ∨
    ((m.effect s).seqBusy = false ∧ rest = [] ∧ (m.effect s).cs = false ∧ (m.effect s).seqStep = 0 ∧ (m.effect s).running = none) := by
  have fne : ∀ {cs}, follows i k cs rest = true → rest ≠ [] := by rintro cs h rfl; simp [follows] at h
  subst hk hc hr
  cases m
  case untilReady k' =>
    simp only [follows, Bool.and_eq_true] at hf
    obtain ⟨hf, he⟩ := hf
    right; left
    split at hf
    · rename_i j hj
      simp only [Bool.and_eq_true, beq_iff_eq] at hf
      obtain ⟨⟨rfl, h1⟩, h2⟩ := hf
      refine ⟨hb, rfl, by simpa using he, ⟨s.seqStep, by simp⟩, j, hj, ?_⟩
      simp only [Micro.effect]
      split
      · exact h1
      · exact h2
    · cases hf
  case untilRx k' =>
    simp only [follows, Bool.and_eq_true] at hf
    obtain ⟨hf, he⟩ := hf
    right; left
    split at hf
    · rename_i j hj
      simp only [Bool.and_eq_true, beq_iff_eq] at hf
      obtain ⟨⟨rfl, h1⟩, h2⟩ := hf
      refine ⟨hb, rfl, by simpa using he, ⟨s.seqStep, by simp⟩, j, hj, ?_⟩
      simp only [Micro.effect]
      split
      · exact h2
      · exact h1
    · cases hf
  case goto k' =>
    simp only [follows, Bool.and_eq_true] at hf
    obtain ⟨hf, he⟩ := hf
    right; left
    split at hf
    · rename_i j hj
      simp only [Bool.and_eq_true] at hf
      exact ⟨hb, rfl, by simpa using he, ⟨_, by simp; rfl⟩, j, hj, hf.2⟩
    · cases hf
  case finish =>
    simp only [follows, Bool.and_eq_true] at hf
    exact .inr (.inr ⟨rfl, by simpa using hf.2, (by simpa using hf.1.2 : s.cs = false), rfl, rfl⟩)
  case finishAccess =>
    simp only [follows, Bool.and_eq_true] at hf
    exact .inr (.inr ⟨rfl, by simpa using hf.2, (by simpa using hf.1.2 : s.cs = false), rfl, rfl⟩)
  case finishService =>
    simp only [follows, Bool.and_eq_true, decide_eq_true_eq] at hf
    exact .inr (.inr ⟨rfl, by simpa using hf.2, (by simpa using hf.1.2 : s.cs = false), (by simpa using hf.1.1.2 : s.seqStep = 0), hf.1.1.1⟩)
  case setKind kind =>
    simp only [follows, Bool.and_eq_true] at hf
    obtain ⟨⟨h1, h2⟩, h3⟩ := hf
    split at h3
    · left; refine ⟨hb, rfl, by simp, rfl, ?_⟩
      show follows s.running s.seqStep s.cs _ = true
      simp_all [follows]
    · cases h3
  case setVal val =>
    simp only [follows, Bool.and_eq_true] at hf
    obtain ⟨⟨h1, h2⟩, h3⟩ := hf
    split at h3
    · left; refine ⟨hb, rfl, by simp, rfl, ?_⟩
      show follows s.running s.seqStep s.cs _ = true
      simp_all [follows]
    · cases h3
  all_goals
    simp only [follows, Bool.and_eq_true] at hf
    left
    first
    | exact ⟨hb, rfl, fne hf, rfl, hf⟩
    | exact ⟨hb, rfl, fne hf.2, rfl, hf.2⟩

/-- The events a busy sequencer that meets the invariant makes are ones `follows` accepts. -/
theorem busy_follows {s : State} {i : Instr} {m : Micro} {rest : List Micro} (h : s.SequencerOk) (hb : s.seqBusy = true)
    (hm : s.todo = m :: rest ∨ s.todo = [] ∧ s.running = some i ∧ lineOf i s = m :: rest) :
    follows s.running s.seqStep s.cs (m :: rest) = true := by
  obtain ⟨h1, h2, -, -⟩ := h.2 hb
  rcases hm with hm | ⟨ht, hr, hl⟩
  · rw [← hm]
    exact h1 (by simp [hm])
  · obtain ⟨j, hj, hh⟩ := h2 ht
    rw [hr] at hj ⊢
    injection hj with hj
    subst hj
    rw [← hl]
    exact line_follows hh

/-- What an instruction does in a state of a run, said once: an idle sequencer takes it, a busy one makes an event that `follows`
accepts. -/
theorem exec_runs {i : Instr} {s t : State} (h : s.Runs i) (he : exec i s = .next t) :
    (s.seqBusy = false ∧ t = takeOf i s) ∨
    (s.seqBusy = true ∧ ∃ m rest, follows (some i) s.seqStep s.cs (m :: rest) = true ∧ m.legal s = true ∧
      t = (m.effect s).setTodo rest) := by
  by_cases hb : s.seqBusy = true
  · right
    rw [exec_busy hb] at he
    obtain ⟨m, rest, hm, hl, ht⟩ := runNext_next he
    have hr := h.2 hb
    refine ⟨hb, m, rest, ?_, hl, ht⟩
    rw [← hr]
    exact busy_follows h.1 hb (hm.imp id fun h => ⟨h.1, hr, h.2⟩)
  · left
    have hb : s.seqBusy = false := by simpa using hb
    rw [exec_idle hb] at he
    injection he with he
    exact ⟨hb, he.symm⟩

end Sys2Proof.Machine
end

