-- ==== Sys2Proof/Laws/PerInstr.lean ====
section
/-! SUPPORT. Statements made per instruction. Family `TableRow`: the first byte of every well-formed instruction's encoding lies on its
row of the opcode table, which is written in the reference layout: it agrees with the row's match value in every bit of the row's mask. -/

namespace Sys2Proof

/-- The match value and the mask of an instruction's row in spec/opcode_table.json. -/
def Laws.tableRow : Instr → Byte × Byte
  | .wrSingle _ _ => (0x00, 0xC0)
  | .rdSingle _ => (0x80, 0xC0)
  | .wrBurst _ _ => (0x40, 0xC0)
  | .rdBurst _ _ => (0xC0, 0xC0)
  | .rdStatus _ => (0xC0, 0xC0)
  | .sres => (0x30, 0xFF)
  | .sfstxon => (0x31, 0xFF)
  | .sxoff => (0x32, 0xFF)
  | .scal => (0x33, 0xFF)
  | .srx => (0x34, 0xFF)
  | .stx => (0x35, 0xFF)
  | .sidle => (0x36, 0xFF)
  | .swor => (0x38, 0xFF)
  | .spwd => (0x39, 0xFF)
  | .sfrx => (0x3A, 0xFF)
  | .sftx => (0x3B, 0xFF)
  | .sworrst => (0x3C, 0xFF)
  | .snop => (0x3D, 0xFF)
  | .init => (0x1, 0x0F)
  | .radioOn => (0x2, 0x0F)
  | .radioOff => (0x3, 0x0F)
  | .setChannel _ => (0x4, 0x0F)
  | .setTxPower _ => (0x5, 0x0F)
  | .setAddress _ => (0x6, 0x0F)
  | .setCallback _ => (0x7, 0x0F)
  | .send _ _ => (0x8, 0x0F)
  | .receive _ => (0x9, 0x0F)
  | .discard => (0xA, 0x0F)
  | .getRssi => (0xB, 0x0F)
  | .getLastRssi => (0xC, 0x0F)
  | .getLastLqi => (0xD, 0x0F)
  | .isChannelClear => (0xE, 0x0F)
  | .reserved0 => (0x0, 0x0F)
  | .reservedF => (0xF, 0x0F)

/-- The first byte of the encoding lies on the instruction's row. -/
def Laws.TableRow.Statement (i : Instr) : Prop :=
  i.wf .reference = true → ∃ b rest, encode .reference i = b :: rest ∧ b &&& (Laws.tableRow i).2 = (Laws.tableRow i).1

theorem Laws.wrSingle_onRow : ∀ a : Byte, Machine.isRegister .reference a = true → Machine.encodeHeader .reference a .wrSingle &&& 0xC0#8 = 0x00#8 := by
  decide

theorem Laws.rdSingle_onRow : ∀ a : Byte, Machine.isRegister .reference a = true → Machine.encodeHeader .reference a .rdSingle &&& 0xC0#8 = 0x80#8 := by
  decide

theorem Laws.wrBurst_onRow : ∀ a : Byte, Machine.isRegister .reference a = true → Machine.encodeHeader .reference a .wrBurst &&& 0xC0#8 = 0x40#8 := by
  decide

theorem Laws.rdBurst_onRow : ∀ a : Byte, Machine.isRegister .reference a = true → Machine.encodeHeader .reference a .rdBurst &&& 0xC0#8 = 0xC0#8 := by
  decide

theorem Laws.rdStatus_onRow : ∀ a : Byte, Machine.isStatus .reference a = true → Machine.encodeHeader .reference a .rdSingle &&& 0xC0#8 = 0xC0#8 := by
  decide

theorem Laws.TableRow.wrSingle (a v : Byte) : Laws.TableRow.Statement (.wrSingle a v) :=
  fun h => ⟨_, _, rfl, Laws.wrSingle_onRow a h⟩

theorem Laws.TableRow.rdSingle (a : Byte) : Laws.TableRow.Statement (.rdSingle a) :=
  fun h => ⟨_, _, rfl, Laws.rdSingle_onRow a h⟩

theorem Laws.TableRow.wrBurst (a : Byte) (t : List Byte) : Laws.TableRow.Statement (.wrBurst a t) :=
  fun h => ⟨_, _, rfl, Laws.wrBurst_onRow a (by simp [Instr.wf] at h; exact h.1)⟩

theorem Laws.TableRow.rdBurst (a : Byte) (n : Nat) : Laws.TableRow.Statement (.rdBurst a n) :=
  fun h => ⟨_, _, rfl, Laws.rdBurst_onRow a (by simp [Instr.wf] at h; exact h.1)⟩

theorem Laws.TableRow.rdStatus (a : Byte) : Laws.TableRow.Statement (.rdStatus a) :=
  fun h => ⟨_, _, rfl, Laws.rdStatus_onRow a h⟩

theorem Laws.TableRow.sres : Laws.TableRow.Statement .sres :=
  fun _ => ⟨_, _, rfl, by simp only [Laws.tableRow]; decide⟩

theorem Laws.TableRow.sfstxon : Laws.TableRow.Statement .sfstxon :=
  fun _ => ⟨_, _, rfl, by simp only [Laws.tableRow]; decide⟩

theorem Laws.TableRow.sxoff : Laws.TableRow.Statement .sxoff :=
  fun _ => ⟨_, _, rfl, by simp only [Laws.tableRow]; decide⟩

theorem Laws.TableRow.scal : Laws.TableRow.Statement .scal :=
  fun _ => ⟨_, _, rfl, by simp only [Laws.tableRow]; decide⟩

theorem Laws.TableRow.srx : Laws.TableRow.Statement .srx :=
  fun _ => ⟨_, _, rfl, by simp only [Laws.tableRow]; decide⟩

theorem Laws.TableRow.stx : Laws.TableRow.Statement .stx :=
  fun _ => ⟨_, _, rfl, by simp only [Laws.tableRow]; decide⟩

theorem Laws.TableRow.sidle : Laws.TableRow.Statement .sidle :=
  fun _ => ⟨_, _, rfl, by simp only [Laws.tableRow]; decide⟩

theorem Laws.TableRow.swor : Laws.TableRow.Statement .swor :=
  fun _ => ⟨_, _, rfl, by simp only [Laws.tableRow]; decide⟩

theorem Laws.TableRow.spwd : Laws.TableRow.Statement .spwd :=
  fun _ => ⟨_, _, rfl, by simp only [Laws.tableRow]; decide⟩

theorem Laws.TableRow.sfrx : Laws.TableRow.Statement .sfrx :=
  fun _ => ⟨_, _, rfl, by simp only [Laws.tableRow]; decide⟩

theorem Laws.TableRow.sftx : Laws.TableRow.Statement .sftx :=
  fun _ => ⟨_, _, rfl, by simp only [Laws.tableRow]; decide⟩

theorem Laws.TableRow.sworrst : Laws.TableRow.Statement .sworrst :=
  fun _ => ⟨_, _, rfl, by simp only [Laws.tableRow]; decide⟩

theorem Laws.TableRow.snop : Laws.TableRow.Statement .snop :=
  fun _ => ⟨_, _, rfl, by simp only [Laws.tableRow]; decide⟩

theorem Laws.TableRow.init : Laws.TableRow.Statement .init :=
  fun _ => ⟨_, _, rfl, by simp only [Laws.tableRow]; decide⟩

theorem Laws.TableRow.radioOn : Laws.TableRow.Statement .radioOn :=
  fun _ => ⟨_, _, rfl, by simp only [Laws.tableRow]; decide⟩

theorem Laws.TableRow.radioOff : Laws.TableRow.Statement .radioOff :=
  fun _ => ⟨_, _, rfl, by simp only [Laws.tableRow]; decide⟩

theorem Laws.TableRow.setChannel (n : Byte) : Laws.TableRow.Statement (.setChannel n) :=
  fun _ => ⟨_, _, rfl, by simp only [Laws.tableRow]; decide⟩

theorem Laws.TableRow.setTxPower (level : Byte) : Laws.TableRow.Statement (.setTxPower level) :=
  fun _ => ⟨_, _, rfl, by simp only [Laws.tableRow]; decide⟩

theorem Laws.TableRow.setAddress (addr : Byte) : Laws.TableRow.Statement (.setAddress addr) :=
  fun _ => ⟨_, _, rfl, by simp only [Laws.tableRow]; decide⟩

theorem Laws.TableRow.setCallback (r : Bool) : Laws.TableRow.Statement (.setCallback r) :=
  fun _ => ⟨_, _, rfl, by simp only [Laws.tableRow]; decide⟩

theorem Laws.TableRow.send (h p : Nat) : Laws.TableRow.Statement (.send h p) :=
  fun _ => ⟨_, _, rfl, by simp only [Laws.tableRow]; decide⟩

theorem Laws.TableRow.receive (C : Nat) : Laws.TableRow.Statement (.receive C) :=
  fun _ => ⟨_, _, rfl, by simp only [Laws.tableRow]; decide⟩

theorem Laws.TableRow.discard : Laws.TableRow.Statement .discard :=
  fun _ => ⟨_, _, rfl, by simp only [Laws.tableRow]; decide⟩

theorem Laws.TableRow.getRssi : Laws.TableRow.Statement .getRssi :=
  fun _ => ⟨_, _, rfl, by simp only [Laws.tableRow]; decide⟩

theorem Laws.TableRow.getLastRssi : Laws.TableRow.Statement .getLastRssi :=
  fun _ => ⟨_, _, rfl, by simp only [Laws.tableRow]; decide⟩

theorem Laws.TableRow.getLastLqi : Laws.TableRow.Statement .getLastLqi :=
  fun _ => ⟨_, _, rfl, by simp only [Laws.tableRow]; decide⟩

theorem Laws.TableRow.isChannelClear : Laws.TableRow.Statement .isChannelClear :=
  fun _ => ⟨_, _, rfl, by simp only [Laws.tableRow]; decide⟩

theorem Laws.TableRow.reserved0 : Laws.TableRow.Statement .reserved0 :=
  fun _ => ⟨_, _, rfl, by simp only [Laws.tableRow]; decide⟩

theorem Laws.TableRow.reservedF : Laws.TableRow.Statement .reservedF :=
  fun _ => ⟨_, _, rfl, by simp only [Laws.tableRow]; decide⟩

end Sys2Proof
end

