-- ==== Sys2Proof/Laws/Scope.lean ====
section
/-! SUPPORT. An operation inside its chip-select scope: one canonical form of the state, what the events of each primitive do to it, and
how a line leads from one canonical form to the next. The results of the instructions are read off these lemmas. -/

namespace Sys2Proof.Machine

/-- The state of an operation inside its scope: running over `s`, at the head of line `k` with the locals `l`, its bus script `acts`
recorded after the trace `tr`, the latch holding `st` and `ff`. -/
def State.inScope (s : State) (i : Instr) (code : BitVec 4) (k : Nat) (l : Locals) (tr : List Event) (acts : List Act)
    (st : BitVec 3) (ff : BitVec 4) : State :=
  { s with
      seqBusy := true, op := code, seqStep := k, running := some i, todo := [], locals := l, cs := true, stState := st, stFifo := ff
      miso := s.miso.skip (exchanges acts), trace := tr ++ play acts s.miso }

section
variable {s : State} {i : Instr} {code : BitVec 4} {k : Nat} {l : Locals} {tr : List Event}
  {acts : List Act} {st : BitVec 3} {ff : BitVec 4}

theorem inScope_answer : (s.inScope i code k l tr acts st ff).answer = s.answerAt (exchanges acts) := rfl

theorem xfer_inScope (o : Byte) (into : Bound) :
    (s.inScope i code k l tr acts st ff).xfer o into =
      s.inScope i code k (l.bind into (s.answerAt (exchanges acts))) tr (acts ++ outs [o]) st ff := by
  simp only [State.xfer, State.answer]
  simp [State.inScope, play_append, exchanges_append, advance_skip, outs, play, State.answerAt, exchanges]

theorem hdrXfer_inScope (hb : Byte) :
    effects (hdrXfer hb) (s.inScope i code k l tr acts st ff) =
      s.inScope i code k { l with s := s.answerAt (exchanges acts) } tr (acts ++ outs [hb])
        (stateField s.par.layout (s.answerAt (exchanges acts))) (fifoField s.par.layout (s.answerAt (exchanges acts))) := by
  simp only [hdrXfer, effects, Micro.effect, Sent.value, xfer_inScope]
  rfl

theorem strobe_inScope (a : Byte) :
    effects (strobe s.par.layout a) (s.inScope i code k l tr acts st ff) =
      s.inScope i code k { l with s := s.answerAt (exchanges acts) } tr (acts ++ outs [strobeByte s.par.layout a])
        (stateField s.par.layout (s.answerAt (exchanges acts))) (fifoField s.par.layout (s.answerAt (exchanges acts))) :=
  hdrXfer_inScope _

theorem singleWrite_inScope (a v : Byte) :
    effects (singleWrite s.par.layout a v) (s.inScope i code k l tr acts st ff) =
      s.inScope i code k { l with s := s.answerAt (exchanges acts) } tr (acts ++ writeActs s.par.layout a v)
        (stateField s.par.layout (s.answerAt (exchanges acts))) (fifoField s.par.layout (s.answerAt (exchanges acts))) := by
  simp only [singleWrite, effects_append, hdrXfer_inScope, effects, Micro.effect, Sent.value, xfer_inScope]
  simp [writeActs, outs, Locals.bind]

theorem singleRead_inScope (a : Byte) (into : Bound) :
    effects (singleRead s.par.layout a into) (s.inScope i code k l tr acts st ff) =
      s.inScope i code k (Locals.bind { l with s := s.answerAt (exchanges acts) } into (s.answerAt (exchanges acts + 1))) tr
        (acts ++ outs [encodeHeader s.par.layout a .rdSingle, s.par.layout.dummy])
        (stateField s.par.layout (s.answerAt (exchanges acts))) (fifoField s.par.layout (s.answerAt (exchanges acts))) := by
  simp only [singleRead, effects_append, hdrXfer_inScope, effects, Micro.effect, Sent.value, xfer_inScope]
  simp [outs, exchanges_append, exchanges]

/-- Exchanges whose answers are dropped send the bytes of `t` in order. -/
theorem sends_inScope (t : List Sent) :
    effects (t.map fun o => .xfer o .nowhere) (s.inScope i code k l tr acts st ff) =
      s.inScope i code k l tr (acts ++ outs (t.map (Sent.value s))) st ff := by
  induction t generalizing acts with
  | nil => simp [effects, outs]
  | cons o t ih =>
    have hv : o.value (s.inScope i code k l tr acts st ff) = o.value s := by cases o <;> rfl
    simp only [List.map_cons, effects, Micro.effect, xfer_inScope, hv, Locals.bind]
    rw [ih]
    simp [outs]

theorem burstWrite_inScope (a : Byte) (t : List Sent) :
    effects (burstWrite s.par.layout a t) (s.inScope i code k l tr acts st ff) =
      s.inScope i code k { l with s := s.answerAt (exchanges acts) } tr
        (acts ++ outs (encodeHeader s.par.layout a .wrBurst :: t.map (Sent.value s)))
        (stateField s.par.layout (s.answerAt (exchanges acts))) (fifoField s.par.layout (s.answerAt (exchanges acts))) := by
  simp only [burstWrite, effects_append, hdrXfer_inScope, sends_inScope]
  simp [outs]

theorem reads_t_inScope (o : Byte) (n : Nat) :
    effects (List.replicate n (.xfer (.byte o) .t)) (s.inScope i code k l tr acts st ff) =
      s.inScope i code k { l with t := l.t ++ (s.miso.skip (exchanges acts)).upcoming Config.chipAnswer n } tr
        (acts ++ outs (List.replicate n o)) st ff := by
  induction n generalizing acts l with
  | zero => simp [effects, outs, Source.upcoming]
  | succ n ih =>
    simp only [List.replicate_succ, effects, Micro.effect, Sent.value, xfer_inScope, Locals.bind]
    rw [ih]
    simp [outs, exchanges_append, exchanges, Source.upcoming, advance_skip, State.answerAt]

theorem reads_q_inScope (o : Byte) (n : Nat) :
    effects (List.replicate n (.xfer (.byte o) .q)) (s.inScope i code k l tr acts st ff) =
      s.inScope i code k { l with q := l.q ++ (s.miso.skip (exchanges acts)).upcoming Config.chipAnswer n } tr
        (acts ++ outs (List.replicate n o)) st ff := by
  induction n generalizing acts l with
  | zero => simp [effects, outs, Source.upcoming]
  | succ n ih =>
    simp only [List.replicate_succ, effects, Micro.effect, Sent.value, xfer_inScope, Locals.bind]
    rw [ih]
    simp [outs, exchanges_append, exchanges, Source.upcoming, advance_skip, State.answerAt]

theorem burstRead_t_inScope (a : Byte) (n : Nat) :
    effects (burstRead s.par.layout a n .t) (s.inScope i code k l tr acts st ff) =
      s.inScope i code k { l with s := s.answerAt (exchanges acts)
                                  t := l.t ++ (s.miso.skip (exchanges acts + 1)).upcoming Config.chipAnswer n } tr
        (acts ++ outs (encodeHeader s.par.layout a .rdBurst :: List.replicate n s.par.layout.dummy))
        (stateField s.par.layout (s.answerAt (exchanges acts))) (fifoField s.par.layout (s.answerAt (exchanges acts))) := by
  simp only [burstRead, effects_append, hdrXfer_inScope, reads_t_inScope]
  simp [outs, exchanges_append, exchanges]

theorem burstRead_q_inScope (a : Byte) (n : Nat) :
    effects (burstRead s.par.layout a n .q) (s.inScope i code k l tr acts st ff) =
      s.inScope i code k { l with s := s.answerAt (exchanges acts)
                                  q := l.q ++ (s.miso.skip (exchanges acts + 1)).upcoming Config.chipAnswer n } tr
        (acts ++ outs (encodeHeader s.par.layout a .rdBurst :: List.replicate n s.par.layout.dummy))
        (stateField s.par.layout (s.answerAt (exchanges acts))) (fifoField s.par.layout (s.answerAt (exchanges acts))) := by
  simp only [burstRead, effects_append, hdrXfer_inScope, reads_q_inScope]
  simp [outs, exchanges_append, exchanges]

theorem burstEnd_inScope :
    effects (burstEnd s.par) (s.inScope i code k l tr acts st ff) =
      s.inScope i code k l tr (acts ++ burstEndActs s.par) st ff := by
  by_cases h : s.par.burstEndPulse
  · simp [burstEnd, h, effects, Micro.effect, State.inScope, burstEndActs, State.release, State.select, play_append,
      exchanges_append, play, exchanges]
  · simp [burstEnd, State.inScope, burstEndActs, h, effects]

theorem flushRx_inScope :
    effects (flushRx s.par.layout) (s.inScope i code k l tr acts st ff) =
      s.inScope i code k { l with s := s.answerAt (exchanges acts + 2) } tr (acts ++ flushActs s.par.layout)
        (stateField s.par.layout (s.answerAt (exchanges acts + 2))) (fifoField s.par.layout (s.answerAt (exchanges acts + 2))) := by
  simp only [flushRx, effects_append, strobe_inScope]
  simp [flushActs, outs, exchanges_append, exchanges]

theorem goto_inScope (k' : Nat) :
    (s.inScope i code k l tr acts st ff).goto k' = s.inScope i code k' l tr acts st ff := rfl

theorem radio_inScope : (s.inScope i code k l tr acts st ff).radio = stateName st := rfl

/-! ### Chip select over the events of each primitive: 1 throughout, or pulsed -/

theorem csRun_hdrXfer (hb : Byte) : csRun true (hdrXfer hb) = some true := rfl

theorem csRun_strobe (ly : Layout) (a : Byte) : csRun true (strobe ly a) = some true := rfl

theorem csRun_singleWrite (ly : Layout) (a v : Byte) : csRun true (singleWrite ly a v) = some true := rfl

theorem csRun_singleRead (ly : Layout) (a : Byte) (into : Bound) : csRun true (singleRead ly a into) = some true := rfl

theorem csRun_sends (t : List Sent) (into : Bound) : csRun true (t.map fun o => .xfer o into) = some true := by
  induction t with
  | nil => rfl
  | cons o t ih => simpa [csRun] using ih

theorem csRun_burstWrite (ly : Layout) (a : Byte) (t : List Sent) : csRun true (burstWrite ly a t) = some true := by
  rw [burstWrite, csRun_append]
  simpa [csRun_hdrXfer] using csRun_sends t .nowhere

theorem csRun_burstRead (ly : Layout) (a : Byte) (n : Nat) (into : Bound) : csRun true (burstRead ly a n into) = some true := by
  rw [burstRead, csRun_append]
  have := csRun_sends (List.replicate n (Sent.byte ly.dummy)) into
  rw [List.map_replicate] at this
  simpa [csRun_hdrXfer] using this

theorem csRun_burstEnd (par : Params) : csRun true (burstEnd par) = some true := by
  unfold burstEnd; split <;> rfl

theorem csRun_flushRx (ly : Layout) : csRun true (flushRx ly) = some true := rfl

theorem csRun_waitRX (ly : Layout) (k : Nat) : csRun true (waitRX ly k) = some true := rfl

theorem csRun_receivePayload (ly : Layout) (n : Nat) : csRun true (receivePayload ly n) = some true := by
  rw [receivePayload, csRun_append, csRun_hdrXfer, Option.bind_some]
  have : ∀ ks : List Nat,
      csRun true (ks.flatMap fun k => [.xfer (.byte ly.dummy) .t, .store k]) = some true := by
    intro ks
    induction ks with
    | nil => rfl
    | cons k ks ih => simpa [csRun] using ih
  exact this _

/-! ### Lines -/

/-- A line inside a scope that ends by going to line `k'`. -/
theorem line_inScope {s' : State} {k' : Nat} {l' : Locals} {acts' : List Act} {st' : BitVec 3} {ff' : BitVec 4} {ops : List Micro}
    (hl : lineOf i (s.inScope i code k l tr acts st ff) = ops ++ [.goto k']) (hc : csRun true ops = some true)
    (he : effects ops (s.inScope i code k l tr acts st ff) = s'.inScope i code k l' tr acts' st' ff') :
    Reaches i (s.inScope i code k l tr acts st ff) (s'.inScope i code k' l' tr acts' st' ff') := by
  refine reaches_line (c := true) rfl rfl hl (by simp) ?_ ?_
  · show csRun true (ops ++ [.goto k']) = some true
    rw [csRun_append, hc]; rfl
  · rw [effects_append, he]; rfl

/-- A line inside a scope that only goes to line `k'`. -/
theorem goto_line {k' : Nat} (hl : lineOf i (s.inScope i code k l tr acts st ff) = [.goto k']) :
    Reaches i (s.inScope i code k l tr acts st ff) (s.inScope i code k' l tr acts st ff) :=
  line_inScope (ops := []) hl rfl rfl

/-- The poll of `WaitRX` inside a scope: one SNOP; the next line when the answer reports `RX`, else the same line. -/
theorem waitRX_line (hl : lineOf i (s.inScope i code k l tr acts st ff) = waitRX s.par.layout k) :
    Goes i 4 (s.inScope i code k l tr acts st ff)
      (s.inScope i code (if s.radioAt (exchanges acts) = .rx then k + 1 else k) { l with s := s.answerAt (exchanges acts) } tr
        (acts ++ pollActs s.par.layout 1) (stateField s.par.layout (s.answerAt (exchanges acts)))
        (fifoField s.par.layout (s.answerAt (exchanges acts)))) := by
  have h := goes_line (c := true) (s := s.inScope i code k l tr acts st ff) rfl rfl hl (by simp [waitRX]) (csRun_waitRX _ _)
  have e : effects (waitRX s.par.layout k) (s.inScope i code k l tr acts st ff) = s.inScope i code
      (if s.radioAt (exchanges acts) = .rx then k + 1 else k) { l with s := s.answerAt (exchanges acts) } tr
      (acts ++ pollActs s.par.layout 1) (stateField s.par.layout (s.answerAt (exchanges acts)))
      (fifoField s.par.layout (s.answerAt (exchanges acts))) := by
    rw [waitRX, effects_append, strobe_inScope]
    simp only [effects, Micro.effect, radio_inScope, goto_inScope, State.radioAt, decodeStatus]
    rfl
  rw [e] at h
  exact h

/-- The test of `WaitReady` inside a scope: no event; the next line when `NOT_READY` = 0, else the same line. -/
theorem waitReady_line (hl : lineOf i (s.inScope i code k l tr acts st ff) = waitReady k) :
    Goes i 1 (s.inScope i code k l tr acts st ff)
      ((s.skipReady 1).inScope i code (if s.notReadyAt 0 then k else k + 1) l tr acts st ff) :=
  goes_line (c := true) (s := s.inScope i code k l tr acts st ff) rfl rfl hl (by simp [waitReady]) rfl

/-- What an operation leaves once its script `acts` ran and its last two lines released chip select and completed. -/
def State.finished (s : State) (code : BitVec 4) (tr : List Event) (acts : List Act) (st : BitVec 3) (ff : BitVec 4)
    (kind : ResKind) (val : Nat) : State :=
  { s with
      seqBusy := false, op := code, seqStep := 0, running := none, todo := [], locals := Locals.empty, cs := false
      stState := st, stFifo := ff, miso := s.miso.skip (exchanges acts)
      trace := tr ++ play acts s.miso ++ [.rel], resKind := kind, resVal := val % 2 ^ s.par.layout.lenW }

/-- The last two lines of a request: it releases chip select, then completes with a result read from its locals. -/
theorem completes_inScope {kind : ResKind} {val : Nat}
    (h1 : lineOf i (s.inScope i code k l tr acts st ff) = [.release, .goto (k + 1)])
    (h2 : ∀ t : State, t.seqStep = k + 1 → t.locals = l → lineOf i t = complete kind val) :
    Completes i (s.inScope i code k l tr acts st ff) (s.finished code tr acts st ff kind val) := by
  refine Reaches.completes (reaches_line (c := false) rfl rfl h1 (by simp) rfl rfl) ?_
  exact completes_line (ops := [.setKind kind, .setVal val]) (m := .finish) (c := false) rfl rfl (h2 _ rfl rfl) rfl rfl rfl rfl

/-- The last two lines of a presented access. -/
theorem completes_access (h1 : lineOf i (s.inScope i s.op k l tr acts st ff) = [.release, .goto (k + 1)])
    (h2 : ∀ t : State, t.seqStep = k + 1 → lineOf i t = [.finishAccess]) :
    Completes i (s.inScope i s.op k l tr acts st ff)
      { s with
        seqBusy := false, seqStep := 0, running := none, todo := [], locals := l, cs := false
        stState := st, stFifo := ff, miso := s.miso.skip (exchanges acts), trace := tr ++ play acts s.miso ++ [.rel] } := by
  refine Reaches.completes (reaches_line (c := false) rfl rfl (ops := [.release, .goto (k + 1)]) ?_ (by simp) rfl rfl) ?_
  · exact h1
  · exact completes_line (ops := []) (m := .finishAccess) (c := false) rfl rfl (h2 _ rfl) rfl rfl rfl rfl

/-- An idle sequencer takes a request, selects the chip and goes to line `1`. -/
theorem start_inScope (hb : s.seqBusy = false) (hc : requestCode i = some code)
    (hl : ∀ t : State, t.seqStep = 0 → lineOf i t = [.select, .goto 1]) :
    Goes i 3 s (s.inScope i code 1 Locals.empty (s.trace ++ [.sel]) [] s.stState s.stFifo) := by
  have e : takeOf i s = s.take i code := by rw [takeOf, hc]
  refine Goes.trans (a := 1) (b := 2) ⟨_, exec_idle hb, by rw [e]; rfl, rfl⟩ ?_
  rw [e]
  have h := goes_line (c := true) (s := s.take i code) (i := i) rfl rfl (hl _ rfl) (by simp) rfl
  simp only [effects, Micro.effect] at h
  have e2 : (s.take i code).select.goto 1 = s.inScope i code 1 Locals.empty (s.trace ++ [.sel]) [] s.stState s.stFifo := by
    simp [State.take, State.select, State.goto, State.inScope, play, exchanges, Source.skip]
  rw [e2] at h
  exact h

/-- An idle sequencer takes a presented access, selects the chip and goes to line `1`. -/
theorem start_access (hb : s.seqBusy = false) (hc : requestCode i = none)
    (hl : ∀ t : State, t.seqStep = 0 → lineOf i t = [.select, .goto 1]) :
    Goes i 3 s (s.inScope i s.op 1 Locals.empty (s.trace ++ [.sel]) [] s.stState s.stFifo) := by
  have e : takeOf i s = s.takeAccess i := by rw [takeOf, hc]
  refine Goes.trans (a := 1) (b := 2) ⟨_, exec_idle hb, by rw [e]; rfl, rfl⟩ ?_
  rw [e]
  have h := goes_line (c := true) (s := s.takeAccess i) (i := i) rfl rfl (hl _ rfl) (by simp) rfl
  simp only [effects, Micro.effect] at h
  have e2 : (s.takeAccess i).select.goto 1 = s.inScope i s.op 1 Locals.empty (s.trace ++ [.sel]) [] s.stState s.stFifo := by
    simp [State.takeAccess, State.select, State.goto, State.inScope, play, exchanges, Source.skip]
  rw [e2] at h
  exact h

/-- A presented access whose events are `ops` runs them in a scope of its own and completes. -/
theorem access_completes {ops : Layout → List Micro} {j : Nat} (hb : s.seqBusy = false) (hc : requestCode i = none)
    (hl : ∀ t : State, lineOf i t = accessLine (ops t.par.layout) t) (hr : csRun true (ops s.par.layout) = some true)
    (he : effects (ops s.par.layout) (s.inScope i s.op 1 Locals.empty (s.trace ++ [.sel]) [] s.stState s.stFifo) =
      s.inScope i s.op 1 l (s.trace ++ [.sel]) acts (stateField s.par.layout (s.answerAt j)) (fifoField s.par.layout (s.answerAt j))) :
    Completes i s ((s.afterScope acts j).accessed l) := by
  refine Reaches.completes ⟨3, start_access hb hc fun t h => by rw [hl]; simp [accessLine, h]⟩ ?_
  refine Reaches.completes (line_inScope (k' := 2) (ops := ops s.par.layout) (by rw [hl]; rfl) hr he) ?_
  have := completes_access (s := s) (i := i) (k := 2) (l := l) (acts := acts) (tr := s.trace ++ [.sel])
    (st := stateField s.par.layout (s.answerAt j)) (ff := fifoField s.par.layout (s.answerAt j)) (by rw [hl]; rfl)
    (fun t h => by rw [hl]; simp [accessLine, h])
  simpa [State.accessed, State.afterScope, State.afterActs, State.latchedAt] using this

/-- The state a request that opened its scope leaves, in the words of the statements. -/
theorem finished_afterScope {kind : ResKind} {val : Nat} {j : Nat} :
    s.finished code (s.trace ++ [.sel]) acts (stateField s.par.layout (s.answerAt j)) (fifoField s.par.layout (s.answerAt j)) kind val =
      (s.afterScope acts j).completed code kind val := by
  simp [State.finished, State.afterScope, State.afterActs, State.latchedAt, State.completed]

/-- The state a request that waited in its scope leaves, in the words of the statements. -/
theorem finished_afterActs {kind : ResKind} {val : Nat} {j : Nat} :
    s.finished code s.trace acts (stateField s.par.layout (s.answerAt j)) (fifoField s.par.layout (s.answerAt j)) kind val =
      (s.afterActs acts j).completed code kind val := rfl

/-- An operation at the head of its waiting line is in the canonical form, with nothing recorded since. -/
theorem waiting_inScope (h : s.Waiting i) (hk : waitLine i = some k) :
    s = s.inScope i s.op k s.locals s.trace [] s.stState s.stFifo := by
  obtain ⟨hb, hc, hr, ht, hw⟩ := h
  rw [hk] at hw
  injection hw with hw
  cases s
  simp_all [State.inScope, play, exchanges, Source.skip]

end

end Sys2Proof.Machine
end

