-- ==== Sys2Proof/Laws/Runs.lean ====
section
/-! SUPPORT. Stretches of lines that several operations share: the two waits, the burst writes of a frame, and the lines of RECEIVE.
Each lemma leads from one canonical form (`State.inScope`) to the next. -/

namespace Sys2Proof.Machine

section
variable {s : State} {i : Instr} {code : BitVec 4} {k : Nat} {l : Locals} {tr : List Event}
  {acts : List Act} {st : BitVec 3} {ff : BitVec 4}

theorem pollActs_succ (ly : Layout) (n : Nat) : pollActs ly (n + 1) = pollActs ly 1 ++ pollActs ly n := by
  simp [pollActs, outs, List.replicate_succ]

theorem exchanges_pollActs (ly : Layout) (n : Nat) : exchanges (pollActs ly n) = n := by
  rw [pollActs, exchanges_outs, List.length_replicate]

/-- The poll loop on line `k`: after `n` polls that report any other state than `RX` the operation is on line `k` again. -/
theorem polls_goes (n : Nat)
    (hl : ∀ l acts st ff, lineOf i (s.inScope i code k l tr acts st ff) = waitRX s.par.layout k)
    (hno : ∀ j, j < n → s.radioAt (exchanges acts + j) ≠ .rx) :
    ∃ b st' ff', Goes i (4 * n) (s.inScope i code k l tr acts st ff)
      (s.inScope i code k { l with s := b } tr (acts ++ pollActs s.par.layout n) st' ff') := by
  induction n generalizing acts l st ff with
  | zero => exact ⟨l.s, st, ff, by simp [pollActs, outs, Goes]⟩
  | succ n ih =>
    have h := waitRX_line (hl l acts st ff)
    rw [if_neg (by simpa using hno 0 (Nat.succ_pos n))] at h
    obtain ⟨b, st', ff', h2⟩ := ih (acts := acts ++ pollActs s.par.layout 1) (l := { l with s := s.answerAt (exchanges acts) })
      (st := stateField s.par.layout (s.answerAt (exchanges acts))) (ff := fifoField s.par.layout (s.answerAt (exchanges acts)))
      (fun j hj => by
        have := hno (j + 1) (by omega)
        rwa [show exchanges acts + (j + 1) = exchanges (acts ++ pollActs s.par.layout 1) + j by
          rw [exchanges_append, exchanges_pollActs]; omega] at this)
    refine ⟨b, st', ff', ?_⟩
    have h3 := h.trans h2
    rwa [List.append_assoc, ← pollActs_succ, show 4 + 4 * n = 4 * (n + 1) by omega] at h3

theorem pollActs_snoc (ly : Layout) (n : Nat) : pollActs ly n ++ pollActs ly 1 = pollActs ly (n + 1) := by
  rw [pollActs, pollActs, pollActs, ← outs_append, List.replicate_append_replicate]

/-- The poll loop on line `k`: `n` polls that report any other state, then one that reports `RX`. -/
theorem polls_inScope (n : Nat)
    (hl : ∀ l acts st ff, lineOf i (s.inScope i code k l tr acts st ff) = waitRX s.par.layout k)
    (hno : ∀ j, j < n → s.radioAt (exchanges acts + j) ≠ .rx) (hrx : s.radioAt (exchanges acts + n) = .rx) :
    Reaches i (s.inScope i code k l tr acts st ff)
      (s.inScope i code (k + 1) { l with s := s.answerAt (exchanges acts + n) } tr (acts ++ pollActs s.par.layout (n + 1))
        (stateField s.par.layout (s.answerAt (exchanges acts + n))) (fifoField s.par.layout (s.answerAt (exchanges acts + n)))) := by
  obtain ⟨b, st', ff', h⟩ := polls_goes (l := l) (st := st) (ff := ff) n hl hno
  refine Reaches.trans ⟨_, h⟩ ⟨4, ?_⟩
  have h2 := waitRX_line (hl { l with s := b } (acts ++ pollActs s.par.layout n) st' ff')
  rw [exchanges_append, exchanges_pollActs, if_pos hrx, List.append_assoc, pollActs_snoc] at h2
  exact h2

theorem notReadyAt_skipReady (s : State) (a b : Nat) : (s.skipReady a).notReadyAt b = s.notReadyAt (a + b) := by
  simp [State.notReadyAt, State.skipReady, skip_add]

theorem skipReady_add (s : State) (a b : Nat) : (s.skipReady a).skipReady b = s.skipReady (a + b) := by
  simp [State.skipReady, skip_add]

/-- The ready loop on line `k`: after `n` tests that find `NOT_READY` = 1 the operation is on line `k` again; no bus event. -/
theorem ready_goes (n : Nat)
    (hl : ∀ s : State, lineOf i (s.inScope i code k l tr acts st ff) = waitReady k)
    (hno : ∀ j, j < n → s.notReadyAt j = true) :
    Goes i n (s.inScope i code k l tr acts st ff) ((s.skipReady n).inScope i code k l tr acts st ff) := by
  induction n generalizing s with
  | zero => rfl
  | succ n ih =>
    have h := waitReady_line (hl s)
    rw [hno 0 (Nat.succ_pos n)] at h
    have h2 := ih (s := s.skipReady 1) fun j hj => by rw [notReadyAt_skipReady]; exact hno _ (by omega)
    rw [skipReady_add] at h2
    have h3 := h.trans h2
    rwa [Nat.add_comm] at h3

/-- The ready loop on line `k`: `n` tests that find `NOT_READY` = 1, then one that finds 0; no bus event. -/
theorem ready_inScope (n : Nat)
    (hl : ∀ s : State, lineOf i (s.inScope i code k l tr acts st ff) = waitReady k)
    (hno : ∀ j, j < n → s.notReadyAt j = true) (hyes : s.notReadyAt n = false) :
    Reaches i (s.inScope i code k l tr acts st ff) ((s.skipReady (n + 1)).inScope i code (k + 1) l tr acts st ff) := by
  refine Reaches.trans ⟨_, ready_goes n hl hno⟩ ⟨1, ?_⟩
  have h := waitReady_line (hl (s.skipReady n))
  rw [notReadyAt_skipReady, Nat.add_zero, hyes, skipReady_add] at h
  exact h

/-! ### SEND -/

theorem bufferBytes_hdr (s : State) (n : Nat) : (bufferBytes .hdr n).map (Sent.value s) = s.hdrBytes n := by
  have : ∀ k n, (List.range' k n).map (Sent.value s ∘ .hdr) = memBytes s.hdr k n := by
    intro k n
    induction n generalizing k with
    | zero => rfl
    | succ n ih => simp [List.range'_succ, memBytes, ← ih, Sent.value]
  simpa [bufferBytes, List.range_eq_range', State.hdrBytes] using this 0 n

theorem bufferBytes_pay (s : State) (n : Nat) : (bufferBytes .pay n).map (Sent.value s) = s.payBytes n := by
  have : ∀ k n, (List.range' k n).map (Sent.value s ∘ .pay) = memBytes s.pay k n := by
    intro k n
    induction n generalizing k with
    | zero => rfl
    | succ n ih => simp [List.range'_succ, memBytes, ← ih, Sent.value]
  simpa [bufferBytes, List.range_eq_range', State.payBytes] using this 0 n

theorem hdrBytes_length (s : State) (h : Nat) : (s.hdrBytes h).length = h := memBytes_length ..

theorem payBytes_length (s : State) (p : Nat) : (s.payBytes p).length = p := memBytes_length ..

/-- The three lines that write one buffer to the FIFO: the test of its length on line `k`, the burst and its end. -/
theorem fifoBurst_inScope {t : List Sent}
    (h1 : lineOf i (s.inScope i code k l tr acts st ff) = [.goto (if t = [] then k + 3 else k + 1)])
    (h2 : lineOf i (s.inScope i code (k + 1) l tr acts st ff) =
      burstWrite s.par.layout s.par.layout.addrMap.fifo t ++ [.goto (k + 2)])
    (h3 : ∀ l acts st ff, lineOf i (s.inScope i code (k + 2) l tr acts st ff) = burstEnd s.par ++ [.goto (k + 3)]) :
    ∃ l' st' ff', l'.total = l.total ∧ Reaches i (s.inScope i code k l tr acts st ff)
      (s.inScope i code (k + 3) l' tr (acts ++ fifoBurst s.par (t.map (Sent.value s))) st' ff') := by
  by_cases ht : t = []
  · subst ht
    exact ⟨l, st, ff, rfl, by simpa [fifoBurst] using goto_line h1⟩
  · rw [if_neg ht] at h1
    have r2 := (goto_line h1).trans (line_inScope h2 (csRun_burstWrite ..) (burstWrite_inScope ..))
    have r3 := r2.trans (line_inScope (h3 _ _ _ _) (csRun_burstEnd _) burstEnd_inScope)
    rw [List.append_assoc] at r3
    rw [fifoBurst, if_neg (by simpa using ht)]
    exact ⟨{ l with s := s.answerAt (exchanges acts) }, _, _, rfl, r3⟩

theorem bufferBytes_nil {byteAt : Nat → Sent} {n : Nat} : bufferBytes byteAt n = [] ↔ n = 0 := by
  simp [bufferBytes]

/-- An accepted SEND is taken, passes the oversize test and opens its scope in six events. -/
theorem send_start {h p : Nat} (hb : s.seqBusy = false) (hm : h + p ≤ s.par.maxLen.toNat) :
    Goes (.send h p) 6 s
      (s.inScope (.send h p) 0x8 3 { Locals.empty with total := h + p } (s.trace ++ [.sel]) [] s.stState s.stFifo) := by
  have h0 : Goes (.send h p) 1 s (s.take (.send h p) 0x8) := ⟨_, exec_idle hb, rfl, rfl⟩
  have h1 := goes_line (c := s.cs) (i := .send h p) (s := s.take (.send h p) 0x8) (ops := [.setTotal (h + p), .goto 1]) rfl rfl rfl
    (by simp) rfl
  have h2 := goes_line (c := s.cs) (i := .send h p) (s := effects [.setTotal (h + p), .goto 1] (s.take (.send h p) 0x8))
    (ops := [.goto 2]) rfl rfl
    (by simp [lineOf, sendLine, effects, Micro.effect, exceedsMax, State.take, State.goto, not_lt.mpr hm]) (by simp) rfl
  have h3 := goes_line (c := true) (i := .send h p)
    (s := effects [.goto 2] (effects [.setTotal (h + p), .goto 1] (s.take (.send h p) 0x8))) (ops := [.select, .goto 3]) rfl rfl rfl
    (by simp) rfl
  simpa [State.inScope, effects, Micro.effect, State.take, State.goto, State.select, play, exchanges, Source.skip] using
    ((h0.trans h1).trans h2).trans h3

/-- SEND from line 4 on: the frame, the transmit strobe, the release and the completion. -/
theorem send_frame {h p : Nat} (hi : i = .send h p) (ht : l.total = h + p) :
    Completes i (s.inScope i code 4 l tr acts st ff)
      (let full := acts ++ frameActs s.par (s.hdrBytes h) (s.payBytes p)
       s.finished code tr full (stateField s.par.layout (s.answerAt (exchanges full - 1)))
        (fifoField s.par.layout (s.answerAt (exchanges full - 1))) .ok 0) := by
  subst hi
  refine Reaches.completes (line_inScope (l := l) (k' := 5)
    (ops := singleWrite s.par.layout s.par.layout.addrMap.fifo (BitVec.ofNat 8 l.total))
    rfl (csRun_singleWrite ..) (singleWrite_inScope ..)) ?_
  obtain ⟨l1, st1, ff1, e1, r1⟩ := fifoBurst_inScope (s := s) (i := .send h p) (code := code) (k := 5) (tr := tr)
    (l := { l with s := s.answerAt (exchanges acts) })
    (acts := acts ++ writeActs s.par.layout s.par.layout.addrMap.fifo (BitVec.ofNat 8 l.total))
    (st := stateField s.par.layout (s.answerAt (exchanges acts))) (ff := fifoField s.par.layout (s.answerAt (exchanges acts)))
    (t := bufferBytes .hdr h)
    (by show [Micro.goto _] = _
        cases h <;> simp [bufferBytes_nil]) rfl (fun _ _ _ _ => rfl)
  refine Reaches.completes r1 ?_
  obtain ⟨l2, st2, ff2, e2, r2⟩ := fifoBurst_inScope (s := s) (i := .send h p) (code := code) (k := 8) (tr := tr) (l := l1)
    (acts := acts ++ writeActs s.par.layout s.par.layout.addrMap.fifo (BitVec.ofNat 8 l.total) ++
      fifoBurst s.par ((bufferBytes .hdr h).map (Sent.value s))) (st := st1) (ff := ff1)
    (t := bufferBytes .pay p)
    (by show [Micro.goto _] = _
        cases p <;> simp [bufferBytes_nil]) rfl (fun _ _ _ _ => rfl)
  refine Reaches.completes r2 ?_
  refine Reaches.completes (line_inScope (l := l2) (k' := 12)
    (ops := strobe s.par.layout s.par.layout.addrMap.stx) rfl (csRun_strobe ..) (strobe_inScope ..)) ?_
  have h3 := completes_inScope (s := s) (i := .send h p) (code := code) (k := 12) (tr := tr) (kind := .ok) (val := 0)
    (l := { l2 with s := s.answerAt (exchanges (acts ++ writeActs s.par.layout s.par.layout.addrMap.fifo (BitVec.ofNat 8 l.total) ++
      fifoBurst s.par ((bufferBytes .hdr h).map (Sent.value s)) ++ fifoBurst s.par ((bufferBytes .pay p).map (Sent.value s)))) })
    (acts := acts ++ writeActs s.par.layout s.par.layout.addrMap.fifo (BitVec.ofNat 8 l.total) ++
      fifoBurst s.par ((bufferBytes .hdr h).map (Sent.value s)) ++ fifoBurst s.par ((bufferBytes .pay p).map (Sent.value s)) ++
      outs [strobeByte s.par.layout s.par.layout.addrMap.stx])
    (st := stateField s.par.layout (s.answerAt (exchanges (acts ++ writeActs s.par.layout s.par.layout.addrMap.fifo
      (BitVec.ofNat 8 l.total) ++ fifoBurst s.par ((bufferBytes .hdr h).map (Sent.value s)) ++
      fifoBurst s.par ((bufferBytes .pay p).map (Sent.value s))))))
    (ff := fifoField s.par.layout (s.answerAt (exchanges (acts ++ writeActs s.par.layout s.par.layout.addrMap.fifo
      (BitVec.ofNat 8 l.total) ++ fifoBurst s.par ((bufferBytes .hdr h).map (Sent.value s)) ++
      fifoBurst s.par ((bufferBytes .pay p).map (Sent.value s))))))
    rfl (fun t h1 _ => by simp [lineOf, sendLine, h1])
  have e : acts ++ writeActs s.par.layout s.par.layout.addrMap.fifo (BitVec.ofNat 8 l.total) ++
      fifoBurst s.par ((bufferBytes .hdr h).map (Sent.value s)) ++ fifoBurst s.par ((bufferBytes .pay p).map (Sent.value s)) ++
      outs [strobeByte s.par.layout s.par.layout.addrMap.stx] = acts ++ frameActs s.par (s.hdrBytes h) (s.payBytes p) := by
    simp [frameActs, bufferBytes_hdr, bufferBytes_pay, hdrBytes_length, payBytes_length, ht]
  have e2 : exchanges (acts ++ writeActs s.par.layout s.par.layout.addrMap.fifo (BitVec.ofNat 8 l.total) ++
      fifoBurst s.par ((bufferBytes .hdr h).map (Sent.value s)) ++ fifoBurst s.par ((bufferBytes .pay p).map (Sent.value s))) =
      exchanges (acts ++ frameActs s.par (s.hdrBytes h) (s.payBytes p)) - 1 := by
    rw [← e, exchanges_append _ (outs _), exchanges_outs]; rfl
  rw [e2, e] at h3
  rw [e2, e]
  exact h3

/-! ### INIT -/

/-- INIT from line 2 on: the entries of the table not yet written, the power-down strobe, the release and the completion. -/
theorem init_table (n : Nat) (hn : l.entry + n = s.par.initTable.length) :
    ∃ l' st' ff', Reaches .init (s.inScope .init code 2 l tr acts st ff)
      (s.inScope .init code 4 l' tr (acts ++ (s.par.initTable.drop l.entry).flatMap fun e => writeActs s.par.layout e.1 e.2) st' ff') := by
  induction n generalizing l acts st ff with
  | zero =>
    refine ⟨l, st, ff, ?_⟩
    have h : lineOf .init (s.inScope .init code 2 l tr acts st ff) = [.goto 4] := by
      show [Micro.goto (if l.entry < s.par.initTable.length then 3 else 4)] = _
      rw [if_neg (by omega)]
    rw [List.drop_of_length_le (by omega)]
    simpa using goto_line h
  | succ n ih =>
    have hlt : l.entry < s.par.initTable.length := by omega
    have h : lineOf .init (s.inScope .init code 2 l tr acts st ff) = [.goto 3] := by
      show [Micro.goto (if l.entry < s.par.initTable.length then 3 else 4)] = _
      rw [if_pos hlt]
    have h3 : lineOf .init (s.inScope .init code 3 l tr acts st ff) =
        (singleWrite s.par.layout s.par.initTable[l.entry].1 s.par.initTable[l.entry].2 ++ [.nextEntry]) ++ [.goto 2] := by
      show (match s.par.initTable[l.entry]? with
        | some e => singleWrite s.par.layout e.1 e.2 ++ [Micro.nextEntry, Micro.goto 2]
        | none => [Micro.goto 4]) = _
      rw [List.getElem?_eq_getElem hlt]
      simp
    have r3 := line_inScope (s' := s) (k' := 2)
      (l' := { l with s := s.answerAt (exchanges acts), entry := l.entry + 1 })
      (acts' := acts ++ writeActs s.par.layout s.par.initTable[l.entry].1 s.par.initTable[l.entry].2)
      (st' := stateField s.par.layout (s.answerAt (exchanges acts)))
      (ff' := fifoField s.par.layout (s.answerAt (exchanges acts))) h3
      (by rw [csRun_append, csRun_singleWrite]; rfl)
      (by rw [effects_append, singleWrite_inScope]; rfl)
    obtain ⟨l', st', ff', r⟩ := ih (l := { l with s := s.answerAt (exchanges acts), entry := l.entry + 1 })
      (acts := acts ++ writeActs s.par.layout s.par.initTable[l.entry].1 s.par.initTable[l.entry].2)
      (st := stateField s.par.layout (s.answerAt (exchanges acts)))
      (ff := fifoField s.par.layout (s.answerAt (exchanges acts))) (by show l.entry + 1 + n = _; omega)
    refine ⟨l', st', ff', ?_⟩
    rw [List.drop_eq_getElem_cons hlt, List.flatMap_cons, ← List.append_assoc]
    exact ((goto_line h).trans r3).trans r

theorem exchanges_table (ly : Layout) (t : List (Byte × Byte)) :
    exchanges (t.flatMap fun e => writeActs ly e.1 e.2) = 2 * t.length := by
  induction t with
  | nil => rfl
  | cons e t ih =>
    rw [List.flatMap_cons, exchanges_append, ih, writeActs, exchanges_outs, List.length_cons, List.length_cons, List.length_nil, List.length_cons]
    omega

/-- INIT from line 2 on, with no entry written yet. -/
theorem init_tail (he : l.entry = 0) :
    Completes .init (s.inScope .init code 2 l tr acts st ff)
      (s.finished code tr (acts ++ initActs s.par)
        (stateField s.par.layout (s.answerAt (exchanges acts + 2 * s.par.initTable.length)))
        (fifoField s.par.layout (s.answerAt (exchanges acts + 2 * s.par.initTable.length))) .ok 0) := by
  obtain ⟨l', st', ff', r⟩ := init_table (s := s) (code := code) (l := l) (tr := tr) (acts := acts) (st := st) (ff := ff)
    s.par.initTable.length (by omega)
  rw [he, List.drop_zero] at r
  refine Reaches.completes (r.trans (line_inScope (k' := 5) (ops := strobe s.par.layout s.par.layout.addrMap.spwd)
    rfl (csRun_strobe ..) (strobe_inScope ..))) ?_
  have h := completes_inScope (s := s) (i := .init) (code := code) (k := 5) (tr := tr) (kind := .ok) (val := 0)
    (l := { l' with s := s.answerAt (exchanges (acts ++ s.par.initTable.flatMap fun e => writeActs s.par.layout e.1 e.2)) })
    (acts := (acts ++ s.par.initTable.flatMap fun e => writeActs s.par.layout e.1 e.2) ++
      outs [strobeByte s.par.layout s.par.layout.addrMap.spwd])
    (st := stateField s.par.layout (s.answerAt (exchanges (acts ++ s.par.initTable.flatMap fun e => writeActs s.par.layout e.1 e.2))))
    (ff := fifoField s.par.layout (s.answerAt (exchanges (acts ++ s.par.initTable.flatMap fun e => writeActs s.par.layout e.1 e.2))))
    rfl (fun t h1 _ => by simp [lineOf, initLine, h1])
  simpa [exchanges_append, exchanges_table, initActs] using h

/-! ### ON and OFF -/

/-- ON from line 2 on: the go-rx strobe, the release and the completion. -/
theorem on_tail : Completes .radioOn (s.inScope .radioOn code 2 l tr acts st ff)
    (s.finished code tr (acts ++ outs [strobeByte s.par.layout s.par.layout.addrMap.srx])
      (stateField s.par.layout (s.answerAt (exchanges acts))) (fifoField s.par.layout (s.answerAt (exchanges acts))) .ok 0) :=
  (line_inScope (k' := 3) (ops := strobe s.par.layout s.par.layout.addrMap.srx) rfl (csRun_strobe ..) (strobe_inScope ..)).completes
    (completes_inScope rfl fun t h _ => by simp [lineOf, onLine, h])

/-- OFF from line 2 on: the go-idle and power-down strobes, the release and the completion. -/
theorem off_tail : Completes .radioOff (s.inScope .radioOff code 2 l tr acts st ff)
    (s.finished code tr (acts ++ offActs s.par.layout)
      (stateField s.par.layout (s.answerAt (exchanges acts + 1))) (fifoField s.par.layout (s.answerAt (exchanges acts + 1))) .ok 0) := by
  have h := ((line_inScope (s := s) (i := .radioOff) (code := code) (k := 2) (l := l) (tr := tr) (acts := acts) (st := st) (ff := ff) (k' := 3)
      (ops := strobe s.par.layout s.par.layout.addrMap.sidle) rfl (csRun_strobe ..) (strobe_inScope ..)).trans
    (line_inScope (k' := 4) (ops := strobe s.par.layout s.par.layout.addrMap.spwd) rfl (csRun_strobe ..) (strobe_inScope ..))).completes
    (completes_inScope (i := .radioOff) (kind := .ok) (val := 0) rfl fun t h _ => by simp [lineOf, offLine, h])
  simpa [exchanges_append, exchanges, offActs, outs] using h

/-! ### RECEIVE -/

/-- The interleaved exchanges and stores of RECEIVE's payload: index `k` on. -/
theorem stores_inScope (o : Byte) (n : Nat) (hk : l.t.length = k) {k' : Nat} :
    effects ((List.range' k n).flatMap fun j => [.xfer (.byte o) .t, .store j]) (s.inScope i code k' l tr acts st ff) =
      { s with dst := memStore s.dst k ((s.miso.skip (exchanges acts)).upcoming Config.chipAnswer n) }.inScope i code k'
        { l with t := l.t ++ (s.miso.skip (exchanges acts)).upcoming Config.chipAnswer n } tr
        (acts ++ outs (List.replicate n o)) st ff := by
  induction n generalizing s k l acts with
  | zero => simp [effects, outs, Source.upcoming, memStore]
  | succ n ih =>
    simp only [List.range'_succ, List.flatMap_cons, List.cons_append, List.nil_append, effects, Micro.effect, Sent.value, xfer_inScope,
      Locals.bind]
    have e : (l.t ++ [s.answerAt (exchanges acts)]).getD k 0 = s.answerAt (exchanges acts) := by
      subst hk; simp
    have := ih (s := { s with dst := memWrite s.dst k (s.answerAt (exchanges acts)) }) (k := k + 1)
      (l := { l with t := l.t ++ [s.answerAt (exchanges acts)] }) (acts := acts ++ outs [o]) (by simp [hk])
    simp only [State.inScope, e] at this ⊢
    rw [this]
    simp [outs, exchanges_append, exchanges, Source.upcoming, advance_skip, State.answerAt, memStore, List.replicate_succ]

/-- RECEIVE's payload line: the header exchange, then each byte stored as it comes. -/
theorem receivePayload_inScope (n : Nat) (hk : l.t = []) {k' : Nat} :
    effects (receivePayload s.par.layout n) (s.inScope i code k' l tr acts st ff) =
      { s with dst := memStore s.dst 0 ((s.miso.skip (exchanges acts + 1)).upcoming Config.chipAnswer n) }.inScope i code k'
        { l with s := s.answerAt (exchanges acts)
                 t := (s.miso.skip (exchanges acts + 1)).upcoming Config.chipAnswer n } tr
        (acts ++ outs (encodeHeader s.par.layout s.par.layout.addrMap.fifo .rdBurst :: List.replicate n s.par.layout.dummy))
        (stateField s.par.layout (s.answerAt (exchanges acts))) (fifoField s.par.layout (s.answerAt (exchanges acts))) := by
  rw [receivePayload, effects_append, hdrXfer_inScope, List.range_eq_range', stores_inScope _ _ (by simp [hk])]
  simp [outs, exchanges_append, exchanges, hk]

/-- RECEIVE from its start to line 2: the length prefix is read. -/
theorem receive_length {C : Nat} (hb : s.seqBusy = false) :
    Reaches (.receive C) s (s.inScope (.receive C) 0x9 2 { Locals.empty with s := s.answerAt 0, L := s.answerAt 1 } (s.trace ++ [.sel])
      (lengthActs s.par.layout) (stateField s.par.layout (s.answerAt 0)) (fifoField s.par.layout (s.answerAt 0))) :=
  Reaches.trans ⟨3, start_inScope hb rfl fun t h => by simp [lineOf, receiveLine, h]⟩
    (line_inScope (k' := 2) (ops := singleRead s.par.layout s.par.layout.addrMap.fifo .L) rfl (csRun_singleRead ..)
      (singleRead_inScope ..))

/-- RECEIVE's payload, lines 6 to 9: nothing for no bytes, else the burst, each byte stored as it comes. -/
theorem receive_payload {C : Nat} (hk : l.t = []) :
    ∃ l' st' ff', l'.L = l.L ∧ l'.q = l.q ∧ Reaches (.receive C) (s.inScope (.receive C) code 6 l tr acts st ff)
      ({ s with dst := memStore s.dst 0 ((s.miso.skip (exchanges acts + 1)).upcoming Config.chipAnswer l.L.toNat)
        }.inScope (.receive C) code 10 l' tr (acts ++ fifoRead s.par l.L.toNat) st' ff') := by
  by_cases hL : 0 < l.L.toNat
  · have h6 : lineOf (.receive C) (s.inScope (.receive C) code 6 l tr acts st ff) = [.goto 7] := by
      show [Micro.goto (if 0 < l.L.toNat then 7 else 10)] = _
      rw [if_pos hL]
    have r7 := line_inScope (s := s) (i := .receive C) (code := code) (k := 7) (l := l) (tr := tr) (acts := acts) (st := st) (ff := ff)
      (k' := 8) (ops := receivePayload s.par.layout l.L.toNat) rfl (csRun_receivePayload ..) (receivePayload_inScope _ hk)
    have r8 := ((goto_line h6).trans r7).trans (goto_line (k' := 9) rfl)
    have r9 := r8.trans (line_inScope (k' := 10) (ops := burstEnd s.par) rfl (csRun_burstEnd _) (burstEnd_inScope
      (s := { s with dst := memStore s.dst 0 ((s.miso.skip (exchanges acts + 1)).upcoming Config.chipAnswer l.L.toNat) })))
    rw [List.append_assoc] at r9
    rw [fifoRead, if_neg (by omega)]
    exact ⟨{ l with
      s := s.answerAt (exchanges acts)
      t := (s.miso.skip (exchanges acts + 1)).upcoming Config.chipAnswer l.L.toNat }, _, _, rfl, rfl, r9⟩
  · have h6 : lineOf (.receive C) (s.inScope (.receive C) code 6 l tr acts st ff) = [.goto 10] := by
      show [Micro.goto (if 0 < l.L.toNat then 7 else 10)] = _
      rw [if_neg hL]
    have h0 : l.L.toNat = 0 := by omega
    refine ⟨l, st, ff, rfl, rfl, ?_⟩
    rw [h0]
    simpa [fifoRead, Source.upcoming, memStore] using goto_line h6

/-- What RECEIVE does after its payload: the trailing bytes, the snapshot and the overflow poll. -/
def trailingActs (par : Params) : List Act :=
  outs [encodeHeader par.layout par.layout.addrMap.fifo .rdBurst, par.layout.dummy, par.layout.dummy] ++ burstEndActs par ++
    pollActs par.layout 1

/-- RECEIVE, lines 10 to 13: the two trailing bytes become the snapshot, and one poll follows. -/
theorem receive_trailing {C : Nat} (hq : l.q = []) :
    ∃ l', l'.L = l.L ∧ Reaches (.receive C) (s.inScope (.receive C) code 10 l tr acts st ff)
      ({ s with rssiLast := s.answerAt (exchanges acts + 1), lqiLast := s.answerAt (exchanges acts + 2)
        }.inScope (.receive C) code 14 l' tr (acts ++ trailingActs s.par)
        (stateField s.par.layout (s.answerAt (exchanges acts + 3))) (fifoField s.par.layout (s.answerAt (exchanges acts + 3)))) := by
  have eb : exchanges (burstEndActs s.par) = 0 := by unfold burstEndActs; split <;> rfl
  have r10 := line_inScope (s := s) (i := .receive C) (code := code) (k := 10) (l := l) (tr := tr) (acts := acts) (st := st) (ff := ff)
    (k' := 11) (ops := burstRead s.par.layout s.par.layout.addrMap.fifo 2 .q) rfl (csRun_burstRead ..) (burstRead_q_inScope ..)
  have r11 := r10.trans (line_inScope (k' := 12) (ops := burstEnd s.par) rfl (csRun_burstEnd _) burstEnd_inScope)
  have r12 := r11.trans (line_inScope (k' := 13) (ops := [.setRssi, .setLqi])
    (s' := { s with rssiLast := s.answerAt (exchanges acts + 1), lqiLast := s.answerAt (exchanges acts + 2) }) rfl rfl (by
      simp only [effects, Micro.effect, State.inScope, hq, List.nil_append, Source.upcoming, List.getD_cons_zero, List.getD_cons_succ,
        advance_skip]
      rfl))
  have r13 := r12.trans (line_inScope (k' := 14) (ops := strobe s.par.layout s.par.layout.addrMap.snop) rfl (csRun_strobe ..)
    (strobe_inScope ..))
  have e : exchanges (acts ++ outs (encodeHeader s.par.layout s.par.layout.addrMap.fifo .rdBurst ::
      List.replicate 2 s.par.layout.dummy) ++ burstEndActs s.par) = exchanges acts + 3 := by
    rw [exchanges_append, exchanges_append, exchanges_outs, eb]; rfl
  rw [e] at r13
  refine ⟨{ l with
    s := s.answerAt (exchanges acts + 3)
    q := [s.answerAt (exchanges acts + 1), s.answerAt (exchanges acts + 2)] }, rfl, ?_⟩
  have ea : acts ++ trailingActs s.par = acts ++ outs (encodeHeader s.par.layout s.par.layout.addrMap.fifo .rdBurst ::
      List.replicate 2 s.par.layout.dummy) ++ burstEndActs s.par ++ outs [strobeByte s.par.layout s.par.layout.addrMap.snop] := by
    simp [trailingActs, pollActs]
  rw [ea]
  exact r13

/-- RECEIVE from line 14 on: a flush where the poll reported `RX_OVERFLOW`, the release and the completion. -/
theorem receive_tail {C : Nat} :
    let flush := stateName st = .rxOverflow
    Completes (.receive C) (s.inScope (.receive C) code 14 l tr acts st ff)
      (s.finished code tr (if flush then acts ++ flushActs s.par.layout else acts)
        (if flush then stateField s.par.layout (s.answerAt (exchanges acts + 2)) else st)
        (if flush then fifoField s.par.layout (s.answerAt (exchanges acts + 2)) else ff) .ok l.L.toNat) := by
  intro flush
  have h14 : lineOf (.receive C) (s.inScope (.receive C) code 14 l tr acts st ff) =
      (if flush then flushRx s.par.layout else []) ++ [.goto 15] := rfl
  by_cases ho : flush
  · simp only [if_pos ho] at h14 ⊢
    refine (line_inScope h14 (csRun_flushRx _) (flushRx_inScope ..)).completes ?_
    exact completes_inScope rfl fun t h1 h2 => by simp [lineOf, receiveLine, h1, h2]
  · simp only [if_neg ho] at h14 ⊢
    refine (goto_line h14).completes ?_
    exact completes_inScope rfl fun t h1 h2 => by simp [lineOf, receiveLine, h1, h2]

end

end Sys2Proof.Machine
end

