-- ==== Sys2Proof/Tests/Slice0.lean ====
section
/-! SUPPORT. The model's own tests. Expected results come from the spec's encodings (30_encoding.md) and from its test vectors
(95_test_vectors.md, by their V- numbers), never from the model. The last part gives, for each statement with hypotheses, a concrete
state and operands that meet them. -/

namespace Sys2Proof.Tests

open Sys2Proof Sys2Proof.Machine

/-! ### Helpers -/

/-- The reference layout, under a short name. -/
abbrev ref : Layout := Layout.reference

/-- The reference parameters with an `INIT_TABLE` and an `ERR_OVERSIZE` of the tests' own. -/
def params : Params := { Params.reference with initTable := [(0x0A, 0x00), (0x3E, 0xC0)], errCode := 0 }

/-- An idle block whose chip answers the given bytes, with no edge coming before the next 60 events and the chip ready. -/
def idle (answers : List Byte) : State :=
  { State.reset with miso := ⟨answers, 0⟩, pktEdge := ⟨List.replicate 60 false, 0⟩, notReady := ⟨[false], 0⟩, par := params }

/-- As `idle`, running `i` of code `code`, at the head of its waiting line `k`. -/
def waiting (i : Instr) (code : BitVec 4) (k : Nat) (answers : List Byte) : State :=
  { idle answers with cs := true, seqBusy := true, op := code, seqStep := k, running := some i }

/-- The start of the RECEIVE vectors: the snapshot holds 0x55 and 0x66. -/
def receiving (answers : List Byte) : State := { idle answers with rssiLast := 0x55, lqiLast := 0x66 }

/-- As `s`, with bursts ended by a pulse. -/
def pulsing (s : State) : State := { s with par := { s.par with burstEndPulse := true } }

/-- What `n` events of `i` leave; none where one stops. -/
def going : Nat → Instr → State → Option State
  | 0, _, s => some s
  | n + 1, i, s =>
    match exec i s with
    | .next t => going n i t
    | .fault _ => none
    | .refused _ => none

/-- What `i` leaves when it completes, within `n` events. -/
def settle : Nat → Instr → State → Option State
  | 0, _, _ => none
  | n + 1, i, s =>
    match exec i s with
    | .next t => if t.seqBusy then settle n i t else some t
    | .fault _ => none
    | .refused _ => none

/-- What `i` leaves when it completes, seen through `f`. -/
def done {α : Type} (i : Instr) (s : State) (f : State → α) : Option α := (settle 80 i s).map f

/-- What `n` steps of the block leave; none where one stops. -/
def steps : Nat → State → Option State
  | 0, s => some s
  | n + 1, s =>
    match step s with
    | .next t => steps n t
    | .fault _ => none
    | .refused _ => none

/-- An instruction that settles completes. -/
theorem completes_of_settle {n : Nat} {i : Instr} {s t : State} (h : settle n i s = some t) : Completes i s t := by
  induction n generalizing s with
  | zero => cases h
  | succ n ih =>
    unfold settle at h
    split at h
    · rename_i u hu
      split at h
      · rename_i hb
        obtain ⟨m, v, hg, he, hi⟩ := ih h
        exact ⟨m + 1, v, ⟨u, hu, hb, hg⟩, he, hi⟩
      · rename_i hb
        injection h with h
        subst h
        exact ⟨0, s, rfl, hu, by simpa using hb⟩
    · cases h
    · cases h

/-- The trace and the result registers. -/
def seen (t : State) : List Event × ResKind × Nat := (t.trace, t.resKind, t.resVal)

/-- A request with no buffers. -/
def bare (bytes : List Byte) : Request := { bytes := bytes, hdr := [], pay := [], dst := [] }

/-! ### Well-formedness: each check refuses an ill-formed term -/

theorem test_wf_wrSingle_strobe_address : (Instr.wrSingle 0x34 0x00).wf ref = false := by decide
theorem test_wf_wrSingle_reserved_address : (Instr.wrSingle 0x2F 0x00).wf ref = false := by decide
theorem test_wf_rdSingle_status_address : (Instr.rdSingle 0x74).wf ref = false := by decide
theorem test_wf_wrBurst_no_bytes : (Instr.wrBurst 0x3F []).wf ref = false := by decide
theorem test_wf_wrBurst_bit7_address : (Instr.wrBurst 0xBF [0x00]).wf ref = false := by decide
theorem test_wf_rdBurst_no_bytes : (Instr.rdBurst 0x3F 0).wf ref = false := by decide
theorem test_wf_rdBurst_strobe_address : (Instr.rdBurst 0x30 1).wf ref = false := by decide
theorem test_wf_rdStatus_not_baked : (Instr.rdStatus 0x34).wf ref = false := by decide
theorem test_wf_send_length : (Instr.send 65536 0).wf ref = false ∧ (Instr.send 0 65536).wf ref = false := by decide
theorem test_wf_receive_capacity : (Instr.receive 65536).wf ref = false := by decide
theorem test_wf_initTable_strobe : ({ params with initTable := [(0x30, 0x00)] } : Params).wf = false := by decide
/-- R203: any negative integer, -1 for the tests. -/
theorem test_errOversize : params.errOversize = -1 ∧ ({ params with errCode := 41 } : Params).errOversize = -42 := by decide
theorem test_wf_params : params.wf = true := by decide

/-- Each bound of the layout parameters. -/
theorem test_wf_layout_bits :
    ({ ref with rBit := 8 } : Layout).wf = false ∧ ({ ref with bBit := 8 } : Layout).wf = false ∧
    ({ ref with rBit := 6 } : Layout).wf = false ∧ ({ ref with addrW := 6 } : Layout).wf = false ∧
    ({ ref with addrW := 9 } : Layout).wf = false ∧ ({ ref with stateLow := 6 } : Layout).wf = false ∧
    ({ ref with fifoLow := 5 } : Layout).wf = false ∧ ({ ref with lenW := 7 } : Layout).wf = false := by decide

/-- Each condition on the address map: its two lengths, plain addresses, one address a name, no status register at a register. -/
theorem test_wf_layout_map :
    ({ ref with addrMap := { AddrMap.reference with config := [0x00] } } : Layout).wf = false ∧
    ({ ref with addrMap := { AddrMap.reference with status := [] } } : Layout).wf = false ∧
    ({ ref with addrMap := { AddrMap.reference with srx := 0x74 } } : Layout).wf = false ∧
    ({ ref with addrMap := { AddrMap.reference with status := List.replicate 14 0x74 } } : Layout).wf = false ∧
    ({ ref with addrMap := { AddrMap.reference with srx := 0x35 } } : Layout).wf = false ∧
    ({ ref with addrMap := { AddrMap.reference with status := (List.range 14).map (BitVec.ofNat 8) } } : Layout).wf = false := by
  decide

/-! ### Decoding: words written out from R60, R61, R65, R66 and R74 -/

theorem test_decode_wrSingle : decode ref .hdr [0b00111110, 0xC0] = .ok (.wrSingle 0x3E 0xC0) [] := by decide
theorem test_decode_rdSingle : decode ref .hdr [0b10001010, 0x00] = .ok (.rdSingle 0x0A) [] := by decide
theorem test_decode_wrBurst : decode ref .hdr [0b01111111, 0xAA, 0xBB] = .ok (.wrBurst 0x3F [0xAA, 0xBB]) [] := by decide
theorem test_decode_rdBurst : decode ref .hdr [0b11111111, 0x00, 0x00, 0x00] = .ok (.rdBurst 0x3F 3) [] := by decide
theorem test_decode_rdStatus : decode ref .hdr [0b11110100, 0x00] = .ok (.rdStatus 0x74) [] := by decide

/-- R65, V-T1 to V-T13. -/
theorem test_decode_strobes :
    decode ref .hdr [0b00110000] = .ok .sres [] ∧ decode ref .hdr [0b00110001] = .ok .sfstxon [] ∧
    decode ref .hdr [0b00110010] = .ok .sxoff [] ∧ decode ref .hdr [0b00110011] = .ok .scal [] ∧
    decode ref .hdr [0b00110100] = .ok .srx [] ∧ decode ref .hdr [0b00110101] = .ok .stx [] ∧
    decode ref .hdr [0b00110110] = .ok .sidle [] ∧ decode ref .hdr [0b00111000] = .ok .swor [] ∧
    decode ref .hdr [0b00111001] = .ok .spwd [] ∧ decode ref .hdr [0b00111010] = .ok .sfrx [] ∧
    decode ref .hdr [0b00111011] = .ok .sftx [] ∧ decode ref .hdr [0b00111100] = .ok .sworrst [] ∧
    decode ref .hdr [0b00111101] = .ok .snop [] := by decide

/-- R73, R74, R75. -/
theorem test_decode_requests :
    decode ref .req [0b0000] = .ok .reserved0 [] ∧ decode ref .req [0b0001] = .ok .init [] ∧
    decode ref .req [0b0010] = .ok .radioOn [] ∧ decode ref .req [0b0011] = .ok .radioOff [] ∧
    decode ref .req [0b0100, 0x05] = .ok (.setChannel 0x05) [] ∧ decode ref .req [0b0101, 0xC0] = .ok (.setTxPower 0xC0) [] ∧
    decode ref .req [0b0110, 0x2A] = .ok (.setAddress 0x2A) [] ∧ decode ref .req [0b0111, 1] = .ok (.setCallback true) [] ∧
    decode ref .req [0b1000, 0x28, 0x00, 0x1E, 0x01] = .ok (.send 0x0028 0x011E) [] ∧
    decode ref .req [0b1001, 0x10, 0x02] = .ok (.receive 0x0210) [] ∧ decode ref .req [0b1010] = .ok .discard [] ∧
    decode ref .req [0b1011] = .ok .getRssi [] ∧ decode ref .req [0b1100] = .ok .getLastRssi [] ∧
    decode ref .req [0b1101] = .ok .getLastLqi [] ∧ decode ref .req [0b1110] = .ok .isChannelClear [] ∧
    decode ref .req [0b1111] = .ok .reservedF [] := by decide

/-- R77: the reserved headers are rejected by name. -/
theorem test_decode_reserved_headers :
    decode ref .hdr [0x2F, 0x00] = .error (.reservedHeader 0x2F) ∧ decode ref .hdr [0xEF, 0x00] = .error (.reservedHeader 0xEF) ∧
    decode ref .hdr [0x37] = .error (.reservedHeader 0x37) ∧ decode ref .hdr [0xB7, 0x00] = .error (.reservedHeader 0xB7) ∧
    decode ref .hdr [0x70, 0x00] = .error (.reservedHeader 0x70) ∧ decode ref .hdr [0xBD, 0x00] = .error (.reservedHeader 0xBD) := by
  decide

theorem test_decode_rejects :
    decode ref .hdr [] = .error .noBytes ∧ decode ref .hdr [0x0A] = .error .truncated ∧ decode ref .hdr [0x7F] = .error .truncated ∧
    decode ref .hdr [0xBF, 0x01] = .error (.notDummy 0x01) ∧ decode ref .req [0x14] = .error (.codeTooWide 0x14) ∧
    decode ref .req [0x07, 0x02] = .error (.notOneBit 0x02) ∧ decode ref .req [0x08, 0x00] = .error .truncated ∧
    decode { ref with lenW := 12 } .req [0x09, 0x00, 0x10] = .error .lengthTooWide := by decide

/-- The ends and the middle of the maps of R64 and R66. -/
theorem test_address_map :
    configRegisters.length = 0x2F ∧ configRegisters[0x09]? = some "ADDR" ∧ configRegisters[0x0A]? = some "CHANNR" ∧
    configRegisters[0x2E]? = some "TEST0" ∧ statusRegisters.length = 14 ∧ statusRegisters[0x04]? = some "RSSI" ∧
    statusRegisters[0x0D]? = some "RCCTRL0_STATUS" ∧ AddrMap.reference.addr = 0x09 ∧ AddrMap.reference.channr = 0x0A ∧
    AddrMap.reference.rssi = 0x34 := by decide

/-! ### ENCODE and DecodeStatus -/

/-- V-EN2c, V-EN3, V-EN5, V-EN9, V-EN13, V-EN14. -/
theorem test_encode_header :
    encodeHeader ref 0x0A .rdBurst = 0xCA ∧ encodeHeader ref 0x74 .rdSingle = 0xF4 ∧ encodeHeader ref 0x74 .wrSingle = 0x74 ∧
    encodeHeader ref 0x3F .wrBurst = 0x7F ∧ encodeHeader ref 0xFF .rdSingle = 0xFF ∧ encodeHeader ref 0x80 .wrBurst = 0xC0 := by decide

/-- V-ST2 to V-ST12. -/
theorem test_decode_status :
    decodeStatus ref 0x0F = (.idle, 15) ∧ decodeStatus ref 0x1F = (.rx, 15) ∧ decodeStatus ref 0x2A = (.tx, 10) ∧
    decodeStatus ref 0x33 = (.fstxon, 3) ∧ decodeStatus ref 0x40 = (.calibrate, 0) ∧ decodeStatus ref 0x5F = (.settling, 15) ∧
    decodeStatus ref 0x6A = (.rxOverflow, 10) ∧ decodeStatus ref 0x7F = (.txUnderflow, 15) ∧ decodeStatus ref 0x80 = (.idle, 0) ∧
    decodeStatus ref 0x9F = (.rx, 15) ∧ decodeStatus ref 0xF5 = (.txUnderflow, 5) := by decide

/-- The parameters of R7 are arguments: with `R_BIT` and `B_BIT` exchanged and the status fields exchanged, R60, R61 and R68 give these. -/
theorem test_other_layout :
    encodeHeader { ref with rBit := 6, bBit := 7 } 0x3F .wrBurst = 0xBF ∧
    decodeStatus { ref with stateLow := 0, fifoLow := 4 } 0xA1 = (.rx, 10) ∧
    decode { ref with rBit := 6, bBit := 7, dummy := 0x55 } .hdr [0b01111111, 0x55] = .ok (.rdSingle 0x3F) [] := by decide

/-! ### Accesses, each in a scope of its own -/

/-- V-P2. -/
theorem test_wrSingle : done (.wrSingle 0x0A 0x05) (idle [0x0F, 0x77]) (fun t => (t.trace, t.radio, t.stFifo)) =
    some ([.sel, .x 0x0A 0x0F, .x 0x05 0x77, .rel], .idle, 15) := by decide

/-- V-P3: the data byte 0x6A is not latched. -/
theorem test_rdSingle : done (.rdSingle 0x3F) (idle [0x1F, 0x6A]) (fun t => (t.trace, t.radio, t.locals.v)) =
    some ([.sel, .x 0xBF 0x1F, .x 0x00 0x6A, .rel], .rx, 0x6A) := by decide

/-- V-P4. -/
theorem test_wrBurst : done (.wrBurst 0x3F [0xAA, 0xBB]) (idle [0x1F, 0x00, 0x60]) (fun t => (t.trace, t.radio)) =
    some ([.sel, .x 0x7F 0x1F, .x 0xAA 0x00, .x 0xBB 0x60, .rel], .rx) := by decide

/-- V-P5. -/
theorem test_rdBurst : done (.rdBurst 0x3F 3) (idle [0x1F, 0x01, 0x02, 0x03]) (fun t => (t.trace, t.locals.t)) =
    some ([.sel, .x 0xFF 0x1F, .x 0x00 0x01, .x 0x00 0x02, .x 0x00 0x03, .rel], [0x01, 0x02, 0x03]) := by decide

/-- V-P7. -/
theorem test_rdStatus : done (.rdStatus 0x74) (idle [0x1F, 0xB0]) (fun t => (t.trace, t.locals.v)) =
    some ([.sel, .x 0xF4 0x1F, .x 0x00 0xB0, .rel], 0xB0) := by decide

/-- V-P6: the latch holds the state before SIDLE acts. -/
theorem test_sidle : done .sidle (idle [0x1F]) (fun t => (t.trace, t.radio)) = some ([.sel, .x 0x36 0x1F, .rel], .rx) := by decide

/-- V-P1. -/
theorem test_snop : done .snop (idle [0x1F]) (fun t => (t.trace, t.stState, t.stFifo)) =
    some ([.sel, .x 0x3D 0x1F, .rel], 1, 15) := by decide

/-- The other strobes of R65, headers V-T1 to V-T12. -/
theorem test_strobe_headers :
    ([.sres, .sfstxon, .sxoff, .scal, .srx, .stx, .swor, .spwd, .sfrx, .sftx, .sworrst] : List Instr).map
      (fun i => done i (idle [0x0F]) (·.trace)) =
    ([0x30, 0x31, 0x32, 0x33, 0x34, 0x35, 0x38, 0x39, 0x3A, 0x3B, 0x3C] : List Byte).map (fun b => some [.sel, .x b 0x0F, .rel]) := by
  decide

/-- R9: an exchange is not legal while `CS` = 0. -/
theorem test_exchange_outside_scope :
    exec .snop { waiting .snop 0x0 1 [0x1F] with cs := false, todo := [.xfer (.byte 0x3D) .s] } = .fault .xferNotSelected := rfl

/-! ### SEND -/

/-- V-S1. -/
theorem test_send :
    done (.send 2 3) { idle [0x1F, 0x1F, 0, 0x1F, 0, 0, 0x1F, 0, 0, 0, 0x1F] with
      hdr := [(0, 0xAA), (1, 0xBB)], pay := [(0, 0x01), (1, 0x02), (2, 0x03)] } seen =
    some ([.sel, .x 0x3D 0x1F, .x 0x3F 0x1F, .x 0x05 0, .x 0x7F 0x1F, .x 0xAA 0, .x 0xBB 0, .x 0x7F 0x1F, .x 0x01 0, .x 0x02 0,
      .x 0x03 0, .x 0x35 0x1F, .rel], .ok, 0) := by decide

/-- V-S9: bursts ended by pulses. -/
theorem test_send_pulses :
    done (.send 1 1) (pulsing { idle [0x1F, 0x1F, 0, 0x1F, 0, 0x1F, 0, 0x1F] with
      hdr := [(0, 0xAA)], pay := [(0, 0x01)] }) seen =
    some ([.sel, .x 0x3D 0x1F, .x 0x3F 0x1F, .x 0x02 0, .x 0x7F 0x1F, .x 0xAA 0, .rel, .sel, .x 0x7F 0x1F, .x 0x01 0, .rel, .sel,
      .x 0x35 0x1F, .rel], .ok, 0) := by decide

/-- V-S2 and V-S7: no bursts for no bytes; the sum does not wrap. -/
theorem test_send_edges :
    done (.send 0 0) (idle [0x1F, 0x1F, 0, 0x1F]) seen =
      some ([.sel, .x 0x3D 0x1F, .x 0x3F 0x1F, .x 0x00 0, .x 0x35 0x1F, .rel], .ok, 0) ∧
    done (.send 65535 1) (idle []) seen = some ([], .oversize, 0) := by decide

/-- V-S11, the first poll: SEND stays on line 3, selected. -/
theorem test_send_waits : (going 10 (.send 0 1) (idle [0x0F])).map (fun t => (t.trace, t.seqBusy, t.cs, t.seqStep, t.resKind)) =
    some ([.sel, .x 0x3D 0x0F], true, true, 3, .none) := by decide

/-- The lines of R140 as `STEP` shows them: taken on line 0, `total` before line 1, then lines 1, 2 and 3. -/
theorem test_send_lines : (List.range 7).map (fun n => (going n (.send 1 2) (idle [0x1F])).map fun t => (t.seqStep, t.locals.total)) =
    [some (0, 0), some (0, 0), some (0, 3), some (1, 3), some (2, 3), some (2, 3), some (3, 3)] := by decide

/-! ### RECEIVE -/

/-- V-R1. -/
theorem test_receive :
    done (.receive 16) { receiving [0x1F, 0x04, 0x1F, 0x11, 0x22, 0x33, 0x44, 0x1F, 0xD0, 0xAF, 0x1F] with
      dst := [(3, 0xEE), (4, 0xEE), (15, 0xEE)] } (fun t => (seen t, t.dst, t.rssiLast, t.lqiLast)) =
    some (([.sel, .x 0xBF 0x1F, .x 0x00 0x04, .x 0xFF 0x1F, .x 0x00 0x11, .x 0x00 0x22, .x 0x00 0x33, .x 0x00 0x44, .x 0xFF 0x1F,
      .x 0x00 0xD0, .x 0x00 0xAF, .x 0x3D 0x1F, .rel], .ok, 4),
      [(0, 0x11), (1, 0x22), (2, 0x33), (3, 0x44), (4, 0xEE), (15, 0xEE)], 0xD0, 0xAF) := by decide

/-- V-R3: `L` = `C` + 1. -/
theorem test_receive_oversize :
    done (.receive 16) { receiving [0x1F, 0x11, 0x1F, 0x0F, 0x0F] with dst := [(0, 0xEE)] }
      (fun t => (seen t, t.dst, t.rssiLast, t.lqiLast, t.radio)) =
    some (([.sel, .x 0xBF 0x1F, .x 0x00 0x11, .x 0x36 0x1F, .x 0x3A 0x0F, .x 0x34 0x0F, .rel], .oversize, 0),
      [(0, 0xEE)], 0x55, 0x66, .idle) := by decide

/-- V-R5, V-R9 cut to `L` = 0: no payload burst; one flush on an overflow with bit 7 set. -/
theorem test_receive_overflow :
    done (.receive 0) (receiving [0x1F, 0x00, 0x1F, 0xC8, 0x80, 0xE0, 0x6F, 0x0F, 0x0F]) (fun t => (seen t, t.rssiLast)) =
    some (([.sel, .x 0xBF 0x1F, .x 0x00 0x00, .x 0xFF 0x1F, .x 0x00 0xC8, .x 0x00 0x80, .x 0x3D 0xE0, .x 0x36 0x6F, .x 0x3A 0x0F,
      .x 0x34 0x0F, .rel], .ok, 0), 0xC8) := by decide

/-- R143: byte 0 is stored right after the exchange that received it, before byte 1 is exchanged. -/
theorem test_receive_stores_each_byte :
    (going 15 (.receive 16) (receiving [0x1F, 0x02, 0x1F, 0x11, 0x22])).map (fun t => (t.dst, t.locals.t)) =
      some ([(0, 0x11)], [0x11]) := by decide

/-! ### DISCARD, lifecycle, configuration and queries -/

/-- V-X1. -/
theorem test_discard : done .discard (receiving [0x1F, 0x0F, 0x0F]) (fun t => (seen t, t.rssiLast)) =
    some (([.sel, .x 0x36 0x1F, .x 0x3A 0x0F, .x 0x34 0x0F, .rel], .ok, 0), 0x55) := by decide

/-- V-LC1: one test finds `NOT_READY` = 1, the next 0. -/
theorem test_init :
    done .init { idle [0x0F, 0, 0x0F, 0, 0x0F] with notReady := ⟨[true, false], 0⟩ } seen =
    some ([.sel, .x 0x0A 0x0F, .x 0x00 0, .x 0x3E 0x0F, .x 0xC0 0, .x 0x39 0x0F, .rel], .ok, 0) := by decide

/-- R160, R21: the loop of lines 2 and 3 as `STEP` shows it, at the first event of each line. -/
theorem test_init_lines :
    ([0, 1, 3, 4, 5, 11, 12, 18, 19].map fun n => (going n .init (idle [])).map (·.seqStep)) =
      [some 0, some 0, some 1, some 2, some 3, some 2, some 3, some 2, some 4] := by decide

/-- V-LC3. -/
theorem test_on : done .radioOn (idle [0x0F]) seen = some ([.sel, .x 0x34 0x0F, .rel], .ok, 0) := by decide

/-- V-LC4. -/
theorem test_off : done .radioOff (idle [0x5F, 0x1F, 0x1F, 0x0F]) (fun t => (seen t, t.radio)) =
    some (([.sel, .x 0x3D 0x5F, .x 0x3D 0x1F, .x 0x36 0x1F, .x 0x39 0x0F, .rel], .ok, 0), .idle) := by decide

/-- V-LC6, V-LC8, V-LC9. -/
theorem test_configuration :
    done (.setChannel 0x05) (idle [0x5F, 0]) seen = some ([.sel, .x 0x0A 0x5F, .x 0x05 0, .rel], .ok, 0) ∧
    done (.setTxPower 0xC0) (idle [0x5F, 0]) seen = some ([.sel, .x 0x3E 0x5F, .x 0xC0 0, .rel], .ok, 0) ∧
    done (.setAddress 0x2A) (idle [0x5F, 0]) seen = some ([.sel, .x 0x09 0x5F, .x 0x2A 0, .rel], .ok, 0) := by decide

/-- V-LC10. -/
theorem test_setCallback :
    done (.setCallback true) (idle []) (fun t => (seen t, t.handlerReg)) = some (([], .ok, 0), true) ∧
    done (.setCallback false) { idle [] with handlerReg := true } (fun t => (seen t, t.handlerReg)) =
      some (([], .ok, 0), false) := by decide

/-- V-LC11. -/
theorem test_getRssi : done .getRssi { idle [0x1F, 0x80] with rssiLast := 0xD0 } (fun t => (seen t, t.rssiLast)) =
    some (([.sel, .x 0xF4 0x1F, .x 0x00 0x80, .rel], .ok, 0x0080), 0xD0) := by decide

/-- V-LC12, V-LC13, V-LC14. -/
theorem test_queries :
    done .getLastRssi { idle [] with rssiLast := 0xD0, lqiLast := 0xAF } seen = some ([], .ok, 0x00D0) ∧
    done .getLastLqi { idle [] with rssiLast := 0xD0, lqiLast := 0xAF } seen = some ([], .ok, 0x00AF) ∧
    done .isChannelClear (idle []) seen = some ([], .ok, 1) := by decide

/-- V-LC15, V-LC16. -/
theorem test_reserved :
    done .reserved0 (idle []) seen = some ([], .illegal, 0) ∧
    done .reservedF { idle [] with resKind := .ok, resVal := 4 } seen = some ([], .illegal, 0) := by decide

/-! ### The step -/

/-- V-I1: one step latches the edge, thirteen serve it. -/
theorem test_edge_no_handler :
    (steps 14 { receiving [0x1F, 0x0F, 0x0F] with pktEdge := ⟨true :: List.replicate 13 false, 0⟩ }).map
      (fun t => (seen t, t.irqPending, t.seqBusy, t.rssiLast)) =
    some (([.sel, .x 0x36 0x1F, .x 0x3A 0x0F, .x 0x34 0x0F, .rel], .none, 0), false, false, 0x55) := by decide

/-- V-I4: the edge goes before the waiting request, which is taken after it. -/
theorem test_edge_before_request :
    (steps 13 { idle [0x0F, 0] with pktEdge := ⟨true :: List.replicate 12 false, 0⟩, handlerReg := true,
                                    requests := [bare [0x04, 0x05]] }).map
      (fun t => (t.trace, t.irqPending, t.requests, t.op)) =
    some ([.notify, .sel, .x 0x0A 0x0F, .x 0x05 0, .rel], false, [], 0x4) := by decide

/-- V-I5, R214: an edge during a service is pending again after it. -/
theorem test_edge_during_service :
    (steps 4 { idle [] with handlerReg := true, irqPending := true, pktEdge := ⟨[false, true, false, false], 0⟩ }).map
      (fun t => (t.trace, t.irqPending, t.seqBusy)) = some ([.notify], true, false) := by decide

/-- R209, R211: an edge inside a DISCARD is latched at once, inside its scope, and is pending when the DISCARD has ended. -/
theorem test_edge_during_discard :
    let s := { idle [0x1F, 0x0F, 0x0F] with requests := [bare [0x0A]], pktEdge := ⟨false :: false :: true :: List.replicate 16 false, 0⟩ }
    (steps 3 s).map (fun t => (t.trace, t.irqPending, t.seqBusy, t.seqStep)) = some ([.sel], true, true, 0) ∧
    (steps 19 s).map (fun t => (t.resKind, t.irqPending, t.seqBusy, t.cs)) = some (.ok, true, false, false) := by decide

/-- R175, R28: edges in every step hold a DISCARD up for one step of eighteen. -/
theorem test_edges_without_end :
    (steps 18 { idle [0x1F, 0x0F, 0x0F] with
      seqBusy := true, op := 0xA, running := some .discard, pktEdge := ⟨List.replicate 18 true, 0⟩ }).map
      (fun t => (seen t, t.seqBusy, t.irqPending)) =
    some (([.sel, .x 0x36 0x1F, .x 0x3A 0x0F, .x 0x34 0x0F, .rel], .ok, 0), false, true) := by decide

/-- V-I6, V-I7: a hung SEND polls again, the edge stays pending, the second request waits. -/
theorem test_hung_send :
    (steps 5 { waiting (.send 0 1) 0x8 3 [0x0F] with pktEdge := ⟨[true, false, false, false, false], 0⟩,
                                                     requests := [bare [0x0E]] }).map
      (fun t => (t.trace, t.irqPending, t.seqBusy, t.cs, t.seqStep, t.requests.length)) =
    some ([.x 0x3D 0x0F], true, true, true, 3, 1) := by decide

/-- The header and payload buffers come with the request (R73): V-S4. -/
theorem test_step_send_buffers :
    (steps 39 { idle [0x1F, 0x1F, 0, 0x1F, 0, 0x1F] with
      requests := [{ bytes := [0x08, 0, 0, 1, 0], hdr := [], pay := [(0, 0x99)], dst := [] }] }).map seen =
    some ([.sel, .x 0x3D 0x1F, .x 0x3F 0x1F, .x 0x01 0, .x 0x7F 0x1F, .x 0x99 0, .x 0x35 0x1F, .rel], .ok, 0) := by decide

/-- Right after reset: a request word and a header word of the table are taken as the first instruction. -/
theorem test_fetch_word :
    (match step (State.reset.withFetchWord 8 0x0E) with | .next t => t.running | .fault _ => none | .refused _ => none) =
      some .isChannelClear ∧
    (match step (State.reset.withFetchWord 8 0x3D) with | .next t => t.running | .fault _ => none | .refused _ => none) =
      some .snop := by decide

/-- V-RT2: the frame of R71 as a chip that ends bursts on release reads it from the trace. -/
theorem test_frame_bytes :
    done (.send 2 1) (pulsing { idle [0x1F, 0x1F, 0, 0x1F, 0, 0, 0x1F, 0, 0x1F] with
      hdr := [(0, 0xAA), (1, 0xBB)], pay := [(0, 0x01)] }) (fun t => fifoWrites .header t.trace) =
    some [0x03, 0xAA, 0xBB, 0x01] := by decide

/-- R76. -/
theorem test_result_codes : (ResKind.none.code, ResKind.ok.code, ResKind.oversize.code, ResKind.illegal.code) = (0, 1, 2, 3) := by decide

/-! ### Host buffers -/

theorem test_buffer_canonical :
    memWrite (memWrite [] 2 0x07) 0 0x05 = [(0, 0x05), (2, 0x07)] ∧ memWrite [(0, 0x05), (2, 0x07)] 0 0x00 = [(2, 0x07)] ∧
    memRead [(2, 0x07)] 0 = 0x00 ∧ memBytes [(2, 0x07)] 1 2 = [0x00, 0x07] ∧ Memory.wf [(2, 0x07), (1, 0x01)] = false ∧
    Memory.wf [(2, 0x00)] = false := by decide

/-! ### Witnesses: for each statement with hypotheses, a state and operands that meet them together -/

theorem witness_StatusReadNeverStrobe :
    ref.wf = true ∧ (isStatus ref 0x70 = true ∧ isStrobe ref 0x30 = true) ∧ (isStatus ref 0x7D = true ∧ isStrobe ref 0x3D = true) := by
  decide

theorem witness_DecodeEncodeRoundTrip :
    ref.wf = true ∧ (Instr.wrBurst 0x3F [0xAA]).wf ref = true ∧ (Instr.send 65535 65535).wf ref = true := by decide

/-- A well-formed layout that is not the reference one. -/
theorem witness_other_layout : ({ ref with rBit := 6, bBit := 7, stateLow := 5, lenW := 12, dummy := 0x55 } : Layout).wf = true := by
  decide

theorem witness_DecodedBytesAreTheEncoding : ref.wf = true ∧ decode ref .hdr [0x36, 0x00] = .ok .sidle [0x00] := by decide

theorem witness_IdleStepOnlySamplesEdge : ∃ s : State,
    s.seqBusy = false ∧ s.irqPending = false ∧ s.edgeNow = false ∧ s.access = none ∧ s.requests = [] :=
  ⟨idle [], by decide⟩

/-- A SEND, which brings source buffers; a RECEIVE, which brings a destination; and a request that brings none. -/
theorem witness_StepRunsWaitingRequest : ∀ r ∈ [bare [0x08, 1, 0, 2, 0], bare [0x09, 1, 0], bare [0x0A]],
    ∃ (s : State) (rest : List Request) (i : Instr),
    s.seqBusy = false ∧ s.irqPending = false ∧ s.edgeNow = false ∧ s.access = none ∧ s.requests = r :: rest ∧
    decode s.par.layout .req r.bytes = .ok i [] := by
  intro r hr
  simp only [List.mem_cons, List.not_mem_nil, or_false] at hr
  rcases hr with rfl | rfl | rfl
  · exact ⟨{ idle [] with requests := [bare [0x08, 1, 0, 2, 0]] }, [], .send 1 2, by decide⟩
  · exact ⟨{ idle [] with requests := [bare [0x09, 1, 0]] }, [], .receive 1, by decide⟩
  · exact ⟨{ idle [] with requests := [bare [0x0A]] }, [], .discard, by decide⟩

theorem witness_StepRunsPresentedAccess : ∃ (s : State) (bytes : List Byte) (i : Instr),
    s.seqBusy = false ∧ s.irqPending = false ∧ s.edgeNow = false ∧ s.access = some bytes ∧
    decode s.par.layout .hdr bytes = .ok i [] :=
  ⟨{ idle [] with access := some [0x0A, 0x05] }, [0x0A, 0x05], .wrSingle 0x0A 0x05, by decide⟩

/-- For no edge, for an edge that finds one pending, and for one that sets the latch. -/
theorem witness_StepResumesRunningOperation : ∀ p ∈ [(false, false), (true, true), (true, false)], ∃ (s : State) (i : Instr),
    s.seqBusy = true ∧ s.running = some i ∧ s.edgeNow = p.1 ∧ s.irqPending = p.2 := fun p _ =>
  ⟨{ waiting .radioOff 0x3 1 [] with pktEdge := ⟨[p.1], 0⟩, irqPending := p.2 }, .radioOff, rfl, rfl, rfl, rfl⟩

theorem witness_FetchWordRunsDecodedInstruction :
    State.reset.par.layout = Layout.reference ∧ (decodeTableWord 8 0x0A = some .discard ∧ Instr.discard.port = .req) ∧
    (decodeTableWord 8 0x30 = some .sres ∧ Instr.sres.port = .hdr) := by decide

/-- With no edge during the service, and with one in every step of it. -/
theorem witness_EdgeWithoutHandlerFlushesOnce : ∀ b : Bool, ∃ (s : State) (n : Nat),
    s.seqBusy = false ∧ s.irqPending = true ∧ s.handlerReg = false ∧ ((s.edges (1 + n)).drop 1).any id = b ∧ n = 12 + b.toNat := by
  intro b
  refine ⟨{ idle [] with irqPending := true, pktEdge := ⟨List.replicate 14 b, 0⟩ }, 12 + b.toNat, ?_⟩
  cases b <;> decide

/-- The edge comes first, and one more comes during the service. -/
theorem witness_EdgeWithHandlerNotifiesOnce : ∃ (s : State) (n : Nat),
    s.seqBusy = false ∧ s.irqPending = false ∧ s.edgeNow = true ∧ s.handlerReg = true ∧
    ((s.edges (2 + n)).drop 2).any id = true ∧ n = 2 + true.toNat :=
  ⟨{ idle [] with pktEdge := ⟨[true, false, true, false, false], 0⟩, handlerReg := true }, 3, by decide⟩

/-- For each clause. -/
theorem witness_BusyStepLatchesEdgeKeepsRequests :
    (∃ s : State, s.edgeNow = true ∧ s.irqPending = false) ∧ (∃ s : State, s.irqPending = true) ∧
    ∃ s t : State, s.seqBusy = true ∧ step s = .next t :=
  ⟨⟨{ idle [] with pktEdge := ⟨[true], 0⟩ }, by decide⟩, ⟨{ idle [] with irqPending := true }, rfl⟩, waiting .radioOff 0x3 1 [0x0F], _, rfl, rfl⟩

/-- For the statements whose one hypothesis is an idle sequencer (SingleWriteAccess, SingleReadAccess, BurstWriteAccess,
BurstReadAccess, StrobeAccesses, ConfigurationRequestsComplete, SetCallbackCompletes, GetRssiReturnsRawByte, CachedQueriesComplete,
ReservedCodesReportIllegal, DiscardFlushesUnconditionally); their clauses in the reference layout too. -/
theorem witness_IdleSequencer : ∃ s : State, s.seqBusy = false ∧ s.par.layout = Layout.reference := ⟨State.reset, by decide⟩

theorem witness_StatusReadAccess : ∃ (s : State) (a : Byte), s.seqBusy = false ∧ isStatus s.par.layout a = true ∧
    s.par.layout = Layout.reference := ⟨idle [], 0x70, by decide⟩

theorem witness_AccessOutsideScopeFaults : ∃ (s : State) (o : Sent) (into : Bound) (rest : List Micro),
    s.seqBusy = true ∧ s.cs = false ∧ s.todo = .xfer o into :: rest :=
  ⟨{ waiting .snop 0x0 1 [] with cs := false, todo := [.xfer (.byte 0x3D) .s] }, _, _, _, rfl, rfl, rfl⟩

/-- For InitCompletesWhenReady and OnCompletesWhenReady: ready at once, and after two tests. -/
theorem witness_CompletesWhenReady :
    ((idle []).seqBusy = false ∧ (idle []).notReadyAt 0 = false) ∧
    (let s := { idle [] with notReady := ⟨[true, true, false], 0⟩ }
     s.seqBusy = false ∧ (∀ k, k < 2 → s.notReadyAt k = true) ∧ s.notReadyAt 2 = false) := by decide

theorem witness_InitAndOnWaitWhileNotReady : ∃ s : State, s.seqBusy = false ∧ s.notReadyAt 0 = true :=
  ⟨{ idle [] with notReady := ⟨[true], 0⟩ }, by decide⟩

/-- RX at the first poll, and at the third. -/
theorem witness_OffCompletesInRX :
    ((idle [0x9F]).seqBusy = false ∧ (idle [0x9F]).radioAt 0 = .rx) ∧
    (∀ k, k < 2 → (idle [0x0F, 0x7F, 0x1F]).radioAt k ≠ .rx) ∧ (idle [0x0F, 0x7F, 0x1F]).radioAt 2 = .rx := by decide

theorem witness_OffWaitsOutsideRX : ∃ s : State, s.seqBusy = false ∧ s.radioAt 0 ≠ .rx := ⟨idle [0x7F], by decide⟩

/-- At the ceiling and with nothing to send. -/
theorem witness_SendCompletes :
    ((idle [0x1F]).seqBusy = false ∧ 61 + 0 ≤ (idle [0x1F]).par.maxLen.toNat ∧ (idle [0x1F]).radioAt 0 = .rx) ∧
    0 + 0 ≤ (idle [0x1F]).par.maxLen.toNat := by decide

/-- Both sides of the ceiling: 62 is above it, 61 is not. -/
theorem witness_SendOversizeRejected :
    (idle []).seqBusy = false ∧ (idle []).par.maxLen.toNat < 60 + 2 ∧ ¬ (idle []).par.maxLen.toNat < 60 + 1 := by decide

theorem witness_SendWaitsOutsideRX :
    (idle [0x7F]).seqBusy = false ∧ 0 + 61 ≤ (idle [0x7F]).par.maxLen.toNat ∧ (idle [0x7F]).radioAt 0 ≠ .rx := by decide

/-- For each of the four clauses. -/
theorem witness_WaitingOperationsFinish :
    ((waiting .init 0x1 1 []).LocalsOk ∧ (waiting .init 0x1 1 []).Waiting .init ∧ (waiting .init 0x1 1 []).notReadyAt 0 = false) ∧
    ((waiting .radioOn 0x2 1 []).LocalsOk ∧ (waiting .radioOn 0x2 1 []).Waiting .radioOn ∧
      (waiting .radioOn 0x2 1 []).notReadyAt 0 = false) ∧
    ((waiting .radioOff 0x3 1 [0x1F]).LocalsOk ∧ (waiting .radioOff 0x3 1 [0x1F]).Waiting .radioOff ∧
      (waiting .radioOff 0x3 1 [0x1F]).radioAt 0 = .rx) ∧
    ((waiting (.send 0 0) 0x8 3 [0x1F]).LocalsOk ∧ (waiting (.send 0 0) 0x8 3 [0x1F]).Waiting (.send 0 0) ∧
      (waiting (.send 0 0) 0x8 3 [0x1F]).radioAt 0 = .rx) :=
  ⟨⟨⟨fun _ _ h => (by cases h), fun _ _ => rfl⟩, ⟨rfl, rfl, rfl, rfl, rfl⟩, rfl⟩,
    ⟨⟨fun _ _ h => (by cases h), fun h => by cases h⟩, ⟨rfl, rfl, rfl, rfl, rfl⟩, rfl⟩,
    ⟨⟨fun _ _ h => (by cases h), fun h => by cases h⟩, ⟨rfl, rfl, rfl, rfl, rfl⟩, by decide⟩,
    ⟨⟨fun _ _ h => (by cases h; exact ⟨fun _ => rfl, fun _ => by decide, fun h => (by cases h), fun h => (by cases h)⟩),
      fun h => by cases h⟩, ⟨rfl, rfl, rfl, rfl, rfl⟩, by decide⟩⟩

/-- `L` = `C` = 255, and `L` = 0 with no capacity. -/
theorem witness_ReceiveCompletes :
    ((idle [0x1F, 0xFF]).seqBusy = false ∧ ((idle [0x1F, 0xFF]).answerAt 1).toNat ≤ 255) ∧
    ((idle [0x1F, 0x00]).answerAt 1).toNat ≤ 0 := by decide

theorem witness_ReceiveOversizeFlushesOnce :
    (idle [0x1F, 0x11]).seqBusy = false ∧ 16 < ((idle [0x1F, 0x11]).answerAt 1).toNat ∧
    (idle [0x1F, 0x11]).par.layout = Layout.reference := by decide

/-- With an index inside and the first one outside the payload. -/
theorem witness_ReceiveStoresExactlyThePayload : ∃ (s t : State) (C : Nat),
    s.seqBusy = false ∧ s.BuffersOk ∧ (s.answerAt 1).toNat ≤ C ∧ Completes (.receive C) s t ∧
    0 < (s.answerAt 1).toNat ∧ (s.answerAt 1).toNat ≤ 1 :=
  ⟨idle [0x1F, 0x01, 0x1F, 0x7E, 0x1F, 0x01, 0x02, 0x1F], _, 16, rfl, ⟨rfl, rfl, rfl, fun _ h => by cases h⟩, by decide,
    completes_of_settle (n := 60) rfl, by decide, by decide⟩

/-- A sender with a header and a payload, for SendWritesTransmitFrame and the sender's side of SendThenReceiveRoundTrip. -/
theorem witness_SendWritesTransmitFrame : ∃ (s t : State) (h p : Nat), s.seqBusy = false ∧ s.par.layout = Layout.reference ∧
    s.par.burstEndPulse = true ∧ h + p ≤ s.par.maxLen.toNat ∧ Completes (.send h p) s t ∧ t.resKind = .ok :=
  ⟨pulsing (idle [0x1F]), _, 2, 1, rfl, rfl, rfl, by decide, completes_of_settle (n := 70) rfl, rfl⟩

/-- The peer's side: it is idle, has the capacity, and its chip delivers the frame of V-RT1. -/
theorem witness_SendThenReceiveRoundTrip :
    (idle [0x1F, 0x03, 0x1F, 0x10, 0x20, 0x30]).seqBusy = false ∧ (idle [0x1F, 0x03, 0x1F, 0x10, 0x20, 0x30]).BuffersOk ∧
    ref.wf = true ∧ 0 + 3 ≤ 16 ∧
    (idle [0x1F, 0x03, 0x1F, 0x10, 0x20, 0x30]).answerAt 1 :: (idle [0x1F, 0x03, 0x1F, 0x10, 0x20, 0x30]).payloadAt 3 =
      transmitFrame [] [0x10, 0x20, 0x30] :=
  ⟨rfl, ⟨rfl, rfl, rfl, fun _ h => by cases h⟩, by decide, by decide, by decide⟩

/-- Buffers that differ from the host's beyond `h` and `p`. -/
theorem witness_SendReadsOnlyItsBytes : ∃ (s t : State) (h p : Nat) (hdr pay : Memory), s.seqBusy = false ∧
    (∀ k, k < h → memRead hdr k = memRead s.hdr k) ∧ (∀ k, k < p → memRead pay k = memRead s.pay k) ∧
    Completes (.send h p) s t ∧ hdr ≠ s.hdr :=
  ⟨{ idle [0x1F] with hdr := [(0, 0xAA)] }, _, 1, 0, [(0, 0xAA), (1, 0xBB)], [], rfl, by decide, by decide,
    completes_of_settle (n := 70) rfl, by decide⟩

theorem witness_HungPollKeepsPolling : ∃ (s : State) (i : Instr), (i = .radioOff ∨ ∃ h p, i = .send h p) ∧ s.Waiting i ∧
    ∀ k, k < 2 → s.radioAt k ≠ .rx :=
  ⟨waiting (.send 0 1) 0x8 3 [0x0F, 0x7F], .send 0 1, .inr ⟨0, 1, rfl⟩, ⟨rfl, rfl, rfl, rfl, rfl⟩, by decide⟩

theorem witness_HungReadyWaitKeepsWaiting : ∃ (s : State) (i : Instr), (i = .init ∨ i = .radioOn) ∧ s.Waiting i ∧
    ∀ k, k < 2 → s.notReadyAt k = true :=
  ⟨{ waiting .init 0x1 1 [] with notReady := ⟨[true, true], 0⟩ }, .init, .inl rfl, ⟨rfl, rfl, rfl, rfl, rfl⟩, by decide⟩

/-- A waiting operation is a state of a run: OFF on its line 1. -/
theorem waiting_runs : (waiting .radioOff 0x3 1 [0x0F]).Runs .radioOff :=
  ⟨⟨fun h => (by cases h), fun _ => ⟨fun h => absurd rfl h, fun _ => ⟨.radioOff, rfl, rfl⟩, fun _ _ h hc => by cases h; cases hc; rfl,
    fun _ _ h => (by cases h), fun h => by cases h⟩⟩, fun _ => rfl⟩

/-- For OnlyReceiveWritesSnapshot, OnlySetCallbackWritesHandler and OnlyReceiveWritesHostBuffers: a running operation that is neither
RECEIVE nor SET_CALLBACK. -/
theorem witness_OnlyReceiveWritesSnapshot : ∃ (i : Instr) (s t : State), s.Runs i ∧ (∀ C, i ≠ .receive C) ∧ (∀ r, i ≠ .setCallback r) ∧
    exec i s = .next t :=
  ⟨.radioOff, _, _, waiting_runs, fun _ h => (by cases h), fun _ h => (by cases h), rfl⟩

/-- A state of the last line of a request, one event before its second result register is written. -/
theorem witness_ResultWrittenOnlyAtCompletion : ∃ (i : Instr) (s t : State), s.Runs i ∧ exec i s = .next t ∧
    (t.resKind ≠ s.resKind ∨ t.resVal ≠ s.resVal) :=
  ⟨.isChannelClear, { idle [] with seqBusy := true, op := 0xE, running := some .isChannelClear, todo := [.setVal 1, .finish] }, _,
    ⟨⟨fun h => (by cases h), fun _ => ⟨fun _ => rfl, fun h => (by cases h), fun _ _ h hc => by cases h; cases hc; rfl,
      fun _ _ h => (by cases h), fun h => by cases h⟩⟩, fun _ => rfl⟩, rfl, .inr (by decide)⟩

theorem witness_RequestIgnoresStaleLatch : ∃ (i : Instr) (s t : State), i.port = .req ∧ s.seqBusy = false ∧ Completes i s t :=
  ⟨.radioOff, idle [0x1F], _, rfl, rfl, completes_of_settle (n := 40) rfl⟩

/-- For StepKeepsParameters and StepOnlyExtendsTrace. -/
theorem witness_StepAnswersNext : ∃ s t : State, step s = .next t := ⟨{ idle [0x0F, 0] with requests := [bare [0x04, 0x05]] }, _, rfl⟩

/-- For each clause; the second with an edge in every step. -/
theorem witness_RequestEndsOrWaits : (∃ (i : Instr) (s : State), i.port = .req ∧ s.seqBusy = false) ∧
    ∃ (i : Instr) (s t : State), s.seqBusy = true ∧ s.running = some i ∧ (s.edges 20).all id = true ∧ Completes i s t :=
  ⟨⟨.init, State.reset, by decide⟩, .setCallback true,
    { waiting (.setCallback true) 0x7 0 [] with cs := false, pktEdge := ⟨List.replicate 20 true, 0⟩ }, _, rfl, rfl, by decide,
    completes_of_settle (n := 20) rfl⟩

/-- An idle state that takes a request, for the three invariants together. -/
theorem witness_StepKeepsInvariants : ∃ s t : State, s.SequencerOk ∧ s.BuffersOk ∧ s.ScopeOk ∧ step s = .next t :=
  ⟨{ idle [0x0F, 0] with requests := [bare [0x04, 0x05]] }, _, ⟨fun _ => ⟨rfl, rfl, rfl, rfl⟩, fun h => by cases h⟩,
    ⟨rfl, rfl, rfl, fun r h => by
      have h' : r = bare [0x04, 0x05] := by simpa using h
      subst h'
      exact ⟨rfl, rfl, rfl⟩⟩, rfl, rfl⟩

/-- A busy state of the sequencer invariant, and the interrupt service. -/
theorem witness_SequencerOk_busy : (waiting .radioOff 0x3 1 [0x0F]).SequencerOk ∧ (beginService (idle [])).SequencerOk :=
  ⟨waiting_runs.1, fun h => (by cases h), fun _ => ⟨fun _ => rfl, fun h => (by cases h), fun _ _ h => (by cases h),
    fun _ _ h => (by cases h), fun h => by cases h⟩⟩

theorem witness_StepAlwaysAnswersNext : ∃ s : State, s.SequencerOk ∧ s.par.layout.wf = true ∧
    (∀ bytes, s.access = some bytes → ∃ i, i.port = .hdr ∧ i.wf s.par.layout = true ∧ bytes = encode s.par.layout i) ∧
    (∀ r ∈ s.requests, ∃ i, i.port = .req ∧ i.wf s.par.layout = true ∧ r.bytes = encode s.par.layout i) ∧ s.requests ≠ [] :=
  ⟨{ idle [] with requests := [bare [0x04, 0x05]] }, ⟨fun _ => ⟨rfl, rfl, rfl, rfl⟩, fun h => by cases h⟩, by decide,
    fun _ h => (by cases h),
    (fun r h => by
      have h' : r = bare [0x04, 0x05] := by simpa using h
      subst h'
      exact ⟨.setChannel 0x05, rfl, rfl, rfl⟩),
    by decide⟩

theorem witness_BufferReadAfterWrite : Memory.wf [(0, 0x05), (2, 0x07)] = true := by decide

theorem witness_SoftwareHostSeesDistinctError : ∃ s t : State,
    s.resKind = .oversize ∧ t.resKind = .ok :=
  ⟨{ idle [] with resKind := .oversize }, { idle [] with resKind := .ok }, by decide⟩

end Sys2Proof.Tests
end

section
/-! PROOFS. The family `00_scope.md`: the scope rules of the trace (R9, R51), how the trace grows (R2, R12, R50), who writes the host
buffers (R10, R43). First the rules about a step that these proofs share: what an idle step leaves alone, and the one event that a busy
step makes. -/

namespace Sys2Proof.Machine

/-! ### Frames: taking an instruction, starting a service, the interrupt inputs -/

@[simp] theorem withEdges_cs (s : State) (b : Bool) (e : Source Bool) : (s.withEdges b e).cs = s.cs := rfl
@[simp] theorem withEdges_trace (s : State) (b : Bool) (e : Source Bool) : (s.withEdges b e).trace = s.trace := rfl

@[simp] theorem beginService_cs (s : State) : (beginService s).cs = s.cs := rfl
@[simp] theorem beginService_trace (s : State) : (beginService s).trace = s.trace := rfl

@[simp] theorem loadBuffers_cs (s : State) (i : Instr) (r : Request) : (s.loadBuffers i r).cs = s.cs := rfl
@[simp] theorem loadBuffers_trace (s : State) (i : Instr) (r : Request) : (s.loadBuffers i r).trace = s.trace := rfl

@[simp] theorem takeOf_cs (i : Instr) (s : State) : (takeOf i s).cs = s.cs := by unfold takeOf; split <;> rfl
@[simp] theorem takeOf_trace (i : Instr) (s : State) : (takeOf i s).trace = s.trace := by unfold takeOf; split <;> rfl
@[simp] theorem takeOf_hdr (i : Instr) (s : State) : (takeOf i s).hdr = s.hdr := by unfold takeOf; split <;> rfl
@[simp] theorem takeOf_pay (i : Instr) (s : State) : (takeOf i s).pay = s.pay := by unfold takeOf; split <;> rfl
@[simp] theorem takeOf_dst (i : Instr) (s : State) : (takeOf i s).dst = s.dst := by unfold takeOf; split <;> rfl

/-! ### The event of a step -/

/-- The next event of a busy sequencer is `m`, and `rest` is then left of the line: the first event left, or the first of the running
operation's line where that line is about to begin (R2, R21). -/
def State.NextEvent (s : State) (m : Micro) (rest : List Micro) : Prop :=
  s.todo = m :: rest ∨ s.todo = [] ∧ ∃ i, s.running = some i ∧ lineOf i s = m :: rest

theorem nextEvent_withEdges {s : State} {m : Micro} {rest : List Micro} {b : Bool} {e : Source Bool} :
    (s.withEdges b e).NextEvent m rest ↔ s.NextEvent m rest := by
  simp [State.NextEvent, lineOf_withEdges]

/-- A step of a busy sequencer that is not the setting of the latch makes exactly its next event (R2, R175). -/
theorem step_busy {s t : State} (hb : s.seqBusy = true) (he : s.latches = false) (h : step s = .next t) :
    ∃ m rest, s.NextEvent m rest ∧ m.legal s = true ∧
      t = ((m.effect s).setTodo rest).withEdges s.irqPending s.pktEdge.advance := by
  rw [step_quiet he] at h
  obtain ⟨m, rest, hm, hl, rfl⟩ := sequencerStep_busy (by simpa using hb) h
  rw [legal_withEdges] at hl
  exact ⟨m, rest, nextEvent_withEdges.mp hm, hl, by rw [effect_withEdges]; rfl⟩

/-- Starting a service, taking an access or a request, and staying idle are no bus events (R173, R211, R241). -/
theorem sequencerStep_idle_bus {s t : State} (hb : s.seqBusy = false) (h : sequencerStep s = .next t) :
    t.cs = s.cs ∧ t.trace = s.trace := by
  obtain ⟨-, rfl⟩ | ⟨-, ⟨bytes, i, -, -, rfl⟩ | ⟨-, -, rfl⟩ | ⟨r, rest, i, -, -, -, rfl⟩⟩ := sequencerStep_idle hb h <;> simp

/-- What a step does on the bus, said once: nothing, or what the next event of a busy sequencer does. -/
theorem step_bus {s t : State} (h : step s = .next t) :
    (t.cs = s.cs ∧ t.trace = s.trace) ∨
    (s.seqBusy = true ∧ ∃ m rest, s.NextEvent m rest ∧ t.cs = (m.effect s).cs ∧ t.trace = (m.effect s).trace) := by
  obtain ⟨-, rfl⟩ | ⟨he, hq⟩ := step_cases h
  · exact .inl ⟨rfl, rfl⟩
  by_cases hb : s.seqBusy = true
  · obtain ⟨m, rest, hm, -, rfl⟩ := step_busy hb he h
    exact .inr ⟨hb, m, rest, hm, rfl, rfl⟩
  · exact .inl (sequencerStep_idle_bus (s := s.withEdges s.irqPending s.pktEdge.advance) (by simpa using hb) hq)

/-- In a state of the sequencer invariant the next event is one that `follows` accepts. -/
theorem nextEvent_follows {s : State} {m : Micro} {rest : List Micro} (h : s.SequencerOk) (hb : s.seqBusy = true)
    (hm : s.NextEvent m rest) : follows s.running s.seqStep s.cs (m :: rest) = true := by
  obtain hm | ⟨ht, i, hr, hl⟩ := hm
  · obtain ⟨htodo, -⟩ := h.2 hb
    simpa [hm] using htodo
  · exact busy_follows h hb (.inr ⟨ht, hr, hl⟩)

/-! ### Scope rules of the trace (R9, R51) -/

theorem scopeAfter_append (c : Bool) (a b : List Event) : scopeAfter c (a ++ b) = (scopeAfter c a).bind fun d => scopeAfter d b := by
  induction a generalizing c with
  | nil => rfl
  | cons e a ih => cases e <;> cases c <;> simp [scopeAfter, ih]

/-- The scope rules depend on chip select and the trace alone. -/
theorem State.ScopeOk.congr {s t : State} (h : s.ScopeOk) (hc : t.cs = s.cs) (ht : t.trace = s.trace) : t.ScopeOk := by
  rw [State.ScopeOk, hc, ht]
  exact h

/-- One more event that the rules allow where chip select stands. -/
theorem State.ScopeOk.snoc {s t : State} {e : Event} (h : s.ScopeOk) (ht : t.trace = s.trace ++ [e])
    (he : scopeAfter s.cs [e] = some t.cs) : t.ScopeOk := by
  rw [State.ScopeOk] at h ⊢
  rw [ht, scopeAfter_append, h]
  exact he

/-- An event that `follows` accepts keeps the scope rules: the four events that record something do so with chip select where the rules
want it, and every other event touches neither the trace nor chip select. -/
theorem effect_scopeOk {i : Option Instr} {k : Nat} {m : Micro} {rest : List Micro} {s : State}
    (hf : follows i k s.cs (m :: rest) = true) (h : s.ScopeOk) : (m.effect s).ScopeOk := by
  cases m
  case select =>
    obtain ⟨hcs, -⟩ : s.cs = false ∧ _ := by simpa [follows] using hf
    exact h.snoc rfl (by simp [scopeAfter, Micro.effect, hcs])
  case release =>
    obtain ⟨hcs, -⟩ : s.cs = true ∧ _ := by simpa [follows] using hf
    exact h.snoc rfl (by simp [scopeAfter, Micro.effect, hcs])
  case xfer o into =>
    obtain ⟨hcs, -⟩ : s.cs = true ∧ _ := by simpa [follows] using hf
    exact h.snoc rfl (by simp [scopeAfter, Micro.effect, hcs])
  case notify =>
    obtain ⟨⟨-, hcs⟩, -⟩ : (_ ∧ s.cs = false) ∧ _ := by simpa [follows] using hf
    exact h.snoc rfl (by simp [scopeAfter, Micro.effect, hcs])
  all_goals exact h.congr rfl rfl

/-- Settles O57: only an event that `follows` accepts touches the bus, and such an event keeps the scope rules. -/
theorem stepKeepsScopeRules : Obligations.StepKeepsScopeRules := by
  intro s t hseq hscope h
  obtain ⟨hc, ht⟩ | ⟨hb, m, rest, hm, hc, ht⟩ := step_bus h
  · exact hscope.congr hc ht
  · exact (effect_scopeOk (nextEvent_follows hseq hb hm) hscope).congr hc ht

/-! ### Host buffers (R10, R43) -/

/-- Only RECEIVE has stores among its events. -/
theorem follows_store {i : Instr} {k j : Nat} {cs : Bool} {rest : List Micro} (h : follows (some i) k cs (.store j :: rest) = true) :
    ∃ C, i = .receive C := by
  cases i
  case receive C => exact ⟨C, rfl⟩
  all_goals simp [follows] at h

/-- Settles O49: taking an instruction writes no buffer, no event writes a source buffer, and the one event that writes `dst`
is a store. -/
theorem onlyReceiveWritesHostBuffers : Obligations.OnlyReceiveWritesHostBuffers := by
  intro i s t hruns h
  obtain ⟨-, rfl⟩ | ⟨-, m, rest, hf, -, rfl⟩ := exec_runs hruns h
  · simp
  · refine ⟨effect_hdr m s, effect_pay m s, fun hi => effect_dst m s ?_⟩
    rintro k rfl
    obtain ⟨C, hC⟩ := follows_store hf
    exact hi C hC

/-- Settles O59 by the laws of host buffers. -/
theorem bufferReadAfterWrite : Obligations.BufferReadAfterWrite := by
  intro m k j v hwf
  exact ⟨memRead_memWrite_same hwf, memRead_memWrite_other, memWrite_wf hwf⟩

/-! ### The trace grows by one event at most (R2, R12), and an exchange outside a scope (R9) -/

/-- Settles O53: a step does nothing on the bus or makes one event, which records at most one entry. -/
theorem stepOnlyExtendsTrace : Obligations.StepOnlyExtendsTrace := by
  intro s t h
  obtain ⟨-, ht⟩ | ⟨-, m, rest, -, -, ht⟩ := step_bus h
  · exact .inl ht
  · rw [ht]
    exact effect_trace m s

/-- An event that is not legal stops the step (R9; assumption 10). -/
theorem runMicro_illegal {m : Micro} {s : State} (h : m.legal s = false) : runMicro m s = .fault .xferNotSelected := by
  simp [runMicro, h]

/-- Settles O23: the next event of a busy sequencer is the first one left, and an exchange with `CS` = 0 is not legal. -/
theorem accessOutsideScopeFaults : Obligations.AccessOutsideScopeFaults := by
  intro i s o into rest hb hcs ht
  rw [exec_busy hb, runNext_todo ht]
  exact runMicro_illegal hcs

end Sys2Proof.Machine
end

section
/-! PROOFS. The family `10_state.md`: the sequencer invariant (R21, R22, R36), the registers that only one instruction writes (R25–R28),
the parameters (R35) and reset (R34). First the frames these proofs share. -/

namespace Sys2Proof.Machine

/-! ### Frames: taking an instruction, starting a service, the interrupt inputs -/

@[simp] theorem withEdges_par (s : State) (b : Bool) (e : Source Bool) : (s.withEdges b e).par = s.par := rfl
@[simp] theorem withEdges_requests (s : State) (b : Bool) (e : Source Bool) : (s.withEdges b e).requests = s.requests := rfl

@[simp] theorem beginService_par (s : State) : (beginService s).par = s.par := rfl
@[simp] theorem loadBuffers_par (s : State) (i : Instr) (r : Request) : (s.loadBuffers i r).par = s.par := rfl

section
variable (i : Instr) (s : State)

@[simp] theorem takeOf_seqBusy : (takeOf i s).seqBusy = true := by unfold takeOf; split <;> rfl
@[simp] theorem takeOf_seqStep : (takeOf i s).seqStep = 0 := by unfold takeOf; split <;> rfl
@[simp] theorem takeOf_running : (takeOf i s).running = some i := by unfold takeOf; split <;> rfl
@[simp] theorem takeOf_todo : (takeOf i s).todo = [] := by unfold takeOf; split <;> rfl
@[simp] theorem takeOf_locals : (takeOf i s).locals = Locals.empty := by unfold takeOf; split <;> rfl
@[simp] theorem takeOf_rssiLast : (takeOf i s).rssiLast = s.rssiLast := by unfold takeOf; split <;> rfl
@[simp] theorem takeOf_lqiLast : (takeOf i s).lqiLast = s.lqiLast := by unfold takeOf; split <;> rfl
@[simp] theorem takeOf_handlerReg : (takeOf i s).handlerReg = s.handlerReg := by unfold takeOf; split <;> rfl
@[simp] theorem takeOf_irqPending : (takeOf i s).irqPending = s.irqPending := by unfold takeOf; split <;> rfl
@[simp] theorem takeOf_par : (takeOf i s).par = s.par := by unfold takeOf; split <;> rfl

/-- Taking a request writes its code into `OP` (R173). -/
theorem takeOf_op {code : BitVec 4} (h : requestCode i = some code) : (takeOf i s).op = code := by
  rw [takeOf, h]
  rfl

end

/-! ### The sequencer invariant where the sequencer is idle (R22, R173, R211) -/

/-- The interrupt inputs are no part of the invariant. -/
theorem sequencerOk_withEdges {s : State} {b : Bool} {e : Source Bool} : (s.withEdges b e).SequencerOk ↔ s.SequencerOk := Iff.rfl

/-- Line 0 of every instruction begins with the chip released. -/
theorem lineHead_zero (i : Instr) : lineHead i 0 false = true := by cases i <;> rfl

/-- An instruction just taken stands at the head of its line 0, with no local written. -/
theorem sequencerOk_takeOf {i : Instr} {s : State} (hcs : s.cs = false) : (takeOf i s).SequencerOk := by
  refine ⟨fun hb => by simp at hb, fun _ => ⟨fun ht => absurd (takeOf_todo i s) ht, fun _ => ⟨i, takeOf_running i s, ?_⟩, ?_, ?_⟩⟩
  · simpa [hcs] using lineHead_zero i
  · intro j code hj hcode
    rw [takeOf_running] at hj
    obtain rfl : i = j := Option.some.inj hj
    exact takeOf_op i s hcode
  · simp [State.LocalsOk, Locals.empty]

/-- The service's own events keep to the order of `follows`: a discard in a scope of its own, or one notification (R212, R213). -/
theorem follows_serviceEvents (s : State) : follows none 0 false (serviceEvents s) = true := by
  by_cases hr : s.handlerReg = true <;> simp [serviceEvents, discardFrames, hr, follows, follows_flushRx]

/-- A service that starts at an idle point has its events left. -/
theorem sequencerOk_beginService {s : State} (h : s.SequencerOk) (hb : s.seqBusy = false) : (beginService s).SequencerOk := by
  obtain ⟨hcs, hstep, -⟩ := h.1 hb
  have hf : follows none s.seqStep s.cs (serviceEvents s) = true := by rw [hstep, hcs]; exact follows_serviceEvents s
  refine ⟨fun hb => (by cases hb), fun _ => ⟨fun _ => hf, fun ht => ?_, fun _ _ hr => (by cases hr), fun _ _ hr => (by cases hr),
    fun hr => (by cases hr)⟩⟩
  have ht : serviceEvents s = [] := ht
  simp [ht, follows] at hf

/-- An event of an idle sequencer keeps the invariant. -/
theorem sequencerStep_idle_sequencerOk {s t : State} (h : s.SequencerOk) (hb : s.seqBusy = false) (hs : sequencerStep s = .next t) :
    t.SequencerOk := by
  obtain ⟨hcs, -⟩ := h.1 hb
  obtain ⟨-, rfl⟩ | ⟨-, ⟨bytes, i, -, -, rfl⟩ | ⟨-, -, rfl⟩ | ⟨r, rest, i, -, -, -, rfl⟩⟩ := sequencerStep_idle hb hs
  · exact sequencerOk_beginService h hb
  · exact sequencerOk_takeOf hcs
  · exact h
  · exact sequencerOk_takeOf hcs

/-! ### What an event of a running operation does to `STEP` and to the locals of SEND and INIT (R36) -/

@[simp] theorem bind_total (l : Locals) (into : Bound) (b : Byte) : (l.bind into b).total = l.total := by cases into <;> rfl
@[simp] theorem bind_entry (l : Locals) (into : Bound) (b : Byte) : (l.bind into b).entry = l.entry := by cases into <;> rfl

section
variable {m : Micro} {s : State}

/-- Before the end of the operation `total` changes by its assignment alone. -/
theorem effect_total (hb : (m.effect s).seqBusy = true) (hm : ∀ n, m ≠ .setTotal n) : (m.effect s).locals.total = s.locals.total := by
  cases m
  case setTotal n => exact absurd rfl (hm n)
  case xfer o into => exact bind_total ..
  case finish => cases hb
  case finishService => cases hb
  all_goals rfl

/-- Before the end of the operation the number of entries written changes by `nextEntry` alone. -/
theorem effect_entry (hb : (m.effect s).seqBusy = true) (hm : m ≠ .nextEntry) : (m.effect s).locals.entry = s.locals.entry := by
  cases m
  case nextEntry => exact absurd rfl hm
  case xfer o into => exact bind_entry ..
  case finish => cases hb
  case finishService => cases hb
  all_goals rfl

/-- How `STEP` moves (R21), said once: it stays, or the line is over and a branch goes to a line that comes later or to the head of
INIT's loop, or a wait ends. -/
theorem effect_seqStep {j : Instr} {rest : List Micro} (hf : follows (some j) s.seqStep s.cs (m :: rest) = true)
    (hb : (m.effect s).seqBusy = true) :
    (m.effect s).seqStep = s.seqStep ∨
    rest = [] ∧ m = .goto (m.effect s).seqStep ∧ mayGo j s.seqStep (m.effect s).seqStep = true ∨
    rest = [] ∧ (m = .untilReady s.seqStep ∨ m = .untilRx s.seqStep) ∧ (m.effect s).seqStep = s.seqStep + 1 := by
  cases m
  case goto k =>
    obtain ⟨⟨hgo, -⟩, rfl⟩ : (mayGo j s.seqStep k = true ∧ _) ∧ rest = [] := by simpa [follows] using hf
    exact .inr (.inl ⟨rfl, rfl, hgo⟩)
  case untilReady k =>
    obtain ⟨⟨⟨rfl, -⟩, -⟩, rfl⟩ : ((k = s.seqStep ∧ _) ∧ _) ∧ rest = [] := by simpa [follows] using hf
    by_cases hready : s.notReady.next Config.notReadyLevel = true <;> simp [Micro.effect, hready]
  case untilRx k =>
    obtain ⟨⟨⟨rfl, -⟩, -⟩, rfl⟩ : ((k = s.seqStep ∧ _) ∧ _) ∧ rest = [] := by simpa [follows] using hf
    by_cases hrx : s.radio = .rx <;> simp [Micro.effect, hrx]
  case finish => cases hb
  case finishAccess => cases hb
  all_goals exact .inl rfl

/-- `total` is assigned on line 0 of SEND alone, with the exact sum (R140). -/
theorem follows_setTotal {h p n k : Nat} {cs : Bool} {rest : List Micro}
    (hf : follows (some (.send h p)) k cs (.setTotal n :: rest) = true) : n = h + p := by
  obtain ⟨⟨-, hn⟩, -⟩ : (_ ∧ n = h + p) ∧ _ := by simpa [follows] using hf
  exact hn

/-- The loop of INIT counts its entries on line 3 alone (R160). -/
theorem follows_nextEntry {i : Option Instr} {k : Nat} {cs : Bool} {rest : List Micro}
    (hf : follows i k cs (.nextEntry :: rest) = true) : k = 3 := by
  obtain ⟨⟨-, hk⟩, -⟩ : (_ ∧ k = 3) ∧ _ := by simpa [follows] using hf
  exact hk

end

/-! ### The locals of SEND: `total` and the oversize test (R140, R141) -/

/-- No event of the list writes `STEP`. -/
def StaysOnLine (l : List Micro) : Prop := ∀ k, .goto k ∉ l ∧ .untilReady k ∉ l ∧ .untilRx k ∉ l

theorem StaysOnLine.tail {m : Micro} {l : List Micro} (h : StaysOnLine (m :: l)) : StaysOnLine l := fun k =>
  let ⟨hgo, hready, hrx⟩ := h k
  ⟨fun hm => hgo (.tail _ hm), fun hm => hready (.tail _ hm), fun hm => hrx (.tail _ hm)⟩

/-- What a state of SEND knows of its locals: `State.LocalsOk` for SEND, its parts named. -/
structure State.SendOk (s : State) (h p : Nat) : Prop where
  total : s.seqStep ≠ 0 ∨ s.todo ≠ [] → s.locals.total = h + p
  fits : 1 < s.seqStep → h + p ≤ s.par.maxLen.toNat
  lineZero : s.seqStep = 0 → ∀ k, .goto k ∈ s.todo → k = 1
  lineOne : s.seqStep = 1 → StaysOnLine s.todo

theorem localsOk_iff {s : State} :
    s.LocalsOk ↔ (∀ h p, s.running = some (.send h p) → s.SendOk h p) ∧ (s.running = some .init → s.seqStep ≤ 1 → s.locals.entry = 0) :=
  and_congr_left' <| forall₂_congr fun _ _ => imp_congr_right fun _ =>
    ⟨fun ⟨h1, h2, h3, h4⟩ => ⟨h1, h2, h3, h4⟩, fun h => ⟨h.total, h.fits, h.lineZero, h.lineOne⟩⟩

section
variable {s : State} {m : Micro} {rest : List Micro} {h p : Nat}

/-- A busy SEND that begins a line begins one of its own. -/
theorem nextEvent_send (hr : s.running = some (.send h p)) (hm : s.NextEvent m rest) :
    s.todo = m :: rest ∨ s.todo = [] ∧ sendLine h p s = m :: rest := by
  obtain hm | ⟨ht, i, hi, hl⟩ := hm
  · exact .inl hm
  · obtain rfl : Instr.send h p = i := Option.some.inj (hr.symm.trans hi)
    exact .inr ⟨ht, hl⟩

/-- After any event of line 0, and from then on, `total` is the exact sum. -/
theorem send_total (hs : s.SendOk h p) (hr : s.running = some (.send h p)) (hm : s.NextEvent m rest)
    (hf : follows (some (.send h p)) s.seqStep s.cs (m :: rest) = true) (hb : (m.effect s).seqBusy = true) :
    (m.effect s).locals.total = h + p := by
  by_cases ha : ∃ n, m = .setTotal n
  · obtain ⟨n, rfl⟩ := ha
    exact follows_setTotal hf
  · rw [effect_total hb (not_exists.mp ha)]
    refine hs.total ?_
    obtain ht | ⟨-, hl⟩ := nextEvent_send hr hm
    · exact .inr (by simp [ht])
    · refine .inl fun h0 => ha ⟨h + p, ?_⟩
      simp only [sendLine, h0, List.cons.injEq] at hl
      exact hl.1.symm

/-- Line 0 leads to line 1 alone. -/
theorem send_lineZero (hs : s.SendOk h p) (hr : s.running = some (.send h p)) (hm : s.NextEvent m rest) (h0 : s.seqStep = 0) {k : Nat}
    (hk : .goto k ∈ m :: rest) : k = 1 := by
  obtain ht | ⟨-, hl⟩ := nextEvent_send hr hm
  · exact hs.lineZero h0 k (ht ▸ hk)
  · simp only [sendLine, h0] at hl
    simpa [← hl] using hk

/-- Line 1 goes on where the sum passes the oversize test, and else ends SEND (R141). -/
theorem send_lineOne (hs : s.SendOk h p) (hr : s.running = some (.send h p)) (hm : s.NextEvent m rest) (h1 : s.seqStep = 1) :
    (rest = [] ∧ h + p ≤ s.par.maxLen.toNat) ∨ StaysOnLine (m :: rest) := by
  obtain ht | ⟨-, hl⟩ := nextEvent_send hr hm
  · exact .inr (ht ▸ hs.lineOne h1)
  · have htotal : s.locals.total = h + p := hs.total (.inl (by simp [h1]))
    simp only [sendLine, h1, htotal] at hl
    split at hl
    · exact .inr (hl ▸ by simp [StaysOnLine, raiseError, complete])
    · rename_i hmax
      simp only [List.cons.injEq] at hl
      exact .inl ⟨hl.2.symm, by simpa [exceedsMax] using hmax⟩

/-- An event that takes SEND to another line takes it from line 0 to line 1, or on from a sum that fits. -/
theorem send_leavesLine (hs : s.SendOk h p) (hr : s.running = some (.send h p)) (hm : s.NextEvent m rest)
    (hf : follows (some (.send h p)) s.seqStep s.cs (m :: rest) = true) (hb : (m.effect s).seqBusy = true) :
    (m.effect s).seqStep = s.seqStep ∨
    rest = [] ∧ 0 < (m.effect s).seqStep ∧ ((m.effect s).seqStep = 1 ∨ h + p ≤ s.par.maxLen.toNat) := by
  have hfits (hpos : 0 < (m.effect s).seqStep) (h01 : s.seqStep = 0 → (m.effect s).seqStep = 1) (hmoves : ¬ StaysOnLine (m :: rest)) :
      0 < (m.effect s).seqStep ∧ ((m.effect s).seqStep = 1 ∨ h + p ≤ s.par.maxLen.toNat) := by
    refine ⟨hpos, ?_⟩
    obtain h0 | h1 | h2 : s.seqStep = 0 ∨ s.seqStep = 1 ∨ 1 < s.seqStep := by omega
    · exact .inl (h01 h0)
    · obtain ⟨-, hmax⟩ := (send_lineOne hs hr hm h1).resolve_right hmoves
      exact .inr hmax
    · exact .inr (hs.fits h2)
  obtain hstep | ⟨hrest, hgo, hlt⟩ | ⟨hrest, huntil, hsucc⟩ := effect_seqStep hf hb
  · exact .inl hstep
  · have hlt : s.seqStep < (m.effect s).seqStep := by simpa [mayGo] using hlt
    have hmem : .goto (m.effect s).seqStep ∈ m :: rest := by rw [← hgo]; exact List.mem_cons_self
    exact .inr ⟨hrest, hfits (by omega) (fun h0 => send_lineZero hs hr hm h0 hmem) fun hstay => (hstay _).1 hmem⟩
  · refine .inr ⟨hrest, hfits (by omega) (by omega) fun hstay => ?_⟩
    obtain ⟨-, hready, hrx⟩ := hstay s.seqStep
    obtain heq | heq := huntil
    · exact hready (heq ▸ List.mem_cons_self)
    · exact hrx (heq ▸ List.mem_cons_self)

/-- Every event of SEND but its last keeps what SEND knows of its locals. -/
theorem sendOk_effect (hs : s.SendOk h p) (hr : s.running = some (.send h p)) (hm : s.NextEvent m rest)
    (hf : follows (some (.send h p)) s.seqStep s.cs (m :: rest) = true) (hb : (m.effect s).seqBusy = true) :
    ((m.effect s).setTodo rest).SendOk h p := by
  have hpar : (m.effect s).par = s.par := effect_par m s
  obtain hstep | ⟨rfl, hpos, hfits⟩ := send_leavesLine hs hr hm hf hb
  · refine ⟨fun _ => send_total hs hr hm hf hb, ?_, ?_, ?_⟩ <;> simp only [State.setTodo_seqStep, State.setTodo_par,
      State.setTodo_todo, hstep, hpar]
    · exact hs.fits
    · exact fun h0 k hk => send_lineZero hs hr hm h0 (.tail _ hk)
    · intro h1
      obtain ⟨rfl, -⟩ | hstay := send_lineOne hs hr hm h1
      · simp [StaysOnLine]
      · exact hstay.tail
  · refine ⟨fun _ => send_total hs hr hm hf hb, ?_, ?_, ?_⟩ <;> simp only [State.setTodo_seqStep, State.setTodo_par,
      State.setTodo_todo, hpar]
    · intro h1
      exact hfits.resolve_left (by omega)
    · intro h0
      omega
    · simp [StaysOnLine]

end

/-! ### The locals of INIT: its loop has not begun on lines 0 and 1 (R160) -/

/-- No event of INIT leads back before the head of its loop. -/
theorem init_entry_effect {s : State} {m : Micro} {rest : List Micro} (h : s.seqStep ≤ 1 → s.locals.entry = 0)
    (hf : follows (some .init) s.seqStep s.cs (m :: rest) = true) (hb : (m.effect s).seqBusy = true)
    (hle : (m.effect s).seqStep ≤ 1) : (m.effect s).locals.entry = 0 := by
  have hstep : s.seqStep ≤ 1 := by
    obtain hstep | ⟨-, -, hgo⟩ | ⟨-, -, hsucc⟩ := effect_seqStep hf hb
    · omega
    · simp only [mayGo, Bool.or_eq_true, Bool.and_eq_true, decide_eq_true_eq, beq_iff_eq] at hgo
      omega
    · omega
  rw [effect_entry hb ?_]
  · exact h hstep
  · rintro rfl
    have hthree := follows_nextEntry hf
    omega

/-! ### Every event and every step keeps the sequencer invariant -/

section
variable {s : State} {m : Micro} {rest : List Micro}

/-- Every event that leaves the operation running keeps what is known of its locals. -/
theorem localsOk_effect (h : s.SequencerOk) (hb : s.seqBusy = true) (hm : s.NextEvent m rest) (hb' : (m.effect s).seqBusy = true)
    (hr' : (m.effect s).running = s.running) : ((m.effect s).setTodo rest).LocalsOk := by
  have hf := nextEvent_follows h hb hm
  obtain ⟨-, -, -, hlocals⟩ := h.2 hb
  obtain ⟨hsend, hinit⟩ := localsOk_iff.mp hlocals
  refine localsOk_iff.mpr ⟨fun l p hr => ?_, fun hr => ?_⟩
  · have hr : s.running = some (.send l p) := hr'.symm.trans hr
    exact sendOk_effect (hsend l p hr) hr hm (hr ▸ hf) hb'
  · have hr : s.running = some .init := hr'.symm.trans hr
    exact init_entry_effect (hinit hr) (hr ▸ hf) hb'

/-- The next event of a busy sequencer keeps the invariant: the line goes on, or is over with `STEP` at the head of a line, or the
sequencer is idle (R21, R22, R174). -/
theorem sequencerOk_effect (h : s.SequencerOk) (hb : s.seqBusy = true) (hm : s.NextEvent m rest) :
    ((m.effect s).setTodo rest).SequencerOk := by
  have hop : ∀ i code, (m.effect s).running = s.running → (m.effect s).running = some i → requestCode i = some code →
      (m.effect s).op = code := by
    intro i code hr' hr hcode
    obtain ⟨-, -, hop, -⟩ := h.2 hb
    exact (effect_op m s).trans (hop i code (hr'.symm.trans hr) hcode)
  obtain ⟨hb', hr', hne, hk, hf⟩ | ⟨hb', hr', rfl, -, j, hj, hhead⟩ | ⟨hb', rfl, hcs, hk, hr'⟩ :=
    effect_follows (nextEvent_follows h hb hm) rfl rfl rfl hb
  · refine ⟨fun hi => absurd (hb'.symm.trans hi) (by simp), fun _ => ⟨fun _ => ?_, fun ht => absurd ht hne,
      fun i code => hop i code hr', localsOk_effect h hb hm hb' hr'⟩⟩
    simpa [hr', hk] using hf
  · exact ⟨fun hi => absurd (hb'.symm.trans hi) (by simp), fun _ => ⟨fun ht => absurd rfl ht,
      fun _ => ⟨j, hr'.trans hj, hhead⟩, fun i code => hop i code hr', localsOk_effect h hb hm hb' hr'⟩⟩
  · exact ⟨fun _ => ⟨hcs, hk, hr', rfl⟩, fun hi => absurd (hb'.symm.trans hi) (by simp)⟩

end

/-- Settles O55: the setting of the latch is outside the invariant, an idle sequencer begins a service or a line 0, and the event of a
busy one is of a line that `follows` accepts. -/
theorem stepKeepsSequencerInvariant : Obligations.StepKeepsSequencerInvariant := by
  intro s t h hs
  obtain ⟨-, rfl⟩ | ⟨he, hq⟩ := step_cases hs
  · exact sequencerOk_withEdges.mpr h
  by_cases hb : s.seqBusy = true
  · obtain ⟨m, rest, hm, -, rfl⟩ := step_busy hb he hs
    exact sequencerOk_withEdges.mpr (sequencerOk_effect h hb hm)
  · exact sequencerStep_idle_sequencerOk (sequencerOk_withEdges.mpr h) (by simpa using hb) hq

/-! ### The interrupt latch (R28, R209) -/

/-- Settles O16: a step that finds an edge and a clear latch sets it, every other step only uses the sample up and makes an event, and no
event writes the latch or the port. -/
theorem busyStepLatchesEdgeKeepsRequests : Obligations.BusyStepLatchesEdgeKeepsRequests := by
  refine ⟨fun s he hi => step_edge (latches_iff.mpr ⟨he, hi⟩), fun s later hi => ?_, fun s t hb h => ?_⟩
  · have hstep (edge : Bool) : step { s with pktEdge := { s.pktEdge with given := edge :: later } } =
        sequencerStep { s with pktEdge := { s.pktEdge with given := later } } := step_quiet (latches_of_pending hi)
    rw [hstep, hstep]
  · obtain ⟨he, rfl⟩ | ⟨he, -⟩ := step_cases h
    · obtain ⟨hedge, -⟩ := latches_iff.mp he
      simp [hedge]
    · obtain ⟨m, rest, -, -, rfl⟩ := step_busy hb he h
      exact ⟨(pending_quiet he).symm, rfl, effect_requests m s⟩

/-! ### Registers that one instruction alone writes (R25–R28) -/

section
variable {i : Instr} {k : Nat} {cs : Bool} {rest : List Micro}

/-- `follows` allows the two writes of the snapshot where it allows a store: in RECEIVE. -/
theorem follows_setRssi (h : follows (some i) k cs (.setRssi :: rest) = true) : ∃ C, i = .receive C :=
  follows_store (j := 0) (rest := rest) (by simpa only [follows] using h)

theorem follows_setLqi (h : follows (some i) k cs (.setLqi :: rest) = true) : ∃ C, i = .receive C :=
  follows_store (j := 0) (rest := rest) (by simpa only [follows] using h)

/-- Only SET_CALLBACK has a write of `HANDLER_REG` among its events. -/
theorem follows_setHandler {b : Bool} (h : follows (some i) k cs (.setHandler b :: rest) = true) : ∃ r, i = .setCallback r := by
  cases i
  case setCallback r => exact ⟨r, rfl⟩
  all_goals simp [follows] at h

end

/-- Settles O47: taking an instruction leaves the snapshot, and the two events that write it are RECEIVE's. -/
theorem onlyReceiveWritesSnapshot : Obligations.OnlyReceiveWritesSnapshot := by
  intro i s t hruns hi h
  obtain ⟨-, rfl⟩ | ⟨-, m, rest, hf, -, rfl⟩ := exec_runs hruns h
  · simp
  · refine ⟨effect_rssiLast m s ?_, effect_lqiLast m s ?_⟩ <;> rintro rfl
    · obtain ⟨C, hC⟩ := follows_setRssi hf
      exact hi C hC
    · obtain ⟨C, hC⟩ := follows_setLqi hf
      exact hi C hC

/-- Settles O48: taking an instruction leaves both registers, no event writes `IRQ_PENDING`, and the one event that writes `HANDLER_REG`
is SET_CALLBACK's. -/
theorem onlySetCallbackWritesHandler : Obligations.OnlySetCallbackWritesHandler := by
  intro i s t hruns h
  obtain ⟨-, rfl⟩ | ⟨-, m, rest, hf, -, rfl⟩ := exec_runs hruns h
  · simp
  · refine ⟨fun hi => effect_handlerReg m s ?_, effect_irqPending m s⟩
    rintro b rfl
    obtain ⟨r, hr⟩ := follows_setHandler hf
    exact hi r hr

/-! ### The parameters (R35) -/

/-- Settles O52: neither the setting of the latch, nor an idle step, nor an event writes a parameter. -/
theorem stepKeepsParameters : Obligations.StepKeepsParameters := by
  intro s t h
  obtain ⟨-, rfl⟩ | ⟨he, hq⟩ := step_cases h
  · rfl
  by_cases hb : s.seqBusy = true
  · obtain ⟨m, rest, -, -, rfl⟩ := step_busy hb he h
    exact effect_par m s
  · obtain ⟨-, rfl⟩ | ⟨-, ⟨bytes, i, -, -, rfl⟩ | ⟨-, -, rfl⟩ | ⟨r, rest, i, -, -, -, rfl⟩⟩ :=
      sequencerStep_idle (s := s.withEdges s.irqPending s.pktEdge.advance) (by simpa using hb) hq <;> simp

/-! ### Reset (R34, R240) -/

/-- Settles O7: each register of the reset table, as `State.resetWith` writes it. -/
theorem resetLeavesRegisters : Obligations.ResetLeavesRegisters := by
  intro par op stState stFifo rssiLast lqiLast s
  exact ⟨rfl, rfl, rfl, rfl, rfl, rfl, rfl, rfl, rfl, rfl, rfl, rfl, rfl, rfl⟩

theorem layout_reference_wf : Layout.reference.wf = true := by decide

/-- The parameters of `State.reset` are well formed whatever `INIT_TABLE` is drawn: its entries are filtered by R161. -/
theorem params_reference_wf : Params.reference.wf = true := by
  rw [Params.wf, Bool.and_eq_true, List.all_eq_true]
  refine ⟨layout_reference_wf, fun e he => ?_⟩
  obtain ⟨-, hmem⟩ := List.mem_filter.mp he
  rw [decide_eq_true_eq, List.mem_cons] at hmem
  obtain hpatable | hconfig := hmem
  · simp [hpatable, Params.reference, Layout.reference]
  · simp [addrTag, hconfig, Params.reference, Layout.reference]

/-- Settles O8: the reset state is idle with the chip released, its host buffers and its trace are empty, and its parameters are the
reference ones. -/
theorem resetMeetsInvariants : Obligations.ResetMeetsInvariants := by
  refine ⟨fun par op stState stFifo rssiLast lqiLast => ⟨?sequencer, ?buffers, rfl⟩, params_reference_wf⟩
  case sequencer => exact ⟨fun _ => ⟨rfl, rfl, rfl, rfl⟩, fun hb => by cases hb⟩
  case buffers => exact ⟨rfl, rfl, rfl, fun r hr => by cases hr⟩

end Sys2Proof.Machine
end

section
/-! PROOFS. The family `20_memory.md`: the canonical form of the host buffers, the bytes RECEIVE stores and SEND reads (R40, R43, R44),
and the status latch that no request reads before it writes it (R54, R23). The last two compare two runs of one instruction, so first
comes what they share: the events of an instruction, and runs that simulate each other event by event. -/

namespace Sys2Proof.Machine

/-! ### Every step keeps the host buffers canonical (R40, R43) -/

theorem buffersOk_withEdges {s : State} {b : Bool} {e : Source Bool} : (s.withEdges b e).BuffersOk ↔ s.BuffersOk := Iff.rfl

theorem takeOf_buffersOk {i : Instr} {s : State} (h : s.BuffersOk) : (takeOf i s).BuffersOk := by
  unfold takeOf
  split <;> exact h

/-- A request brings its own buffers, which were canonical while it waited. -/
theorem loadBuffers_buffersOk {s : State} {i : Instr} {r : Request} {rest : List Request} (h : s.BuffersOk)
    (hr : s.requests = r :: rest) : ({ s with requests := rest }.loadBuffers i r).BuffersOk := by
  obtain ⟨hhdr, hpay, hdst, hreq⟩ := h
  obtain ⟨hrhdr, hrpay, hrdst⟩ := hreq r (by simp [hr])
  refine ⟨?_, ?_, ?_, fun q hq => hreq q (by rw [hr]; exact .tail _ hq)⟩ <;> simp only [State.loadBuffers] <;> split <;> assumption

/-- The one event that writes a buffer is a store, which keeps the canonical form. -/
theorem effect_buffersOk {m : Micro} {s : State} (h : s.BuffersOk) : (m.effect s).BuffersOk := by
  cases m
  case store k =>
    obtain ⟨hhdr, hpay, hdst, hreq⟩ := h
    exact ⟨hhdr, hpay, memWrite_wf hdst, hreq⟩
  all_goals exact h

/-- Settles O56: a step that is no event of an operation leaves the buffers alone or loads those of a waiting request, and an event
writes a buffer by a store alone. -/
theorem stepKeepsBuffersCanonical : Obligations.StepKeepsBuffersCanonical := by
  intro s t h hs
  obtain ⟨-, rfl⟩ | ⟨he, hq⟩ := step_cases hs
  · exact buffersOk_withEdges.mpr h
  by_cases hb : s.seqBusy = true
  · obtain ⟨m, rest, -, -, rfl⟩ := step_busy hb he hs
    exact effect_buffersOk h
  · have h := buffersOk_withEdges (b := s.irqPending) (e := s.pktEdge.advance) |>.mpr h
    obtain ⟨-, rfl⟩ | ⟨-, ⟨bytes, i, -, -, rfl⟩ | ⟨-, -, rfl⟩ | ⟨r, rest, i, -, hr, -, rfl⟩⟩ :=
      sequencerStep_idle (by simpa using hb) hq
    · exact h
    · exact takeOf_buffersOk h
    · exact h
    · exact takeOf_buffersOk (loadBuffers_buffersOk h hr)

/-! ### RECEIVE stores the payload (R43, R44) -/

/-- A RECEIVE whose length prefix fits leaves the payload stored from `dst[0]` up. -/
theorem receive_completes_dst {s : State} {C : Nat} (hb : s.seqBusy = false) (hfits : (s.answerAt 1).toNat ≤ C) :
    ∃ t, Completes (.receive C) s t ∧ t.dst = memStore s.dst 0 (s.payloadAt (s.answerAt 1).toNat) := by
  have hline : lineOf (.receive C) (s.inScope (.receive C) 0x9 2 { Locals.empty with s := s.answerAt 0, L := s.answerAt 1 }
      (s.trace ++ [.sel]) (lengthActs s.par.layout) (stateField s.par.layout (s.answerAt 0))
      (fifoField s.par.layout (s.answerAt 0))) = [.goto 6] := by
    show [Micro.goto (if exceedsCapacity (s.answerAt 1) C then 3 else 6)] = _
    simp [exceedsCapacity, hfits]
  obtain ⟨l, st, ff, -, hq, hpayload⟩ := receive_payload (C := C) (s := s) (code := 0x9) (tr := s.trace ++ [.sel])
    (l := { Locals.empty with s := s.answerAt 0, L := s.answerAt 1 }) (acts := lengthActs s.par.layout)
    (st := stateField s.par.layout (s.answerAt 0)) (ff := fifoField s.par.layout (s.answerAt 0)) rfl
  obtain ⟨l', -, htrailing⟩ := receive_trailing (C := C) hq
  exact ⟨_, ((((receive_length hb).trans (goto_line hline)).trans hpayload).trans htrailing).completes receive_tail, rfl⟩

theorem payloadAt_length (s : State) (L : Nat) : (s.payloadAt L).length = L := upcoming_length ..

/-- Byte `k` of the payload is the answer to exchange `3 + k` (R143). -/
theorem payloadAt_getD {s : State} {L k : Nat} (h : k < L) : (s.payloadAt L).getD k 0 = s.answerAt (3 + k) := by
  rw [State.payloadAt, upcoming_getD _ _ _ _ _ h, ← skip_add, State.answerAt]

/-- Settles O40: RECEIVE completes in one way only, with the payload stored, and such a store reads back inside and leaves the rest. -/
theorem receiveStoresExactlyThePayload : Obligations.ReceiveStoresExactlyThePayload := by
  intro s t C hb hbuf hfits ht
  obtain ⟨-, -, hdst, -⟩ := hbuf
  obtain ⟨u, hu, hstored⟩ := receive_completes_dst hb hfits
  obtain rfl := ht.unique hu
  rw [hstored]
  refine ⟨fun k hk => ?_, fun k hk => ?_⟩
  · rw [← payloadAt_getD hk, ← memRead_memStore_inside (k := 0) hdst (by rwa [payloadAt_length]), Nat.zero_add]
  · exact memRead_memStore_outside (.inr (by rw [payloadAt_length]; omega))

/-! ### The events of one instruction -/

/-- The next event of the instruction `i` is `m`, and `rest` is then left of the line: the first event left, or the first of the line
of `i` that is about to begin (R2, R21). -/
def State.LineEvent (s : State) (i : Instr) (m : Micro) (rest : List Micro) : Prop :=
  s.todo = m :: rest ∨ s.todo = [] ∧ lineOf i s = m :: rest

/-- What `exec` answers where it goes on, said once: an idle sequencer takes the instruction, a busy one makes its next event. -/
theorem exec_cases {i : Instr} {s t : State} (h : exec i s = .next t) :
    (s.seqBusy = false ∧ t = takeOf i s) ∨
    (s.seqBusy = true ∧ ∃ m rest, s.LineEvent i m rest ∧ m.legal s = true ∧ t = (m.effect s).setTodo rest) := by
  by_cases hb : s.seqBusy = true
  · exact .inr ⟨hb, runNext_next (exec_busy hb ▸ h)⟩
  · have hb : s.seqBusy = false := by simpa using hb
    rw [exec_idle hb] at h
    exact .inl ⟨hb, (Host.Outcome.next.inj h).symm⟩

theorem exec_lineEvent {i : Instr} {s : State} {m : Micro} {rest : List Micro} (hb : s.seqBusy = true) (hm : s.LineEvent i m rest)
    (hl : m.legal s = true) : exec i s = .next ((m.effect s).setTodo rest) := by
  rw [exec_busy hb, ← runMicro_legal hl rest]
  obtain hm | ⟨ht, hm⟩ := hm
  · exact runNext_todo hm
  · rw [hm, runNext_line ht]

/-! ### Runs that simulate each other -/

/-- A relation between states that every event of `i` keeps, and that does not mix busy and idle. -/
structure Simulates (i : Instr) (R : State → State → Prop) : Prop where
  busy : ∀ {s s'}, R s s' → s'.seqBusy = s.seqBusy
  event : ∀ {s s' t}, R s s' → exec i s = .next t → ∃ t', exec i s' = .next t' ∧ R t t'

section
variable {i : Instr} {R : State → State → Prop}

theorem Simulates.goes (hR : Simulates i R) {n : Nat} {s s' t : State} (h : R s s') (hg : Goes i n s t) :
    ∃ t', Goes i n s' t' ∧ R t t' := by
  induction n generalizing s s' with
  | zero => exact ⟨s', rfl, hg ▸ h⟩
  | succ n ih =>
    obtain ⟨u, hu, hb, hg⟩ := hg
    obtain ⟨u', hu', h⟩ := hR.event h hu
    obtain ⟨t', hg', h'⟩ := ih h hg
    exact ⟨t', ⟨u', hu', (hR.busy h).trans hb, hg'⟩, h'⟩

/-- An instruction that completes, completes from every related state too, in a related one. -/
theorem Simulates.completes (hR : Simulates i R) {s s' t : State} (h : R s s') (hc : Completes i s t) :
    ∃ t', Completes i s' t' ∧ R t t' := by
  obtain ⟨n, u, hg, hu, hb⟩ := hc
  obtain ⟨u', hg', h⟩ := hR.goes h hg
  obtain ⟨t', hu', h⟩ := hR.event h hu
  exact ⟨t', ⟨n, u', hg', hu', (hR.busy h).trans hb⟩, h⟩

end

/-! ### SEND reads only its own bytes (R43) -/

/-- A state with other source buffers. -/
def State.withSource (s : State) (hdr pay : Memory) : State := { s with hdr := hdr, pay := pay }

/-- A byte to send that is no buffer byte, or one of `hdr[0 .. h-1]` and `pay[0 .. p-1]`. -/
def Sent.Below (h p : Nat) : Sent → Prop
  | .byte _ => True
  | .hdr k => k < h
  | .pay k => k < p

/-- An event that reads no source buffer, or only `hdr[0 .. h-1]` and `pay[0 .. p-1]`. -/
def Micro.ReadsBelow (h p : Nat) : Micro → Prop
  | .xfer o _ => o.Below h p
  | _ => True

section
variable {h p : Nat}

theorem bufferBytes_hdr_below : ∀ o ∈ bufferBytes .hdr h, o.Below h p := by simp [bufferBytes, Sent.Below]

theorem bufferBytes_pay_below : ∀ o ∈ bufferBytes .pay p, o.Below h p := by simp [bufferBytes, Sent.Below]

theorem hdrXfer_readsBelow (hb : Byte) : ∀ m ∈ hdrXfer hb, m.ReadsBelow h p := by
  simp [hdrXfer, Micro.ReadsBelow, Sent.Below]

theorem burstWrite_readsBelow {ly : Layout} {a : Byte} {t : List Sent} (ht : ∀ o ∈ t, o.Below h p) :
    ∀ m ∈ burstWrite ly a t, m.ReadsBelow h p := by
  simpa [burstWrite, or_imp, forall_and, Micro.ReadsBelow] using ⟨hdrXfer_readsBelow _, ht⟩

/-- Every line of SEND reads its own bytes alone: line 6 those of the header, line 9 those of the payload (R140). -/
theorem sendLine_readsBelow (s : State) : ∀ m ∈ sendLine h p s, m.ReadsBelow h p := by
  unfold sendLine
  split
  case h_7 => simpa [or_imp, forall_and, Micro.ReadsBelow] using burstWrite_readsBelow bufferBytes_hdr_below
  case h_10 => simpa [or_imp, forall_and, Micro.ReadsBelow] using burstWrite_readsBelow bufferBytes_pay_below
  case h_2 => split <;> simp [raiseError, complete, Micro.ReadsBelow]
  case h_8 | h_11 => unfold burstEnd; split <;> simp [Micro.ReadsBelow]
  all_goals simp [waitRX, strobe, singleWrite, hdrXfer, complete, Micro.ReadsBelow, Sent.Below]

/-- A state of SEND and one with other source buffers that agree on SEND's bytes, where the events left read no others. -/
structure SameSource (h p : Nat) (hdr pay : Memory) (s s' : State) : Prop where
  eq : s' = s.withSource hdr pay
  hdr : ∀ k, k < h → memRead hdr k = memRead s.hdr k
  pay : ∀ k, k < p → memRead pay k = memRead s.pay k
  todo : s.seqBusy = true → ∀ m ∈ s.todo, m.ReadsBelow h p

section
variable {hdr pay : Memory} {s : State} {m : Micro} {rest : List Micro}

/-- An event that reads below `h` and `p` goes the same way with other buffers that agree there. -/
theorem effect_withSource (hm : m.ReadsBelow h p) (hh : ∀ k, k < h → memRead hdr k = memRead s.hdr k)
    (hp : ∀ k, k < p → memRead pay k = memRead s.pay k) : m.effect (s.withSource hdr pay) = (m.effect s).withSource hdr pay := by
  cases m
  case xfer o into =>
    have ho : o.value (s.withSource hdr pay) = o.value s := by
      cases o with
      | byte b => rfl
      | hdr k => exact hh k hm
      | pay k => exact hp k hm
    simp only [Micro.effect, ho]
    rfl
  all_goals rfl

theorem takeOf_withSource (i : Instr) : takeOf i (s.withSource hdr pay) = (takeOf i s).withSource hdr pay := by
  unfold takeOf
  split <;> rfl

theorem legal_withSource : m.legal (s.withSource hdr pay) = m.legal s := by cases m <;> rfl

theorem lineEvent_withSource : (s.withSource hdr pay).LineEvent (.send h p) m rest ↔ s.LineEvent (.send h p) m rest := Iff.rfl

theorem lineEvent_readsBelow (hs : ∀ m ∈ s.todo, m.ReadsBelow h p) (hm : s.LineEvent (.send h p) m rest) :
    ∀ n ∈ m :: rest, n.ReadsBelow h p := by
  obtain hm | ⟨-, hm⟩ := hm
  · exact hm ▸ hs
  · exact hm ▸ sendLine_readsBelow s

/-- SEND goes the same way whatever stands in its source buffers beyond its own bytes. -/
theorem simulates_sameSource : Simulates (.send h p) (SameSource h p hdr pay) where
  busy := fun ⟨heq, _, _, _⟩ => heq ▸ rfl
  event := by
    rintro s _ t ⟨rfl, hhdr, hpay, htodo⟩ he
    obtain ⟨hb, rfl⟩ | ⟨hb, m, rest, hm, hl, rfl⟩ := exec_cases he
    · exact ⟨_, exec_idle hb, takeOf_withSource _, by simpa using hhdr, by simpa using hpay, by simp⟩
    · obtain ⟨hread, hrest⟩ := List.forall_mem_cons.mp (lineEvent_readsBelow (htodo hb) hm)
      refine ⟨_, exec_lineEvent hb (lineEvent_withSource.mpr hm) (legal_withSource.trans hl), ?_, ?_, ?_, fun _ => hrest⟩
      · rw [effect_withSource hread hhdr hpay]
        rfl
      · exact (effect_hdr m s).symm ▸ hhdr
      · exact (effect_pay m s).symm ▸ hpay

end

end

/-- Settles O44: with the replaced buffers SEND makes the same events, since no event of its lines reads beyond `h` and `p`. -/
theorem sendReadsOnlyItsBytes : Obligations.SendReadsOnlyItsBytes := by
  intro s t h p hdr pay hb hhdr hpay hc
  obtain ⟨_, hc', rfl, -⟩ := simulates_sameSource.completes (s' := s.withSource hdr pay)
    ⟨rfl, hhdr, hpay, fun hb' => absurd (hb.symm.trans hb') (by simp)⟩ hc
  exact hc'

/-! ### No request reads the latch before it writes it (R54, R23) -/

/-- A state with another status latch. -/
def State.withLatch (s : State) (st : BitVec 3) (ff : BitVec 4) : State := { s with stState := st, stFifo := ff }

/-- The one line that chooses its events by the latch: RECEIVE's test for an overflow (R146). The other reader is `untilRx`. -/
def overflowTestLine : Nat := 14

theorem zero_ne_overflowTestLine : 0 ≠ overflowTestLine := by decide

/-- The events left of a line go the same way whatever latch they find: `ST_STATE` is written before a test reads it and before the
line leads to the overflow test. -/
def needsNoLatch : List Micro → Bool
  | [] => true
  | .latchState :: _ => true
  | .untilRx _ :: _ => false
  | .goto k :: rest => k != overflowTestLine && needsNoLatch rest
  | .untilReady k :: rest => k != overflowTestLine && k + 1 != overflowTestLine && needsNoLatch rest
  | _ :: rest => needsNoLatch rest

/-- A running operation reads `ST_STATE` from here on only after a write of it. -/
def State.LatchUnread (s : State) : Prop := s.seqStep ≠ overflowTestLine ∧ needsNoLatch s.todo = true

/-- A state of an instruction and one with another latch: with the same `ST_STATE`, or where the instruction is yet to be taken, or yet
to read the latch. -/
def UpToLatch (s s' : State) : Prop :=
  ∃ st ff, s' = s.withLatch st ff ∧ (st = s.stState ∨ s.seqBusy = false ∨ s.LatchUnread)

section
variable {i : Instr} {s : State} {st : BitVec 3} {ff : BitVec 4} {m : Micro} {rest : List Micro}

theorem takeOf_withLatch : takeOf i (s.withLatch st ff) = (takeOf i s).withLatch st ff := by
  unfold takeOf
  split <;> rfl

theorem latchUnread_takeOf : (takeOf i s).LatchUnread :=
  ⟨by simpa using zero_ne_overflowTestLine, by simp [needsNoLatch]⟩

theorem legal_withLatch : m.legal (s.withLatch st ff) = m.legal s := by cases m <;> rfl

/-- Only the overflow test chooses a line's events by the latch, and by `ST_STATE` alone. -/
theorem lineOf_withLatch (h : st = s.stState ∨ s.seqStep ≠ overflowTestLine) : lineOf i (s.withLatch st ff) = lineOf i s := by
  obtain rfl | h := h
  · cases i <;> rfl
  cases i
  case receive C =>
    simp only [lineOf, receiveLine, State.withLatch]
    split
    case h_15 heq => exact absurd heq h
    all_goals rfl
  all_goals rfl

theorem lineEvent_withLatch (h : st = s.stState ∨ s.seqStep ≠ overflowTestLine) :
    (s.withLatch st ff).LineEvent i m rest ↔ s.LineEvent i m rest := by
  rw [State.LineEvent, lineOf_withLatch h]
  rfl

/-- An event that is no test of the latch does the same with another one, but for the latch itself. -/
theorem effect_withLatch (h : st = s.stState ∨ ∀ k, m ≠ .untilRx k) :
    ∃ ff', m.effect (s.withLatch st ff) = (m.effect s).withLatch (m.effect (s.withLatch st ff)).stState ff' := by
  refine ⟨(m.effect (s.withLatch st ff)).stFifo, ?_⟩
  obtain rfl | h := h
  · cases m <;> rfl
  cases m
  case untilRx k => exact absurd rfl (h k)
  all_goals rfl

/-- After an event `ST_STATE` is the same with another latch, if it was before or the event wrote it. -/
theorem effect_stState_withLatch (h : st = s.stState ∨ m = .latchState) :
    (m.effect (s.withLatch st ff)).stState = (m.effect s).stState := by
  obtain rfl | rfl := h
  · cases m <;> rfl
  · rfl

/-- Every line of a request writes `ST_STATE` before it tests it, and line 13 of RECEIVE before it goes to the overflow test. -/
theorem lineOf_needsNoLatch (hp : i.port = .req) (h : s.seqStep ≠ overflowTestLine) : needsNoLatch (lineOf i s) = true := by
  cases i <;> cases hp
  case init =>
    simp only [lineOf, initLine]
    split
    case h_3 => split <;> rfl
    case h_4 => unfold initEntry; split <;> rfl
    all_goals rfl
  case send l p =>
    simp only [lineOf, sendLine]
    split
    case h_2 | h_6 | h_9 => split <;> rfl
    case h_8 | h_11 => unfold burstEnd; split <;> rfl
    all_goals rfl
  case receive C =>
    simp only [lineOf, receiveLine]
    split
    case h_3 | h_7 => split <;> rfl
    case h_10 | h_12 => unfold burstEnd; split <;> rfl
    case h_15 heq => exact absurd heq h
    all_goals rfl
  all_goals
    simp only [lineOf, onLine, offLine, writeRegisterLine, setCallbackLine, discardLine, getRssiLine, answerLine]
    split <;> rfl

theorem lineEvent_needsNoLatch (hp : i.port = .req) (h : s.LatchUnread) (hm : s.LineEvent i m rest) :
    needsNoLatch (m :: rest) = true := by
  obtain ⟨hstep, htodo⟩ := h
  obtain hm | ⟨-, hm⟩ := hm
  · exact hm ▸ htodo
  · exact hm ▸ lineOf_needsNoLatch hp hstep

/-- Until `ST_STATE` is written, what is left needs no latch. -/
theorem latchUnread_effect (hm : needsNoLatch (m :: rest) = true) (hne : m ≠ .latchState) (h : s.seqStep ≠ overflowTestLine) :
    ((m.effect s).setTodo rest).LatchUnread := by
  cases m
  case latchState => exact absurd rfl hne
  case untilRx k => cases hm
  case goto k =>
    obtain ⟨hk, hrest⟩ : k ≠ overflowTestLine ∧ _ := by simpa [needsNoLatch] using hm
    exact ⟨hk, hrest⟩
  case untilReady k =>
    obtain ⟨⟨hk, hk'⟩, hrest⟩ : (k ≠ overflowTestLine ∧ k + 1 ≠ overflowTestLine) ∧ _ := by simpa [needsNoLatch] using hm
    refine ⟨?_, hrest⟩
    simp only [Micro.effect, State.setTodo_seqStep, State.goto_seqStep]
    split <;> assumption
  case finish | finishAccess => exact ⟨zero_ne_overflowTestLine, hm⟩
  all_goals exact ⟨h, hm⟩

/-- A request goes the same way whatever latch it finds. -/
theorem simulates_upToLatch (hp : i.port = .req) : Simulates i UpToLatch where
  busy := by
    rintro s _ ⟨st, ff, rfl, -⟩
    rfl
  event := by
    rintro s _ t ⟨st, ff, rfl, h⟩ he
    obtain ⟨hb, rfl⟩ | ⟨hb, m, rest, hm, hl, rfl⟩ := exec_cases he
    · exact ⟨_, exec_idle hb, st, ff, takeOf_withLatch, .inr (.inr latchUnread_takeOf)⟩
    have h : st = s.stState ∨ s.LatchUnread := h.imp_right fun h => h.resolve_left (by simp [hb])
    have hline : st = s.stState ∨ s.seqStep ≠ overflowTestLine := h.imp_right And.left
    have hevents : st = s.stState ∨ needsNoLatch (m :: rest) = true := h.imp_right fun h => lineEvent_needsNoLatch hp h hm
    have htest : st = s.stState ∨ ∀ k, m ≠ .untilRx k := hevents.imp_right fun h k hk => by simp [hk, needsNoLatch] at h
    obtain ⟨ff', heff⟩ := effect_withLatch (ff := ff) htest
    refine ⟨_, exec_lineEvent hb ((lineEvent_withLatch hline).mpr hm) (legal_withLatch.trans hl), _, ff', by rw [heff]; rfl, ?_⟩
    by_cases hsame : st = s.stState ∨ m = .latchState
    · exact .inl (effect_stState_withLatch hsame)
    · obtain ⟨hst, hne⟩ := not_or.mp hsame
      exact .inr (.inr (latchUnread_effect (hevents.resolve_left hst) hne (hline.resolve_left hst)))

end

/-- Settles O51: up to the first write of `ST_STATE` no event of a request reads the latch, and from then on the runs hold the same
`ST_STATE`; nothing reads `ST_FIFO`. -/
theorem requestIgnoresStaleLatch : Obligations.RequestIgnoresStaleLatch := by
  intro i s t st ff hp hb hc
  obtain ⟨_, hc', st', ff', rfl, -⟩ := (simulates_upToLatch hp).completes (s' := s.withLatch st ff) ⟨st, ff, rfl, .inr (.inl hb)⟩ hc
  exact ⟨st', ff', hc'⟩

end Sys2Proof.Machine
end

section
/-! PROOFS. The family `30_encoding.md`: decoding and encoding are inverse to each other in every well-formed layout (R60–R67, R73–R77),
and the frame that SEND writes to the FIFO is the one that a peer's RECEIVE reads (R71, R72, R142). First come the header byte, the
operands and the data phases, then the runs of SEND and RECEIVE to their ends and the FIFO bytes of a trace. -/

namespace Sys2Proof.Machine

/-! ### Headers and the addresses they carry (R60–R62, R100) -/

section
variable {ly : Layout} {a b : Byte} {k : AccessKind}

/-- The header of a plain address: no bit of the address is dropped (R100). -/
theorem encodeHeader_plain (h : ly.wf = true) (ha : ly.plainAddress a = true) (k : AccessKind) :
    encodeHeader ly a k = a ||| kindBits ly k := by
  obtain ⟨hr, hb, -⟩ := Layout.wf_spec h
  exact encodeHeader_fits (plain_spec hr hb ha).1 k

/-- A header byte is the header of the address it carries, of the kind that its read and burst bits name. -/
theorem encodeHeader_headerAddress (h : ly.wf = true) (ha : ly.plainAddress (headerAddress ly b) = true)
    (hr : b.getLsbD ly.rBit = k.reads) (hb : b.getLsbD ly.bBit = k.bursts) : encodeHeader ly (headerAddress ly b) k = b :=
  (encodeHeader_plain h ha k).trans (header_inverse h hr hb)

/-- A strobe and a single write have no kind bits: the header is the address (R61). -/
theorem encodeHeader_strobe (h : ly.wf = true) (ha : ly.plainAddress a = true) : encodeHeader ly a .strobe = a :=
  (encodeHeader_plain h ha .strobe).trans BitVec.or_zero

theorem status_plain (h : ly.wf = true) (ha : a ∈ ly.addrMap.status) : ly.plainAddress a = true := by
  obtain ⟨-, -, -, -, -, -, -, hs, -⟩ := Layout.wf_spec h
  exact hs a ha

/-- A status read has the header of a burst read of the chip address: baking sets the burst bit (R62, R106). -/
theorem encodeHeader_bake (h : ly.wf = true) (ha : a ∈ ly.addrMap.status) :
    encodeHeader ly (bake ly a) .rdSingle = encodeHeader ly a .rdBurst := by
  obtain ⟨-, -, hbake⟩ := bake_spec h (status_plain h ha)
  rw [hbake, encodeHeader_plain h (status_plain h ha)]

/-- The same for any address that bakes to a status address, whether or not its own burst bit is clear. -/
theorem encodeHeader_bake_of_isStatus (h : ly.wf = true) (ha : isStatus ly (bake ly a) = true) :
    encodeHeader ly (bake ly a) .rdSingle = a ||| kindBits ly .rdBurst := by
  obtain ⟨A, hA, hbake⟩ := (isStatus_iff h).mp ha
  obtain ⟨hfits, -⟩ := bake_spec h (status_plain h hA)
  rw [encodeHeader_fits (hbake ▸ hfits), bake, kindBits, kindBits, BitVec.or_assoc, BitVec.or_comm (burstBit ly)]

theorem mem_strobes_of_isStrobe (ha : isStrobe ly a = true) : a ∈ ly.addrMap.strobes := by
  by_contra hs
  simp only [isStrobe, addrTag, if_neg hs] at ha
  split_ifs at ha <;> cases ha

end

/-- Settles O2: the header of a status read has the read bit set, that of a strobe has it clear. -/
theorem statusReadNeverStrobe : Obligations.StatusReadNeverStrobe := by
  refine ⟨by decide, fun ly a b h ha hb heq => ?_⟩
  obtain ⟨A, hA, rfl⟩ := (isStatus_iff h).mp ha
  rw [encodeHeader_bake h hA] at heq
  obtain ⟨-, hread, -⟩ := header_fields h (status_plain h hA) .rdBurst
  obtain ⟨-, hstrobe, -⟩ := header_fields h (strobe_plain h (mem_strobes_of_isStrobe hb)) .strobe
  rw [← heq, hread] at hstrobe
  cases hstrobe

/-- Settles O4: the words are fixed, so the decoder is run on them. -/
theorem sampleWordsDecode : Obligations.SampleWordsDecode := by
  unfold Obligations.SampleWordsDecode
  decide

/-! ### Operands and data phases: exactly when each reader answers, and with what -/

section
variable {ly : Layout} {bs rest : List Byte} {a : Byte} {i : Instr}

theorem takeByte_ok {f : Byte → Instr} : takeByte bs f = .ok i rest ↔ ∃ v, bs = v :: rest ∧ i = f v := by
  cases bs with
  | nil => simp [takeByte]
  | cons v bs => simp [takeByte, and_comm, eq_comm]

theorem takeDummy_ok {j : Instr} : takeDummy ly bs j = .ok i rest ↔ bs = ly.dummy :: rest ∧ i = j := by
  cases bs with
  | nil => simp [takeDummy]
  | cons v bs =>
    by_cases hv : v = ly.dummy
    · simp [takeDummy, hv, and_comm, eq_comm]
    · simp [takeDummy, hv]

theorem takeBurst_ok : takeBurst bs a = .ok i rest ↔ bs ≠ [] ∧ i = .wrBurst a bs ∧ rest = [] := by
  cases bs with
  | nil => simp [takeBurst]
  | cons v bs => simp [takeBurst, eq_comm]

theorem takeDummies_ok : takeDummies ly bs a = .ok i rest ↔
    bs ≠ [] ∧ bs = List.replicate bs.length ly.dummy ∧ i = .rdBurst a bs.length ∧ rest = [] := by
  have hdummies : bs = List.replicate bs.length ly.dummy ↔ bs.find? (· ≠ ly.dummy) = none := by
    simp [List.eq_replicate_iff, List.find?_eq_none]
  rw [takeDummies, hdummies]
  cases bs.find? (· ≠ ly.dummy) with
  | some v => simp
  | none =>
    cases bs with
    | nil => simp
    | cons v bs => simp [eq_comm]

theorem takeBit_ok : takeBit bs = .ok i rest ↔ ∃ r : Bool, bs = (if r then 1 else 0) :: rest ∧ i = .setCallback r := by
  cases bs with
  | nil => simp [takeBit]
  | cons v bs =>
    by_cases h0 : v = 0#8
    · simp [takeBit, h0, and_comm, eq_comm]
    by_cases h1 : v = 1#8
    · simp [takeBit, h1, and_comm, eq_comm]
    · simp [takeBit, h0, h1]

theorem decodeRequest_send : decodeRequest ly 0x8 bs =
    takeLen ly bs fun h after => takeLen ly after fun p rest => .ok (.send h p) rest := rfl

theorem decodeRequest_receive : decodeRequest ly 0x9 bs = takeLen ly bs fun C rest => .ok (.receive C) rest := rfl

end

/-! ### Format HDR: what the decoder makes of each header -/

/-- The data phase of an access of each kind to a register, after its header. A strobe's header is that of a single write (R61). -/
def registerAccess (ly : Layout) (a : Byte) (bs : List Byte) : AccessKind → Decoded
  | .wrSingle | .strobe => takeByte bs (.wrSingle a)
  | .rdSingle => takeDummy ly bs (.rdSingle a)
  | .wrBurst => takeBurst bs a
  | .rdBurst => takeDummies ly bs a

section
variable {ly : Layout} {bs : List Byte} {a : Byte} {i : Instr}

/-- A register's header decodes to an access of its kind: no strobe has the address of a register (R63). -/
theorem decodeAccess_register (h : ly.wf = true) (ha : isRegister ly a = true) (k : AccessKind) :
    decodeAccess ly (encodeHeader ly a k) bs = registerAccess ly a bs k := by
  obtain ⟨hfield, hr, hb⟩ := header_fields h (register_plain h ha) k
  have hstrobe : decodeStrobe ly.addrMap (encodeHeader ly a .strobe) = none := by
    rw [encodeHeader_strobe h (register_plain h ha)]
    exact decodeStrobe_none (register_not_strobe h ha)
  have hsame : encodeHeader ly a .wrSingle = encodeHeader ly a .strobe := rfl
  rw [decodeAccess, hfield, hr, hb]
  cases k with
  | wrSingle | strobe =>
    simp [AccessKind.reads, AccessKind.bursts, registerAccess, ha, hsame, hstrobe]
  | rdSingle | wrBurst | rdBurst => exact if_pos ha

theorem decodeAccess_strobe (h : ly.wf = true) (hm : (a, i) ∈ strobeTable ly.addrMap) :
    decodeAccess ly (encodeHeader ly a .strobe) bs = .ok i bs := by
  have ha := strobe_plain h (strobeTable_addresses ly.addrMap ▸ List.mem_map_of_mem (f := Prod.fst) hm)
  obtain ⟨-, hr, hb⟩ := header_fields h ha .strobe
  rw [decodeAccess, hr, hb, encodeHeader_strobe h ha]
  simp only [AccessKind.reads, AccessKind.bursts, decodeStrobe_row h hm]

/-- A status read's header decodes to the status read: no status register has the address of a register (R62, R106). -/
theorem decodeAccess_status (h : ly.wf = true) (ha : isStatus ly a = true) :
    decodeAccess ly (encodeHeader ly a .rdSingle) bs = takeDummy ly bs (.rdStatus a) := by
  obtain ⟨A, hA, rfl⟩ := (isStatus_iff h).mp ha
  obtain ⟨hfield, hr, hb⟩ := header_fields h (status_plain h hA) .rdBurst
  rw [encodeHeader_bake h hA]
  simp [decodeAccess, hr, hb, AccessKind.reads, AccessKind.bursts, hfield, ha, status_not_register h hA]

/-- A row of the strobe table is a strobe with its own address in the header. -/
theorem encode_strobe (hm : (a, i) ∈ strobeTable ly.addrMap) :
    encode ly i = [encodeHeader ly a .strobe] ∧ i.wf ly = true ∧ i.port = .hdr := by
  simp only [strobeTable, List.mem_cons, List.not_mem_nil, or_false, Prod.mk.injEq] at hm
  rcases hm with ⟨rfl, rfl⟩ | ⟨rfl, rfl⟩ | ⟨rfl, rfl⟩ | ⟨rfl, rfl⟩ | ⟨rfl, rfl⟩ | ⟨rfl, rfl⟩ | ⟨rfl, rfl⟩ | ⟨rfl, rfl⟩ |
    ⟨rfl, rfl⟩ | ⟨rfl, rfl⟩ | ⟨rfl, rfl⟩ | ⟨rfl, rfl⟩ | ⟨rfl, rfl⟩ <;> exact ⟨rfl, rfl, rfl⟩

theorem decode_encode_strobe (h : ly.wf = true) (hi : i ∈ (strobeTable ly.addrMap).map Prod.snd) :
    decode ly i.port (encode ly i) = .ok i [] := by
  obtain ⟨⟨a, i⟩, hm, rfl⟩ := List.mem_map.mp hi
  obtain ⟨henc, -, hport⟩ := encode_strobe hm
  rw [henc, hport]
  exact decodeAccess_strobe h hm

end

/-- Settles O5: each header leads the decoder to the data phase of its own kind, and each request code to its own operands; there the
encoder's bytes are what the reader takes. -/
theorem decodeEncodeRoundTrip : Obligations.DecodeEncodeRoundTrip := by
  intro ly i h hi
  cases i
  case wrSingle a v => exact decodeAccess_register h hi .wrSingle
  case rdSingle a => exact (decodeAccess_register h hi .rdSingle).trans (takeDummy_ok.mpr ⟨rfl, rfl⟩)
  case wrBurst a t =>
    obtain ⟨ha, ht⟩ : isRegister ly a = true ∧ t ≠ [] := by simpa [Instr.wf] using hi
    exact (decodeAccess_register h ha .wrBurst).trans (takeBurst_ok.mpr ⟨ht, rfl, rfl⟩)
  case rdBurst a n =>
    obtain ⟨ha, hn⟩ : isRegister ly a = true ∧ 1 ≤ n := by simpa [Instr.wf] using hi
    exact (decodeAccess_register h ha .rdBurst).trans (takeDummies_ok.mpr (by simp; omega))
  case rdStatus a => exact (decodeAccess_status h hi).trans (takeDummy_ok.mpr ⟨rfl, rfl⟩)
  case sres | sfstxon | sxoff | scal | srx | stx | sidle | swor | spwd | sfrx | sftx | sworrst | snop =>
    exact decode_encode_strobe h (by simp [strobeTable])
  case setCallback r => exact takeBit_ok.mpr ⟨r, rfl, rfl⟩
  case send n m =>
    obtain ⟨hn, hm⟩ : n < 2 ^ ly.lenW ∧ m < 2 ^ ly.lenW := by simpa [Instr.wf] using hi
    have hlast := takeLen_bytesOfLen hm [] fun p rest => .ok (.send n p) rest
    rw [List.append_nil] at hlast
    exact decodeRequest_send.trans ((takeLen_bytesOfLen hn _ _).trans hlast)
  case receive n =>
    have hn : n < 2 ^ ly.lenW := by simpa [Instr.wf] using hi
    have hlast := takeLen_bytesOfLen hn [] fun C rest => .ok (.receive C) rest
    rw [List.append_nil] at hlast
    exact decodeRequest_receive.trans hlast
  all_goals rfl

/-! ### What decodes, and from which bytes -/

/-- The bytes `bytes` of the port `p` are the encoding of the well-formed instruction `i`, and then `rest`. -/
structure IsEncoding (ly : Layout) (p : Port) (bytes : List Byte) (i : Instr) (rest : List Byte) : Prop where
  bytes_eq : bytes = encode ly i ++ rest
  wf : i.wf ly = true
  port_eq : i.port = p

section
variable {ly : Layout} {bs rest : List Byte} {a b : Byte} {i : Instr} {k : AccessKind}

/-- The read bit and the burst bit name a kind (R61). -/
theorem exists_kind : ∀ r b : Bool, ∃ k : AccessKind, r = k.reads ∧ b = k.bursts
  | false, false => ⟨.wrSingle, rfl, rfl⟩
  | true, false => ⟨.rdSingle, rfl, rfl⟩
  | false, true => ⟨.wrBurst, rfl, rfl⟩
  | true, true => ⟨.rdBurst, rfl, rfl⟩

theorem registerAccess_ok (ha : isRegister ly a = true) (hd : registerAccess ly a bs k = .ok i rest) :
    IsEncoding ly .hdr (encodeHeader ly a k :: bs) i rest := by
  cases k with
  | wrSingle | strobe =>
    obtain ⟨v, rfl, rfl⟩ := takeByte_ok.mp hd
    exact ⟨rfl, ha, rfl⟩
  | rdSingle =>
    obtain ⟨rfl, rfl⟩ := takeDummy_ok.mp hd
    exact ⟨rfl, ha, rfl⟩
  | wrBurst =>
    obtain ⟨hne, rfl, rfl⟩ := takeBurst_ok.mp hd
    exact ⟨(List.append_nil _).symm, by simp [Instr.wf, ha, hne], rfl⟩
  | rdBurst =>
    obtain ⟨hne, hdummies, rfl, rfl⟩ := takeDummies_ok.mp hd
    exact ⟨by rw [encode, List.append_nil, ← hdummies],
      by simpa [Instr.wf, ha, Nat.one_le_iff_ne_zero] using hne, rfl⟩

/-- What decodes on the header port: an access to a register, a strobe, or a status read. -/
theorem decodeAccess_ok (h : ly.wf = true) (hd : decodeAccess ly b bs = .ok i rest) : IsEncoding ly .hdr (b :: bs) i rest := by
  by_cases ha : isRegister ly (headerAddress ly b) = true
  · obtain ⟨k, hr, hb⟩ := exists_kind (b.getLsbD ly.rBit) (b.getLsbD ly.bBit)
    have hheader := encodeHeader_headerAddress h (register_plain h ha) hr hb
    have haccess := decodeAccess_register (bs := bs) h ha k
    rw [hheader, hd] at haccess
    exact hheader ▸ registerAccess_ok ha haccess.symm
  cases hr : b.getLsbD ly.rBit <;> cases hb : b.getLsbD ly.bBit <;> simp only [decodeAccess, hr, hb, if_neg ha] at hd
  case false.false =>
    cases hs : decodeStrobe ly.addrMap b with
    | none => simp only [hs, reduceCtorEq] at hd
    | some j =>
      simp only [hs, Decoded.ok.injEq] at hd
      obtain ⟨rfl, rfl⟩ := hd
      have hm := decodeStrobe_some hs
      have hplain := strobe_plain h (strobeTable_addresses ly.addrMap ▸ List.mem_map_of_mem (f := Prod.fst) hm)
      obtain ⟨henc, hwf, hport⟩ := encode_strobe hm
      exact ⟨by rw [henc, encodeHeader_strobe h hplain]; rfl, hwf, hport⟩
  case true.true =>
    split at hd
    · rename_i hstatus
      obtain ⟨rfl, rfl⟩ := takeDummy_ok.mp hd
      exact ⟨by rw [encode, encodeHeader_bake_of_isStatus h hstatus, header_inverse h hr hb]; rfl, hstatus, rfl⟩
    · cases hd
  all_goals cases hd

/-- The sixteen request codes (R74, R75). -/
theorem requestCode_mem : ∀ code : BitVec 4,
    code ∈ [0x0, 0x1, 0x2, 0x3, 0x4, 0x5, 0x6, 0x7, 0x8, 0x9, 0xA, 0xB, 0xC, 0xD, 0xE, 0xF#4] := by decide

theorem isEncoding_of_code {j : Instr} (he : encode ly j = [b]) (hwf : j.wf ly = true) (hp : j.port = .req)
    (hd : Decoded.ok j bs = .ok i rest) : IsEncoding ly .req (b :: bs) i rest := by
  obtain ⟨rfl, rfl⟩ := Decoded.ok.inj hd
  exact ⟨by rw [he]; rfl, hwf, hp⟩

theorem isEncoding_of_byte {f : Byte → Instr} (he : ∀ v, encode ly (f v) = [b, v]) (hwf : ∀ v, (f v).wf ly = true)
    (hp : ∀ v, (f v).port = .req) (hd : takeByte bs f = .ok i rest) : IsEncoding ly .req (b :: bs) i rest := by
  obtain ⟨v, rfl, rfl⟩ := takeByte_ok.mp hd
  exact ⟨by rw [he]; rfl, hwf v, hp v⟩

/-- What decodes on the request port, code by code in the order of R74. -/
theorem decodeRequest_ok {code : BitVec 4} (hd : decodeRequest ly code bs = .ok i rest) :
    IsEncoding ly .req (code.setWidth 8 :: bs) i rest := by
  have hcode := requestCode_mem code
  simp only [List.mem_cons, List.not_mem_nil, or_false] at hcode
  rcases hcode with rfl | rfl | rfl | rfl | rfl | rfl | rfl | rfl | rfl | rfl | rfl | rfl | rfl | rfl | rfl | rfl
  · exact isEncoding_of_code (j := .reserved0) rfl rfl rfl hd
  · exact isEncoding_of_code (j := .init) rfl rfl rfl hd
  · exact isEncoding_of_code (j := .radioOn) rfl rfl rfl hd
  · exact isEncoding_of_code (j := .radioOff) rfl rfl rfl hd
  · exact isEncoding_of_byte (f := .setChannel) (fun _ => rfl) (fun _ => rfl) (fun _ => rfl) hd
  · exact isEncoding_of_byte (f := .setTxPower) (fun _ => rfl) (fun _ => rfl) (fun _ => rfl) hd
  · exact isEncoding_of_byte (f := .setAddress) (fun _ => rfl) (fun _ => rfl) (fun _ => rfl) hd
  · obtain ⟨r, rfl, rfl⟩ := takeBit_ok.mp hd
    exact ⟨rfl, rfl, rfl⟩
  · rw [decodeRequest_send] at hd
    obtain ⟨n, after, hn, rfl, hsecond⟩ := takeLen_ok hd
    obtain ⟨m, after, hm, rfl, hlast⟩ := takeLen_ok hsecond
    obtain ⟨rfl, rfl⟩ := Decoded.ok.inj hlast
    exact ⟨by simp [encode], by simp [Instr.wf, hn, hm], rfl⟩
  · rw [decodeRequest_receive] at hd
    obtain ⟨n, after, hn, rfl, hlast⟩ := takeLen_ok hd
    obtain ⟨rfl, rfl⟩ := Decoded.ok.inj hlast
    exact ⟨by simp [encode], by simp [Instr.wf, hn], rfl⟩
  · exact isEncoding_of_code (j := .discard) rfl rfl rfl hd
  · exact isEncoding_of_code (j := .getRssi) rfl rfl rfl hd
  · exact isEncoding_of_code (j := .getLastRssi) rfl rfl rfl hd
  · exact isEncoding_of_code (j := .getLastLqi) rfl rfl rfl hd
  · exact isEncoding_of_code (j := .isChannelClear) rfl rfl rfl hd
  · exact isEncoding_of_code (j := .reservedF) rfl rfl rfl hd

/-- The first byte of a request is its code (R73). -/
theorem requestByte_eq : ∀ b : Byte, b.extractLsb' 4 4 = 0#4 → b = (b.extractLsb' 0 4).setWidth 8 := by decide

theorem decode_ok {p : Port} (h : ly.wf = true) (hd : decode ly p bs = .ok i rest) : IsEncoding ly p bs i rest := by
  cases bs with
  | nil => cases hd
  | cons b bs =>
    cases p with
    | hdr => exact decodeAccess_ok h hd
    | req =>
      simp only [decode] at hd
      split at hd
      · rename_i hcode
        rw [requestByte_eq b hcode]
        exact decodeRequest_ok hd
      · cases hd

end

/-- Settles O6: the header's bits fix the kind and the address, so each branch of the decoder that answers has read the encoder's bytes. -/
theorem decodedBytesAreTheEncoding : Obligations.DecodedBytesAreTheEncoding := by
  intro ly p bytes rest i h hd
  obtain ⟨hbytes, hwf, hport⟩ := decode_ok h hd
  exact ⟨hbytes, hwf, hport⟩

/-! ### A SEND that completes (R117, R140, R142) -/

section
variable {s t : State} {h p : Nat}

/-- What an accepted SEND leaves whose poll number `n` is the first that reports `RX`. -/
theorem send_completes {n : Nat} (hb : s.seqBusy = false) (hm : h + p ≤ s.par.maxLen.toNat)
    (hno : ∀ k, k < n → s.radioAt k ≠ .rx) (hrx : s.radioAt n = .rx) :
    let acts := pollActs s.par.layout (n + 1) ++ frameActs s.par (s.hdrBytes h) (s.payBytes p)
    Completes (.send h p) s (s.finished 0x8 (s.trace ++ [.sel]) acts (stateField s.par.layout (s.answerAt (exchanges acts - 1)))
      (fifoField s.par.layout (s.answerAt (exchanges acts - 1))) .ok 0) := by
  have hpolls := polls_inScope (s := s) (i := .send h p) (code := 0x8) (k := 3) (l := { Locals.empty with total := h + p })
    (tr := s.trace ++ [.sel]) (acts := []) (st := s.stState) (ff := s.stFifo) n (fun _ _ _ _ => rfl)
    (fun k hk => by simpa [exchanges] using hno k hk) (by simpa [exchanges] using hrx)
  exact (Reaches.trans ⟨6, send_start hb hm⟩ hpolls).completes (send_frame rfl rfl)

/-- An accepted SEND completes only if a poll reports `RX`: without one it makes more polls than the run has events. -/
theorem send_completes_rx (hb : s.seqBusy = false) (hm : h + p ≤ s.par.maxLen.toNat) (hc : Completes (.send h p) s t) :
    ∃ n, s.radioAt n = .rx := by
  by_contra hno
  obtain ⟨m, u, hgoes, hlast, hidle⟩ := hc
  obtain ⟨b, st, ff, hpolls⟩ := polls_goes (s := s) (i := .send h p) (code := 0x8) (k := 3) (l := { Locals.empty with total := h + p })
    (tr := s.trace ++ [.sel]) (acts := []) (st := s.stState) (ff := s.stFifo) m (fun _ _ _ _ => rfl) (fun _ _ hrx => hno ⟨_, hrx⟩)
  have hle := ((send_start hb hm).trans hpolls).le_of_ends hgoes hlast hidle
  omega

/-- The events of an accepted SEND that completes: some number of polls and the frame, in one scope. -/
theorem send_completes_trace (hb : s.seqBusy = false) (hm : h + p ≤ s.par.maxLen.toNat) (hc : Completes (.send h p) s t) :
    ∃ n, t.trace =
      s.trace ++ [.sel] ++ play (pollActs s.par.layout n ++ frameActs s.par (s.hdrBytes h) (s.payBytes p)) s.miso ++ [.rel] := by
  have hrx := send_completes_rx hb hm hc
  have hdone := send_completes hb hm (fun k hk => Nat.find_min hrx hk) (Nat.find_spec hrx)
  exact ⟨Nat.find hrx + 1, congrArg State.trace (hc.unique hdone)⟩

end

/-! ### The FIFO bytes of a trace in the reference layout (R42, R67, R248; assumption 19) -/

section
variable {t : List Byte} {m : Source Byte} {rest : List Event} {par : Params}

theorem fifoWrites_burst : fifoWrites .burst (play (outs t) m ++ rest) = t ++ fifoWrites .burst rest := by
  induction t generalizing m with
  | nil => rfl
  | cons o t ih => simp [play_outs_cons, fifoWrites, ih]

/-- A header that is neither a single write nor a burst write of the FIFO writes nothing there. -/
theorem fifoWrites_header {o : Byte} (hsingle : o ≠ 0x3F#8) (hburst : o ≠ 0x7F#8) :
    fifoWrites .header (play (outs [o]) m ++ rest) = fifoWrites .header rest := by
  simp [outs, play, fifoWrites, hsingle, hburst]

theorem fifoWrites_polls (n : Nat) :
    fifoWrites .header (play (pollActs .reference n) m ++ rest) = fifoWrites .header rest := by
  induction n generalizing m with
  | zero => rfl
  | succ n ih =>
    rw [pollActs_succ, play_append, List.append_assoc, pollActs, List.replicate_one, fifoWrites_header (by decide) (by decide), ih]

theorem fifoWrites_single (v : Byte) :
    fifoWrites .header (play (writeActs .reference Layout.reference.addrMap.fifo v) m ++ rest) = v :: fifoWrites .header rest := by
  have hheader : encodeHeader .reference Layout.reference.addrMap.fifo .wrSingle = 0x3F := by decide
  simp [writeActs, outs, play, fifoWrites, hheader]

/-- A burst write of `t` and the pulse that ends it write exactly `t`. -/
theorem fifoWrites_fifoBurst (hl : par.layout = .reference) (hp : par.burstEndPulse = true) :
    fifoWrites .header (play (fifoBurst par t) m ++ rest) = t ++ fifoWrites .header rest := by
  have hheader : encodeHeader .reference Layout.reference.addrMap.fifo .wrBurst = 0x7F := by decide
  by_cases ht : t = []
  · simp [fifoBurst, ht, play]
  · rw [fifoBurst, if_neg ht, burstEndActs, if_pos hp, hl, hheader, play_append, List.append_assoc, play_outs_cons, List.cons_append]
    simp [fifoWrites, fifoWrites_burst, play]

/-- SEND's frame: the length byte, the two bursts, and a strobe that writes nothing (R71, R142). -/
theorem fifoWrites_frame {hdr pay : List Byte} (hl : par.layout = .reference) (hp : par.burstEndPulse = true) :
    fifoWrites .header (play (frameActs par hdr pay) m ++ rest) = transmitFrame hdr pay ++ fifoWrites .header rest := by
  simp only [frameActs, hl, play_append, List.append_assoc]
  rw [fifoWrites_single, fifoWrites_fifoBurst hl hp, fifoWrites_fifoBurst hl hp, fifoWrites_header (by decide) (by decide)]
  simp [transmitFrame]

end

/-- Settles O42: of the events of a SEND that completes, only those of its frame write to the FIFO. -/
theorem sendWritesTransmitFrame : Obligations.SendWritesTransmitFrame := by
  intro s t h p hb hl hp hm hc
  obtain ⟨n, htrace⟩ := send_completes_trace hb hm hc
  refine ⟨_, by rw [htrace, List.append_assoc, List.append_assoc], ?_⟩
  rw [play_append, hl]
  simp [fifoWrites, fifoWrites_polls, fifoWrites_frame hl hp]

/-! ### A RECEIVE whose length byte fits (R143–R146) -/

section
variable {s : State} {C : Nat}

theorem receiveActs_eq (par : Params) (L : Nat) : receiveActs par L = lengthActs par.layout ++ fifoRead par L ++ trailingActs par := by
  simp [receiveActs, trailingActs]

theorem exchanges_trailingActs (par : Params) : exchanges (trailingActs par) = 4 := by
  have hend : exchanges (burstEndActs par) = 0 := by unfold burstEndActs; split <;> rfl
  simp [trailingActs, exchanges_append, hend, exchanges_pollActs, exchanges_outs]

theorem exchanges_receiveActs (par : Params) (L : Nat) :
    exchanges (receiveActs par L) = exchanges (lengthActs par.layout ++ fifoRead par L) + 4 := by
  rw [receiveActs_eq, exchanges_append, exchanges_trailingActs]

/-- The state with the payload of a RECEIVE that starts here stored, for a length byte of `L`, and with its snapshot (R143, R145). -/
def State.received (s : State) (L : Nat) : State :=
  { s with
      dst := memStore s.dst 0 (s.payloadAt L)
      rssiLast := s.answerAt (exchanges (receiveActs s.par L) - 3)
      lqiLast := s.answerAt (exchanges (receiveActs s.par L) - 2) }

/-- RECEIVE comes to the test of its overflow poll, on line 14, with the payload and the snapshot taken. -/
theorem receive_polled (hb : s.seqBusy = false) (hfits : (s.answerAt 1).toNat ≤ C) :
    let L := (s.answerAt 1).toNat
    let k := exchanges (receiveActs s.par L) - 1
    ∃ l, l.L = s.answerAt 1 ∧ Reaches (.receive C) s ((s.received L).inScope (.receive C) 0x9 14 l (s.trace ++ [.sel])
      (receiveActs s.par L) (stateField s.par.layout (s.answerAt k)) (fifoField s.par.layout (s.answerAt k))) := by
  have hline : lineOf (.receive C) (s.inScope (.receive C) 0x9 2 { Locals.empty with s := s.answerAt 0, L := s.answerAt 1 }
      (s.trace ++ [.sel]) (lengthActs s.par.layout) (stateField s.par.layout (s.answerAt 0))
      (fifoField s.par.layout (s.answerAt 0))) = [.goto 6] := by
    show [Micro.goto (if exceedsCapacity (s.answerAt 1) C then 3 else 6)] = _
    simp [exceedsCapacity, hfits]
  obtain ⟨l, st, ff, hL, hq, hpayload⟩ := receive_payload (C := C) (s := s) (code := 0x9) (tr := s.trace ++ [.sel])
    (l := { Locals.empty with s := s.answerAt 0, L := s.answerAt 1 }) (acts := lengthActs s.par.layout)
    (st := stateField s.par.layout (s.answerAt 0)) (ff := fifoField s.par.layout (s.answerAt 0)) rfl
  obtain ⟨l', hL', htrailing⟩ := receive_trailing (C := C) hq
  refine ⟨l', hL'.trans hL, ?_⟩
  rw [State.received, exchanges_receiveActs, receiveActs_eq]
  exact (((receive_length hb).trans (goto_line hline)).trans hpayload).trans htrailing

/-- What RECEIVE leaves: the flush follows exactly where the poll reported `RX_OVERFLOW`. -/
theorem receive_completes (hb : s.seqBusy = false) (hfits : (s.answerAt 1).toNat ≤ C) :
    let L := (s.answerAt 1).toNat
    let acts := s.receiveScript L
    Completes (.receive C) s ((s.received L).finished 0x9 (s.trace ++ [.sel]) acts
      (stateField s.par.layout (s.answerAt (exchanges acts - 1))) (fifoField s.par.layout (s.answerAt (exchanges acts - 1))) .ok L) := by
  obtain ⟨l, hL, hpolled⟩ := receive_polled hb hfits
  have hdone := hpolled.completes receive_tail
  rw [hL] at hdone
  dsimp only
  by_cases hoverflow : s.radioAt (exchanges (receiveActs s.par (s.answerAt 1).toNat) - 1) = .rxOverflow
  · rw [State.receiveScript, if_pos hoverflow, exchanges_append]
    simp only [if_pos (show stateName _ = _ from hoverflow)] at hdone
    exact hdone
  · rw [State.receiveScript, if_neg hoverflow]
    simp only [if_neg (show ¬stateName _ = _ from hoverflow)] at hdone
    exact hdone

end

/-- Settles O43: the peer reads the frame that SEND wrote, whose first byte is the length `h + p`, and stores the rest. -/
theorem sendThenReceiveRoundTrip : Obligations.SendThenReceiveRoundTrip := by
  intro s t r h p C hb hl hp hm hc
  obtain ⟨events, htrace, hfifo⟩ := sendWritesTransmitFrame s t h p hb hl hp hm hc
  refine ⟨events, htrace, fun hrb ⟨_, _, hdst, _⟩ hlayout hC hdelivered => ?_⟩
  rw [hfifo, transmitFrame, hdrBytes_length, payBytes_length] at hdelivered
  obtain ⟨hfirst, hpayload⟩ := List.cons.inj hdelivered
  have hL : (r.answerAt 1).toNat = h + p := by
    rw [hfirst, BitVec.toNat_ofNat, Nat.mod_eq_of_lt (hm.trans_lt s.par.maxLen.isLt)]
  refine ⟨_, receive_completes hrb (hL.trans_le hC), rfl, ?_, ?_⟩
  · obtain ⟨-, -, -, -, -, hwidth, -⟩ := Layout.wf_spec hlayout
    show (r.answerAt 1).toNat % 2 ^ r.par.layout.lenW = h + p
    rw [Nat.mod_eq_of_lt, hL]
    exact (r.answerAt 1).isLt.trans_le (Nat.pow_le_pow_right (by omega) hwidth)
  · show memBytes (memStore r.dst 0 (r.payloadAt (r.answerAt 1).toNat)) 0 (h + p) = _
    have hread := memBytes_memStore (t := r.payloadAt (h + p)) hdst
    rw [payloadAt_length, hpayload] at hread
    rwa [hL, hpayload]

end Sys2Proof.Machine
end

section
/-! PROOFS. The family `40_encoder.md`: the encode function and the status byte (R100, R115), the accesses each presented alone
(R101–R113), and the waits of the composite primitives (R116, R117). -/

namespace Sys2Proof.Machine

/-! ### The encode function (R100) -/

/-- In the reference layout a header holds every bit of its address. -/
theorem encodeHeader_reference (a : Byte) (k : AccessKind) : encodeHeader .reference a k = a ||| kindBits .reference k :=
  encodeHeader_fits (ly := .reference) a.isLt k

/-- Settles O1: no bit of the address is dropped, and `KB` has the five values of R100. -/
theorem encodeOrsKindBits : Obligations.EncodeOrsKindBits := by
  intro a
  simp only [encodeHeader_reference]
  exact ⟨rfl, rfl, rfl, rfl, rfl, rfl, fun k => BitVec.allOnes_or⟩

/-! ### The status byte (R69, R115) -/

/-- The eight codes of R69, one for each state. -/
theorem stateName_eq_iff : ∀ c : BitVec 3,
    (stateName c = .idle ↔ c = 0#3) ∧ (stateName c = .rx ↔ c = 1#3) ∧ (stateName c = .tx ↔ c = 2#3) ∧
    (stateName c = .fstxon ↔ c = 3#3) ∧ (stateName c = .calibrate ↔ c = 4#3) ∧ (stateName c = .settling ↔ c = 5#3) ∧
    (stateName c = .rxOverflow ↔ c = 6#3) ∧ (stateName c = .txUnderflow ↔ c = 7#3) := by decide

/-- Bit 7 lies in neither field of a status byte. -/
theorem decodeStatus_or_high (b : Byte) : decodeStatus .reference (b ||| 0x80#8) = decodeStatus .reference b := by
  have hstate : stateField .reference (b ||| 0x80#8) = stateField .reference b := by
    simp [stateField, Layout.reference, BitVec.extractLsb'_or]
  have hfifo : fifoField .reference (b ||| 0x80#8) = fifoField .reference b := by
    simp [fifoField, Layout.reference, BitVec.extractLsb'_or]
  simp only [decodeStatus, hstate, hfifo]

/-- Settles O3: the state is the name of the field's code, and each code has a name of its own. -/
theorem statusByteDecodes : Obligations.StatusByteDecodes := by
  intro b
  obtain ⟨hidle, hrx, htx, hfstxon, hcalibrate, hsettling, hoverflow, hunderflow⟩ := stateName_eq_iff (b.extractLsb' 4 3)
  exact ⟨rfl, hidle, hrx, htx, hfstxon, hcalibrate, hsettling, hoverflow, hunderflow, decodeStatus_or_high b⟩

/-! ### A presented access in a scope of its own (R101–R113; assumption 4) -/

/-- Settles O11: with no edge coming the step is an event of the sequencer, and at an idle point that is the presented access. -/
theorem stepRunsPresentedAccess : Obligations.StepRunsPresentedAccess := by
  intro s bytes i hb hi he ha hd
  rw [step_quiet (latches_of_noEdge he)]
  exact sequencerStep_access hb hi ha hd

/-- Settles O17: the access is its header exchange and one byte more, in its own scope. -/
theorem singleWriteAccess : Obligations.SingleWriteAccess := fun _ a v hb =>
  access_completes (ops := fun ly => singleWrite ly a v) hb rfl (fun _ => rfl) (csRun_singleWrite ..) (singleWrite_inScope a v)

/-- Settles O18: the access is its header exchange and one that binds `v`, in its own scope. -/
theorem singleReadAccess : Obligations.SingleReadAccess := fun _ a hb =>
  access_completes (ops := fun ly => singleRead ly a .v) hb rfl (fun _ => rfl) (csRun_singleRead ..) (singleRead_inScope a .v)

/-- Settles O19: the access is a single read (R113); its header in the reference layout is that of R62. -/
theorem statusReadAccess : Obligations.StatusReadAccess := by
  intro s a hb ha
  refine ⟨access_completes (ops := fun ly => statusRead ly a .v) hb rfl (fun _ => rfl) (csRun_singleRead ..)
    (singleRead_inScope a .v), fun hl => ?_⟩
  rw [hl] at ha ⊢
  exact statusReadNeverStrobe.1 a ha

theorem map_value_byte (s : State) (t : List Byte) : (t.map Sent.byte).map (Sent.value s) = t := by
  rw [List.map_map]
  exact List.map_id t

/-- Settles O20: the access is its header exchange and one exchange for each byte, in its own scope. -/
theorem burstWriteAccess : Obligations.BurstWriteAccess := by
  intro s a t hb
  have hburst := burstWrite_inScope (s := s) (i := .wrBurst a t) (code := s.op) (k := 1) (l := Locals.empty)
    (tr := s.trace ++ [.sel]) (acts := []) (st := s.stState) (ff := s.stFifo) a (t.map .byte)
  rw [map_value_byte] at hburst
  exact access_completes (ops := fun ly => burstWrite ly a (t.map .byte)) hb rfl (fun _ => rfl) (csRun_burstWrite ..) hburst

/-- Settles O21: the access is its header exchange and `n` that bind one byte more of `t` each, in its own scope. -/
theorem burstReadAccess : Obligations.BurstReadAccess := fun _ a n hb =>
  access_completes (ops := fun ly => burstRead ly a n .t) hb rfl (fun _ => rfl) (csRun_burstRead ..) (burstRead_t_inScope a n)

/-- An access whose one line is a strobe of the address `addr` of the map. -/
theorem strobe_completes {s : State} {i : Instr} (addr : AddrMap → Byte) (hb : s.seqBusy = false) (hc : requestCode i = none)
    (hl : ∀ t : State, lineOf i t = accessLine (strobe t.par.layout (addr t.par.layout.addrMap)) t) :
    Completes i s ((s.afterScope (outs [encodeHeader s.par.layout (addr s.par.layout.addrMap) .strobe]) 0).accessed
      { Locals.empty with s := s.answerAt 0 }) :=
  access_completes (ops := fun ly => strobe ly (addr ly.addrMap)) hb hc hl (csRun_strobe ..) (strobe_inScope _)

/-- Settles O22: each strobe has a line of its own address. -/
theorem strobeAccesses : Obligations.StrobeAccesses := by
  intro s hb
  refine ⟨⟨strobe_completes AddrMap.sres hb rfl fun _ => rfl, strobe_completes AddrMap.sfstxon hb rfl fun _ => rfl,
    strobe_completes AddrMap.sxoff hb rfl fun _ => rfl, strobe_completes AddrMap.scal hb rfl fun _ => rfl,
    strobe_completes AddrMap.srx hb rfl fun _ => rfl, strobe_completes AddrMap.stx hb rfl fun _ => rfl,
    strobe_completes AddrMap.sidle hb rfl fun _ => rfl, strobe_completes AddrMap.swor hb rfl fun _ => rfl,
    strobe_completes AddrMap.spwd hb rfl fun _ => rfl, strobe_completes AddrMap.sfrx hb rfl fun _ => rfl,
    strobe_completes AddrMap.sftx hb rfl fun _ => rfl, strobe_completes AddrMap.sworrst hb rfl fun _ => rfl,
    strobe_completes AddrMap.snop hb rfl fun _ => rfl⟩, fun hl => ?_⟩
  simp only [hl]
  decide

/-! ### The waits (R116, R117) -/

section
variable {s t : State} {i : Instr} {code : BitVec 4} {k : Nat}

theorem lineOf_init_wait (h : t.seqStep = 1) : lineOf .init t = waitReady 1 := by simp [lineOf, initLine, h]

theorem lineOf_radioOn_wait (h : t.seqStep = 1) : lineOf .radioOn t = waitReady 1 := by simp [lineOf, onLine, h]

theorem waitingAt_eq_inScope {l : Locals} :
    s.waitingAt i code k l = s.inScope i code k l (s.trace ++ [.sel]) [] s.stState s.stFifo := by
  simp [State.waitingAt, State.inScope, play, exchanges, Source.skip]

/-- A request whose line 1 is `WaitReady` is there again after one test that finds `NOT_READY` = 1. -/
theorem goes_ready_wait (hb : s.seqBusy = false) (hready : s.notReadyAt 0 = true) (hc : requestCode i = some code)
    (hstart : ∀ t : State, t.seqStep = 0 → lineOf i t = [.select, .goto 1])
    (hwait : ∀ t : State, t.seqStep = 1 → lineOf i t = waitReady 1) :
    Goes i 4 s ((s.skipReady 1).waitingAt i code 1 Locals.empty) := by
  rw [waitingAt_eq_inScope]
  exact (start_inScope hb hc hstart).trans (ready_goes 1 (fun _ => hwait _ rfl) (by simpa using hready))

theorem State.Waiting.position (hw : s.Waiting i) (hk : waitLine i = some k) : s.running = some i ∧ s.seqStep = k := by
  obtain ⟨-, -, hr, -, hline⟩ := hw
  exact ⟨hr, Option.some.inj (hline.symm.trans hk)⟩

/-- What an operation at the head of its waiting line completes with, it completes with from the canonical form. -/
theorem Completes.of_waiting (hw : s.Waiting i) (hk : waitLine i = some k)
    (hc : Completes i (s.inScope i s.op k s.locals s.trace [] s.stState s.stFifo) t) : Completes i s t := by
  rwa [← waiting_inScope hw hk] at hc

/-- A waiting operation whose test finds `NOT_READY` = 0 goes to the next line. -/
theorem Completes.of_ready (hw : s.Waiting i) (hk : waitLine i = some k) (hready : s.notReadyAt 0 = false)
    (hwait : ∀ t : State, t.seqStep = k → lineOf i t = waitReady k)
    (hc : Completes i ((s.skipReady 1).inScope i s.op (k + 1) s.locals s.trace [] s.stState s.stFifo) t) : Completes i s t :=
  .of_waiting hw hk <| (ready_inScope 0 (fun _ => hwait _ rfl) (by simp) hready).completes hc

/-- A waiting operation whose poll reports `RX` goes to the next line. -/
theorem Completes.of_rx (hw : s.Waiting i) (hk : waitLine i = some k) (hrx : s.radioAt 0 = .rx)
    (hwait : ∀ t : State, t.seqStep = k → lineOf i t = waitRX t.par.layout k)
    (hc : Completes i (s.inScope i s.op (k + 1) { s.locals with s := s.answerAt 0 } s.trace (pollActs s.par.layout 1)
      (stateField s.par.layout (s.answerAt 0)) (fifoField s.par.layout (s.answerAt 0))) t) : Completes i s t :=
  .of_waiting hw hk <| (polls_inScope (acts := []) 0 (fun _ _ _ _ => hwait _ rfl) (by simp) hrx).completes hc

end

/-- Settles O26: both requests open their scope in three events, and the test is the fourth. -/
theorem initAndOnWaitWhileNotReady : Obligations.InitAndOnWaitWhileNotReady := fun _ hb hready =>
  ⟨goes_ready_wait hb hready rfl (fun _ h => by simp [lineOf, initLine, h]) fun _ => lineOf_init_wait,
    goes_ready_wait hb hready rfl (fun _ h => by simp [lineOf, onLine, h]) fun _ => lineOf_radioOn_wait⟩

/-- Settles O37: the satisfied test leads to the next line, and the lines after the wait do the rest. The locals of a run say that INIT
has written no entry yet and that SEND's `total` is the sum of its lengths. -/
theorem waitingOperationsFinish : Obligations.WaitingOperationsFinish := by
  intro s hlocals
  obtain ⟨hsend, hinit⟩ := localsOk_iff.mp hlocals
  refine ⟨fun hw hready => ?_, fun hw hready => ?_, fun hw hrx => ?_, fun h p hw hrx => ?_⟩
  · obtain ⟨hr, hstep⟩ := hw.position rfl
    have htail := init_tail (s := s.skipReady 1) (code := s.op) (tr := s.trace) (acts := []) (st := s.stState) (ff := s.stFifo)
      (hinit hr hstep.le)
    rw [exchanges, Nat.zero_add] at htail
    exact .of_ready hw rfl hready (fun _ => lineOf_init_wait) htail
  · exact .of_ready hw rfl hready (fun _ => lineOf_radioOn_wait) on_tail
  · exact .of_rx hw rfl hrx (fun _ h => by simp [lineOf, offLine, h]) off_tail
  · obtain ⟨hr, hstep⟩ := hw.position rfl
    exact .of_rx hw rfl hrx (fun _ h => by simp [lineOf, sendLine, h]) (send_frame rfl ((hsend h p hr).total (.inl (by omega))))

end Sys2Proof.Machine
end

section
/-! PROOFS. The family `41_frame.md`: SEND, RECEIVE and DISCARD as the host requests them (R140–R147). What SEND and RECEIVE leave
stands in `send_completes` and `receive_completes`. -/

namespace Sys2Proof.Machine

/-- Settles O34: the polls end with the first that reports `RX`, and the frame follows. -/
theorem sendCompletes : Obligations.SendCompletes := by
  intro s h p n hb hmax hno hrx acts
  rw [← finished_afterScope]
  exact send_completes hb hmax hno hrx

/-- Settles O38: RECEIVE stores the payload and takes the snapshot, polls once, flushes exactly where that poll reports `RX_OVERFLOW`,
and reports the length. -/
theorem receiveCompletes : Obligations.ReceiveCompletes := by
  intro s C hb hfits L n acts
  rw [← finished_afterScope]
  exact receive_completes hb hfits

/-- A poll that reports any state but `RX` leaves an operation at the head of its `WaitRX` line there, with the poll recorded (R117). -/
theorem goes_rx_wait {s : State} {i : Instr} {code : BitVec 4} {k : Nat} {l : Locals}
    (hwait : ∀ t : State, t.seqStep = k → lineOf i t = waitRX t.par.layout k) (hno : s.radioAt 0 ≠ .rx) :
    Goes i 4 (s.waitingAt i code k l) (s.waitingAt i code k l).polled := by
  have hpoll := waitRX_line (s := s) (i := i) (code := code) (k := k) (l := l) (tr := s.trace ++ [.sel]) (acts := [])
    (st := s.stState) (ff := s.stFifo) (hwait _ rfl)
  rw [← waitingAt_eq_inScope, if_neg (show s.radioAt (exchanges []) ≠ .rx from hno)] at hpoll
  exact hpoll

/-- Settles O36: six events take the request and open its scope, and the poll is four more. -/
theorem sendWaitsOutsideRX : Obligations.SendWaitsOutsideRX := by
  intro s h p hb hmax hno
  have hstart := send_start hb hmax
  rw [← waitingAt_eq_inScope] at hstart
  exact hstart.trans (goes_rx_wait (fun t ht => by simp [lineOf, sendLine, ht]) hno)

/-- Settles O41: DISCARD opens its scope, makes one flush sequence and completes; no line of it tests an answer. -/
theorem discardFlushesUnconditionally : Obligations.DiscardFlushesUnconditionally := by
  intro s hb
  have hstart : Reaches .discard s _ := ⟨3, start_inScope hb rfl fun t ht => by simp [lineOf, discardLine, ht]⟩
  have hflush := hstart.trans (line_inScope (k' := 2) (ops := flushRx s.par.layout) rfl (csRun_flushRx _) flushRx_inScope)
  rw [← finished_afterScope]
  exact hflush.completes (completes_inScope rfl fun t ht _ => by simp [lineOf, discardLine, ht])

end Sys2Proof.Machine
end

section
/-! PROOFS. The family `42_control.md`: how a step takes a request and goes on with it (R173, R175, R215), the lifecycle, configuration
and query requests (R160–R172), the write of the result registers (R174), and what every request comes to: it ends, or it waits for ever
on one line (R175, R207). -/

namespace Sys2Proof.Machine

/-! ### A step that takes a request or goes on with one (R173, R175, R215) -/

/-- SEND alone, of request code 0x8, brings source buffers (R73). -/
theorem usesSource_iff {i : Instr} : usesSource i = true ↔ requestCode i = some 0x8 := by cases i <;> simp [usesSource, requestCode]

/-- RECEIVE alone, of request code 0x9, brings a destination buffer (R73). -/
theorem usesDestination_iff {i : Instr} : usesDestination i = true ↔ requestCode i = some 0x9 := by
  cases i <;> simp [usesDestination, requestCode]

/-- Settles O10: with no edge coming the step is an event of the sequencer, and at an idle point with no access presented that is the
taking of the request, with the buffers its code asks for. -/
theorem stepRunsWaitingRequest : Obligations.StepRunsWaitingRequest := by
  intro s r rest i hb hi he ha hr hd
  rw [step_quiet (latches_of_noEdge he),
    sequencerStep_request (s := s.withEdges s.irqPending s.pktEdge.advance) hb hi ha hr hd]
  simp only [State.loadBuffers, usesSource_iff, usesDestination_iff]
  rfl

theorem sequencerStep_running {s : State} {i : Instr} (hb : s.seqBusy = true) (hr : s.running = some i) : sequencerStep s = exec i s := by
  rw [sequencerStep, if_pos hb, stepBusy, hr]

/-- Settles O12: only an edge that finds the latch clear takes the step, and every other step is the running operation's. -/
theorem stepResumesRunningOperation : Obligations.StepResumesRunningOperation := by
  intro s i hb hr
  refine ⟨fun h => ?_, fun he hi => step_edge (latches_iff.mpr ⟨he, hi⟩)⟩
  rw [step_quiet (h.elim latches_of_noEdge latches_of_pending)]
  exact sequencerStep_running hb hr

theorem decodeTableWord_some {nbits w : Nat} {i : Instr} (h : decodeTableWord nbits w = some i) :
    decode .reference (tableWordPort nbits w) (tableBytes nbits w) = .ok i [] := by
  unfold decodeTableWord at h
  split at h
  · rename_i hd
    rw [hd, Option.some.inj h]
  · cases h
  · cases h

/-- Settles O13: the word stands alone at the front of its port before an idle sequencer, so the step takes it from there. -/
theorem fetchWordRunsDecodedInstruction : Obligations.FetchWordRunsDecodedInstruction := by
  intro s nbits w i hl hw
  have hd := decodeTableWord_some hw
  rw [← hl] at hd
  cases hp : tableWordPort nbits w with
  | hdr =>
    rw [hp] at hd
    simp only [State.withFetchWord, hp]
    exact stepRunsPresentedAccess _ _ i rfl rfl rfl rfl hd
  | req =>
    rw [hp] at hd
    simp only [State.withFetchWord, hp]
    rw [stepRunsWaitingRequest _ _ _ i rfl rfl rfl rfl rfl hd]
    simp only [ite_self]
    rfl

/-! ### Requests with no bus event (R167, R169–R172) -/

section
variable {s : State} {i : Instr} {code : BitVec 4}

theorem takeOf_request (hc : requestCode i = some code) : takeOf i s = s.take i code := by rw [takeOf, hc]

/-- An idle sequencer takes the request `i` of code `code` (R173). -/
theorem reaches_take_request (hb : s.seqBusy = false) (hc : requestCode i = some code) : Reaches i s (s.take i code) :=
  takeOf_request (s := s) hc ▸ reaches_take hb

/-- A request whose one line answers. -/
theorem answer_completes {kind : ResKind} {val : Nat} (hb : s.seqBusy = false) (hc : requestCode i = some code)
    (hl : lineOf i (s.take i code) = complete kind val) : Completes i s (s.completed code kind val) :=
  (reaches_take_request hb hc).completes <|
    completes_line (ops := [.setKind kind, .setVal val]) (m := .finish) (c := s.cs) rfl rfl hl rfl rfl rfl rfl

end

/-- Settles O30: line 0 writes the bit, line 1 answers. -/
theorem setCallbackCompletes : Obligations.SetCallbackCompletes := by
  intro s r hb
  have hwrite := (reaches_take_request (i := .setCallback r) hb rfl).trans
    (reaches_line (ops := [.setHandler r, .goto 1]) (c := s.cs) rfl rfl rfl (by simp) rfl rfl)
  exact hwrite.completes (completes_line (ops := [.setKind .ok, .setVal 0]) (m := .finish) (c := s.cs) rfl rfl rfl rfl rfl rfl rfl)

/-- Settles O32: each query has one line, which answers from a register or with the constant. -/
theorem cachedQueriesComplete : Obligations.CachedQueriesComplete := fun _ hb =>
  ⟨answer_completes hb rfl rfl, answer_completes hb rfl rfl, answer_completes hb rfl rfl⟩

/-- Settles O33: both codes have one line, which raises the error. -/
theorem reservedCodesReportIllegal : Obligations.ReservedCodesReportIllegal := fun _ hb =>
  ⟨answer_completes hb rfl rfl, answer_completes hb rfl rfl⟩

/-! ### Requests of one access in a scope of their own (R164–R166, R168) -/

section
variable {s : State} {i : Instr} {code : BitVec 4}

/-- A request that makes the events `ops` in a scope of its own on line 1, and then answers. -/
theorem scoped_completes {ops : List Micro} {l : Locals} {acts : List Act} {j val : Nat} (hb : s.seqBusy = false)
    (hc : requestCode i = some code) (hopen : ∀ t : State, t.seqStep = 0 → lineOf i t = [.select, .goto 1])
    (hops : lineOf i (s.inScope i code 1 Locals.empty (s.trace ++ [.sel]) [] s.stState s.stFifo) = ops ++ [.goto 2])
    (hclose : ∀ t : State, t.seqStep = 2 → lineOf i t = [.release, .goto 3])
    (hanswer : ∀ t : State, t.seqStep = 3 → t.locals = l → lineOf i t = complete .ok val) (hr : csRun true ops = some true)
    (he : effects ops (s.inScope i code 1 Locals.empty (s.trace ++ [.sel]) [] s.stState s.stFifo) =
      s.inScope i code 1 l (s.trace ++ [.sel]) acts (stateField s.par.layout (s.answerAt j)) (fifoField s.par.layout (s.answerAt j))) :
    Completes i s ((s.afterScope acts j).completed code .ok val) := by
  have hstart : Reaches i s _ := ⟨3, start_inScope hb hc hopen⟩
  rw [← finished_afterScope]
  exact (hstart.trans (line_inScope hops hr he)).completes (completes_inScope (hclose _ rfl) hanswer)

/-- A configuration request writes its operand to the register at `addr` of the map (R164–R166). -/
theorem writeRegister_completes (addr : AddrMap → Byte) {v : Byte} (hb : s.seqBusy = false) (hc : requestCode i = some code)
    (hl : ∀ t : State, lineOf i t = writeRegisterLine (addr t.par.layout.addrMap) v t) :
    Completes i s ((s.afterScope (writeActs s.par.layout (addr s.par.layout.addrMap) v) 0).completed code .ok 0) :=
  scoped_completes hb hc (fun t h => by simp [hl, writeRegisterLine, h]) (hl _) (fun t h => by simp [hl, writeRegisterLine, h])
    (fun t h _ => by simp [hl, writeRegisterLine, h]) (csRun_singleWrite ..) (singleWrite_inScope ..)

end

/-- Settles O29: the three requests share their lines but for the register's address. -/
theorem configurationRequestsComplete : Obligations.ConfigurationRequestsComplete := by
  intro s v hb
  refine ⟨⟨writeRegister_completes AddrMap.channr hb rfl fun _ => rfl, writeRegister_completes AddrMap.patable hb rfl fun _ => rfl,
    writeRegister_completes AddrMap.addr hb rfl fun _ => rfl⟩, fun hl => ?_⟩
  rw [hl]
  exact ⟨rfl, rfl, rfl⟩

/-- Settles O31: line 1 is the status read, whose second answer is the result. -/
theorem getRssiReturnsRawByte : Obligations.GetRssiReturnsRawByte := by
  intro s hb
  refine ⟨scoped_completes hb rfl (fun t h => by simp [lineOf, getRssiLine, h]) rfl (fun t h => by simp [lineOf, getRssiLine, h])
    (fun t h hv => by simp only [lineOf, getRssiLine, h, hv]; rfl) (csRun_singleRead ..) (singleRead_inScope ..), fun hl => ?_⟩
  rw [hl]
  rfl

/-! ### Requests that wait for the chip (R160, R162, R163) -/

section
variable {s : State} {i : Instr} {code : BitVec 4} {n : Nat}

/-- A request whose line 1 is `WaitReady` comes to line 2 once the chip is ready, with no bus event but `SEL` (R116). -/
theorem ready_reaches (hb : s.seqBusy = false) (hc : requestCode i = some code)
    (hopen : ∀ t : State, t.seqStep = 0 → lineOf i t = [.select, .goto 1])
    (hwait : ∀ t : State, t.seqStep = 1 → lineOf i t = waitReady 1)
    (hno : ∀ k, k < n → s.notReadyAt k = true) (hyes : s.notReadyAt n = false) :
    Reaches i s ((s.skipReady (n + 1)).inScope i code 2 Locals.empty (s.trace ++ [.sel]) [] s.stState s.stFifo) :=
  Reaches.trans ⟨3, start_inScope hb hc hopen⟩ (ready_inScope n (fun _ => hwait _ rfl) hno hyes)

end

theorem lineOf_init_open {t : State} (h : t.seqStep = 0) : lineOf .init t = [.select, .goto 1] := by simp [lineOf, initLine, h]

theorem lineOf_radioOn_open {t : State} (h : t.seqStep = 0) : lineOf .radioOn t = [.select, .goto 1] := by simp [lineOf, onLine, h]

theorem lineOf_radioOff_open {t : State} (h : t.seqStep = 0) : lineOf .radioOff t = [.select, .goto 1] := by simp [lineOf, offLine, h]

theorem lineOf_radioOff_wait {t : State} (h : t.seqStep = 1) : lineOf .radioOff t = waitRX t.par.layout 1 := by
  simp [lineOf, offLine, h]

/-- Settles O24: the wait ends with the first sample of 0, and INIT's loop begins with no entry written. -/
theorem initCompletesWhenReady : Obligations.InitCompletesWhenReady := by
  intro s n hb hno hyes
  have hdone := (ready_reaches hb rfl (fun _ => lineOf_init_open) (fun _ => lineOf_init_wait) hno hyes).completes (init_tail rfl)
  rw [List.nil_append, exchanges, Nat.zero_add] at hdone
  rw [← finished_afterScope]
  exact hdone

/-- Settles O25: the wait ends with the first sample of 0, and the strobe follows. -/
theorem onCompletesWhenReady : Obligations.OnCompletesWhenReady := by
  intro s n hb hno hyes
  rw [← finished_afterScope]
  exact (ready_reaches hb rfl (fun _ => lineOf_radioOn_open) (fun _ => lineOf_radioOn_wait) hno hyes).completes on_tail

/-- An idle sequencer takes OFF, which opens its scope and comes to its wait in three events. -/
theorem off_start {s : State} (hb : s.seqBusy = false) :
    Goes .radioOff 3 s (s.inScope .radioOff 0x3 1 Locals.empty (s.trace ++ [.sel]) [] s.stState s.stFifo) :=
  start_inScope hb rfl fun _ => lineOf_radioOff_open

/-- Settles O27: the polls end with the first that reports `RX`, number `n`, and the second of the two strobes is exchange `n + 2`. -/
theorem offCompletesInRX : Obligations.OffCompletesInRX := by
  intro s n hb hno hrx
  have hpolls := polls_inScope (s := s) (i := .radioOff) (code := 0x3) (k := 1) (l := Locals.empty) (tr := s.trace ++ [.sel])
    (acts := []) (st := s.stState) (ff := s.stFifo) n (fun _ _ _ _ => lineOf_radioOff_wait rfl)
    (fun k hk => by simpa [exchanges] using hno k hk) (by simpa [exchanges] using hrx)
  have hdone := (Reaches.trans ⟨3, off_start hb⟩ hpolls).completes off_tail
  rw [List.nil_append, exchanges_pollActs] at hdone
  rw [← finished_afterScope]
  exact hdone

/-- Settles O28: three events open the scope, and the poll is four more. -/
theorem offWaitsOutsideRX : Obligations.OffWaitsOutsideRX := by
  intro s hb hno
  have hstart := off_start hb
  rw [← waitingAt_eq_inScope] at hstart
  exact hstart.trans (goes_rx_wait (fun _ => lineOf_radioOff_wait) hno)

/-! ### The result registers (R29, R174) -/

@[simp] theorem takeOf_resKind (i : Instr) (s : State) : (takeOf i s).resKind = s.resKind := by unfold takeOf; split <;> rfl
@[simp] theorem takeOf_resVal (i : Instr) (s : State) : (takeOf i s).resVal = s.resVal := by unfold takeOf; split <;> rfl

theorem port_of_requestCode {i : Instr} (h : (requestCode i).isSome = true) : i.port = .req := by
  cases i <;> first | rfl | cases h

section
variable {i : Instr} {k : Nat} {cs : Bool} {rest : List Micro}

/-- The write of `RES_KIND` begins the last three events of a request, with the chip released. -/
theorem follows_setKind {kind : ResKind} (h : follows (some i) k cs (.setKind kind :: rest) = true) :
    i.port = .req ∧ cs = false ∧ ∃ val, rest = [.setVal val, .finish] := by
  obtain ⟨⟨hcode, hcs⟩, hrest⟩ : ((requestCode i).isSome = true ∧ cs = false) ∧ _ := by
    simpa only [follows, Bool.and_eq_true, Bool.not_eq_true'] using h
  refine ⟨port_of_requestCode hcode, hcs, ?_⟩
  split at hrest
  · exact ⟨_, rfl⟩
  · cases hrest

/-- The write of `RES_VAL` begins the last two. -/
theorem follows_setVal {val : Nat} (h : follows (some i) k cs (.setVal val :: rest) = true) :
    i.port = .req ∧ cs = false ∧ rest = [.finish] := by
  obtain ⟨⟨hcode, hcs⟩, hrest⟩ : ((requestCode i).isSome = true ∧ cs = false) ∧ _ := by
    simpa only [follows, Bool.and_eq_true, Bool.not_eq_true'] using h
  refine ⟨port_of_requestCode hcode, hcs, ?_⟩
  split at hrest
  · rfl
  · cases hrest

end

/-- Settles O50: taking an instruction writes no result, and the two events that do stand before the end of a request's last line. -/
theorem resultWrittenOnlyAtCompletion : Obligations.ResultWrittenOnlyAtCompletion := by
  intro i s t hruns he hres
  obtain ⟨-, rfl⟩ | ⟨-, m, rest, hf, -, rfl⟩ := exec_runs hruns he
  · simp at hres
  by_cases hkind : ∃ kind, m = .setKind kind
  · obtain ⟨kind, rfl⟩ := hkind
    obtain ⟨hp, hcs, val, rfl⟩ := follows_setKind hf
    exact ⟨hp, hcs, .inr ⟨val, rfl⟩⟩
  by_cases hval : ∃ val, m = .setVal val
  · obtain ⟨val, rfl⟩ := hval
    obtain ⟨hp, hcs, rfl⟩ := follows_setVal hf
    exact ⟨hp, hcs, .inl rfl⟩
  · obtain hres | hres := hres
    · exact absurd (effect_resKind m s (not_exists.mp hkind)) hres
    · exact absurd (effect_resVal m s (not_exists.mp hval)) hres

/-! ### No step stops (R174, R175, R208) -/

section
variable {s : State} {i : Option Instr} {k : Nat} {m : Micro} {rest : List Micro}

/-- An event that `follows` accepts is legal: exchanges stand inside the scope (R9). -/
theorem legal_of_follows (h : follows i k s.cs (m :: rest) = true) : m.legal s = true := by
  cases m
  case xfer o into =>
    obtain ⟨hcs, -⟩ : s.cs = true ∧ _ := by simpa [follows] using h
    exact hcs
  all_goals rfl

/-- A list of events that `follows` accepts has a first one. -/
theorem exists_cons_of_follows {cs : Bool} {l : List Micro} (h : follows i k cs l = true) : ∃ m rest, l = m :: rest := by
  cases l with
  | nil => cases h
  | cons m rest => exact ⟨m, rest, rfl⟩

/-- A busy sequencer that meets the invariant has a next event. -/
theorem exists_nextEvent (h : s.SequencerOk) (hb : s.seqBusy = true) : ∃ m rest, s.NextEvent m rest := by
  obtain ⟨htodo, hhead, -⟩ := h.2 hb
  by_cases ht : s.todo = []
  · obtain ⟨i, hr, hline⟩ := hhead ht
    obtain ⟨m, rest, hl⟩ := exists_cons_of_follows (line_follows hline)
    exact ⟨m, rest, .inr ⟨ht, i, hr, hl⟩⟩
  · obtain ⟨m, rest, hl⟩ := exists_cons_of_follows (htodo ht)
    exact ⟨m, rest, .inl hl⟩

/-- A busy sequencer that meets the invariant makes its next event. -/
theorem sequencerStep_busy_next (h : s.SequencerOk) (hb : s.seqBusy = true) : ∃ t, sequencerStep s = .next t := by
  obtain ⟨m, rest, hm⟩ := exists_nextEvent h hb
  have hlegal := legal_of_follows (nextEvent_follows h hb hm)
  obtain ht | ⟨ht, i, hr, hl⟩ := hm
  · exact ⟨_, sequencerStep_todo hb ht hlegal⟩
  · exact ⟨_, sequencerStep_line hb hr ht hl hlegal⟩

end

/-- The bytes `bytes` are a well-formed instruction of the port `p`, encoded. -/
def EncodedAt (ly : Layout) (p : Port) (bytes : List Byte) : Prop := ∃ i : Instr, i.port = p ∧ i.wf ly = true ∧ bytes = encode ly i

theorem EncodedAt.decodes {ly : Layout} {p : Port} {bytes : List Byte} (h : EncodedAt ly p bytes) (hly : ly.wf = true) :
    ∃ i, decode ly p bytes = .ok i [] := by
  obtain ⟨i, rfl, hwf, rfl⟩ := h
  exact ⟨i, decodeEncodeRoundTrip ly i hly hwf⟩

/-- An idle sequencer goes on from every state whose ports hold encoded well-formed instructions. -/
theorem sequencerStep_idle_next {s : State} (hb : s.seqBusy = false) (hly : s.par.layout.wf = true)
    (haccess : ∀ bytes, s.access = some bytes → EncodedAt s.par.layout .hdr bytes)
    (hrequests : ∀ r ∈ s.requests, EncodedAt s.par.layout .req r.bytes) : ∃ t, sequencerStep s = .next t := by
  cases hi : s.irqPending with
  | true => exact ⟨_, sequencerStep_service hb hi⟩
  | false =>
    cases ha : s.access with
    | some bytes =>
      obtain ⟨i, hd⟩ := (haccess bytes ha).decodes hly
      exact ⟨_, (sequencerStep_access hb hi ha hd).trans (exec_idle hb)⟩
    | none =>
      cases hr : s.requests with
      | nil => exact ⟨s, by simp [sequencerStep, hb, hi, stepIdle, ha, hr]⟩
      | cons r rest =>
        obtain ⟨i, hd⟩ := (hrequests r (by simp [hr])).decodes hly
        exact ⟨_, (sequencerStep_request hb hi ha hr hd).trans (exec_idle hb)⟩

/-- Settles O58: the setting of the latch always answers, a busy sequencer has a legal next event, and what stands at the ports
decodes. -/
theorem stepAlwaysAnswersNext : Obligations.StepAlwaysAnswersNext := by
  intro s h hly haccess hrequests
  cases he : s.latches with
  | true => exact ⟨_, step_edge he⟩
  | false =>
    rw [step_quiet he]
    cases hb : s.seqBusy with
    | true => exact sequencerStep_busy_next (sequencerOk_withEdges.mpr h) hb
    | false => exact sequencerStep_idle_next hb hly haccess hrequests

/-! ### A frame request that is too long (R201, R202) -/

/-- SEND ends on line 1 where the sum of its lengths does not pass the oversize test, with no bus event (R141, R201). -/
theorem send_oversize_completes {s : State} {h p : Nat} (hb : s.seqBusy = false) (hmax : s.par.maxLen.toNat < h + p) :
    Completes (.send h p) s (s.completed 0x8 .oversize 0) := by
  have htotal := (reaches_take_request (i := .send h p) hb rfl).trans
    (reaches_line (ops := [.setTotal (h + p), .goto 1]) (c := s.cs) rfl rfl rfl (by simp) rfl rfl)
  exact htotal.completes (completes_line (ops := [.setKind .oversize, .setVal 0]) (m := .finish) (c := s.cs) rfl rfl
    (if_pos (decide_eq_true hmax)) rfl rfl rfl rfl)

/-- RECEIVE flushes once and reports OVERSIZE where the length byte is above the capacity (R144, R202). -/
theorem receive_oversize_completes {s : State} {C : Nat} (hb : s.seqBusy = false) (hbig : C < (s.answerAt 1).toNat) :
    Completes (.receive C) s
      ((s.afterScope (lengthActs s.par.layout ++ flushActs s.par.layout) 4).completed 0x9 .oversize 0) := by
  have hline : lineOf (.receive C) (s.inScope (.receive C) 0x9 2 { Locals.empty with s := s.answerAt 0, L := s.answerAt 1 }
      (s.trace ++ [.sel]) (lengthActs s.par.layout) (stateField s.par.layout (s.answerAt 0))
      (fifoField s.par.layout (s.answerAt 0))) = [.goto 3] := by
    show [Micro.goto (if exceedsCapacity (s.answerAt 1) C then 3 else 6)] = _
    simp [exceedsCapacity, hbig]
  have hflush := ((receive_length hb).trans (goto_line hline)).trans
    (line_inScope (k' := 4) (ops := flushRx s.par.layout) rfl (csRun_flushRx _) flushRx_inScope)
  rw [← finished_afterScope]
  exact hflush.completes (completes_inScope rfl fun t ht _ => by simp [lineOf, receiveLine, ht, raiseError])

/-! ### A request that waits for ever (R175, R207) -/

/-- The operation `i` stays on its waiting line, whatever number of events it makes. -/
def WaitsForever (i : Instr) (s : State) : Prop := ∀ n, ∃ t, Goes i n s t ∧ t.OnWaitLine i

/-- The instruction `i` completes from `s`, or from some event on it stays on its waiting line. -/
def EndsOrWaits (i : Instr) (s : State) : Prop :=
  (∃ t, Completes i s t) ∨ ∃ m, ∀ n, m ≤ n → ∃ t, Goes i n s t ∧ t.OnWaitLine i

section
variable {s u : State} {i : Instr} {code : BitVec 4} {k : Nat} {l : Locals} {tr : List Event} {acts : List Act} {st : BitVec 3}
  {ff : BitVec 4}

theorem EndsOrWaits.of_completes {t : State} (h : Completes i s t) : EndsOrWaits i s := .inl ⟨t, h⟩

theorem EndsOrWaits.of_waits {m : Nat} (hstart : Goes i m s u) (hw : WaitsForever i u) : EndsOrWaits i s := by
  refine .inr ⟨m, fun n hn => ?_⟩
  obtain ⟨t, hgoes, ht⟩ := hw (n - m)
  exact ⟨t, Nat.add_sub_cancel' hn ▸ hstart.trans hgoes, ht⟩

theorem inScope_onWaitLine (hk : waitLine i = some k) : (s.inScope i code k l tr acts st ff).OnWaitLine i := ⟨rfl, rfl, rfl, hk⟩

theorem effects_inert_onWaitLine {ops : List Micro} (ho : ops.all Micro.inert = true) (hw : s.OnWaitLine i) :
    (effects ops s).OnWaitLine i := by
  induction ops generalizing s with
  | nil => exact hw
  | cons m ops ih =>
    obtain ⟨hm, ho⟩ : m.inert = true ∧ ops.all Micro.inert = true := by simpa using ho
    refine ih ho ?_
    cases m <;> first | exact hw | cases hm

theorem csRun_inert {ops : List Micro} (ho : ops.all Micro.inert = true) : csRun true ops = some true := by
  induction ops with
  | nil => rfl
  | cons m ops ih =>
    obtain ⟨hm, ho⟩ : m.inert = true ∧ ops.all Micro.inert = true := by simpa using ho
    cases m <;> first | exact ih ho | cases hm

/-- The exchanges and latch writes at the head of a waiting line leave the operation on it. -/
theorem goes_inert_onWaitLine {ops rest : List Micro} (hw : s.OnWaitLine i) (ht : s.todo = []) (hl : lineOf i s = ops ++ rest)
    (ho : ops.all Micro.inert = true) : ∃ t, Goes i ops.length s t ∧ t.OnWaitLine i := by
  by_cases hne : ops = []
  · subst hne
    exact ⟨s, rfl, hw⟩
  · have heffects := effects_inert_onWaitLine ho hw
    obtain ⟨hb, hcs, -, -⟩ := hw
    exact ⟨_, goes_prefix hb ht hl hne (hcs ▸ csRun_inert ho), heffects⟩

/-- Within a poll the operation is on its waiting line. -/
theorem poll_onWaitLine (hw : s.OnWaitLine i) (ht : s.todo = []) (hl : lineOf i s = waitRX s.par.layout k) {n : Nat} (hn : n < 4) :
    ∃ t, Goes i n s t ∧ t.OnWaitLine i := by
  have hstrobe := inert_strobe s.par.layout s.par.layout.addrMap.snop
  rw [waitRX, ← List.take_append_drop n (strobe ..), List.append_assoc] at hl
  rw [← List.take_append_drop n (strobe ..), List.all_append, Bool.and_eq_true] at hstrobe
  have hlength : ((strobe s.par.layout s.par.layout.addrMap.snop).take n).length = n := by simp [strobe, hdrXfer]; omega
  exact hlength ▸ goes_inert_onWaitLine hw ht hl hstrobe.1

/-- While no poll reports `RX`, `WaitRX` goes on polling (R117). -/
theorem polls_waitForever (hk : waitLine i = some k) (hwait : ∀ t : State, t.seqStep = k → lineOf i t = waitRX t.par.layout k)
    (hno : ∀ j, s.radioAt j ≠ .rx) : WaitsForever i (s.inScope i code k l tr acts st ff) := by
  intro n
  obtain ⟨b, st', ff', hpolls⟩ := polls_goes (s := s) (code := code) (l := l) (tr := tr) (acts := acts) (st := st) (ff := ff) (n / 4)
    (fun _ _ _ _ => hwait _ rfl) fun _ _ => hno _
  obtain ⟨t, hgoes, ht⟩ := poll_onWaitLine (inScope_onWaitLine hk) rfl (hwait _ rfl) (Nat.mod_lt n (by omega))
  exact ⟨t, Nat.div_add_mod n 4 ▸ hpolls.trans hgoes, ht⟩

/-- While `NOT_READY` stays 1, `WaitReady` goes on testing (R116). -/
theorem ready_waitForever (hk : waitLine i = some k) (hwait : ∀ t : State, t.seqStep = k → lineOf i t = waitReady k)
    (hno : ∀ j, s.notReadyAt j = true) : WaitsForever i (s.inScope i code k l tr acts st ff) := fun n =>
  ⟨_, ready_goes n (fun _ => hwait _ rfl) fun _ _ => hno _, inScope_onWaitLine hk⟩

/-- The first of the inputs that ends a wait, or none of them does. -/
theorem exists_first_or_forall (P : Nat → Prop) : (∃ n, P n ∧ ∀ k, k < n → ¬ P k) ∨ ∀ n, ¬ P n := by
  classical
  by_cases h : ∃ n, P n
  · exact .inl ⟨Nat.find h, Nat.find_spec h, fun _ hk => Nat.find_min h hk⟩
  · exact .inr (not_exists.mp h)

/-- An operation that comes to its `WaitReady` and completes once the chip is ready. -/
theorem EndsOrWaits.of_ready {m : Nat} (hstart : Goes i m s (s.inScope i code k l tr acts st ff)) (hk : waitLine i = some k)
    (hwait : ∀ t : State, t.seqStep = k → lineOf i t = waitReady k)
    (hdone : ∀ n, (∀ j, j < n → s.notReadyAt j = true) → s.notReadyAt n = false → ∃ t, Completes i s t) : EndsOrWaits i s := by
  obtain ⟨n, hyes, hno⟩ | hno := exists_first_or_forall fun n => s.notReadyAt n = false
  · exact .inl (hdone n (by simpa using hno) hyes)
  · exact .of_waits hstart (ready_waitForever hk hwait (by simpa using hno))

/-- An operation that comes to its `WaitRX` and completes once a poll reports `RX`. -/
theorem EndsOrWaits.of_polls {m : Nat} (hstart : Goes i m s (s.inScope i code k l tr acts st ff)) (hk : waitLine i = some k)
    (hwait : ∀ t : State, t.seqStep = k → lineOf i t = waitRX t.par.layout k)
    (hdone : ∀ n, (∀ j, j < n → s.radioAt j ≠ .rx) → s.radioAt n = .rx → ∃ t, Completes i s t) : EndsOrWaits i s := by
  obtain ⟨n, hrx, hno⟩ | hno := exists_first_or_forall fun n => s.radioAt n = .rx
  · exact .inl (hdone n hno hrx)
  · exact .of_waits hstart (polls_waitForever hk hwait hno)

end

section
variable {s : State}

theorem send_endsOrWaits (h p : Nat) (hb : s.seqBusy = false) : EndsOrWaits (.send h p) s := by
  obtain hmax | hmax := Nat.lt_or_ge s.par.maxLen.toNat (h + p)
  · exact .of_completes (send_oversize_completes hb hmax)
  · exact .of_polls (send_start hb hmax) rfl (fun t ht => by simp [lineOf, sendLine, ht])
      fun n hno hrx => ⟨_, sendCompletes s h p n hb hmax hno hrx⟩

theorem receive_endsOrWaits (C : Nat) (hb : s.seqBusy = false) : EndsOrWaits (.receive C) s := by
  obtain hbig | hfits := Nat.lt_or_ge C (s.answerAt 1).toNat
  · exact .of_completes (receive_oversize_completes hb hbig)
  · exact .of_completes (receiveCompletes s C hb hfits)

/-- Every request that an idle sequencer takes completes or waits for ever: the four with a wait by the inputs, every other one by its
completion. -/
theorem request_endsOrWaits {i : Instr} (hp : i.port = .req) (hb : s.seqBusy = false) : EndsOrWaits i s := by
  cases i <;> cases hp
  case init =>
    exact .of_ready (start_inScope hb rfl fun _ => lineOf_init_open) rfl (fun _ => lineOf_init_wait)
      fun n hno hyes => ⟨_, initCompletesWhenReady s n hb hno hyes⟩
  case radioOn =>
    exact .of_ready (start_inScope hb rfl fun _ => lineOf_radioOn_open) rfl (fun _ => lineOf_radioOn_wait)
      fun n hno hyes => ⟨_, onCompletesWhenReady s n hb hno hyes⟩
  case radioOff =>
    exact .of_polls (off_start hb) rfl (fun _ => lineOf_radioOff_wait) fun n hno hrx => ⟨_, offCompletesInRX s n hb hno hrx⟩
  case setChannel n => exact .of_completes (writeRegister_completes AddrMap.channr hb rfl fun _ => rfl)
  case setTxPower level => exact .of_completes (writeRegister_completes AddrMap.patable hb rfl fun _ => rfl)
  case setAddress addr => exact .of_completes (writeRegister_completes AddrMap.addr hb rfl fun _ => rfl)
  case setCallback r => exact .of_completes (setCallbackCompletes s r hb)
  case send h p => exact send_endsOrWaits h p hb
  case receive C => exact receive_endsOrWaits C hb
  case discard => exact .of_completes (discardFlushesUnconditionally s hb)
  case getRssi =>
    obtain ⟨hdone, -⟩ := getRssiReturnsRawByte s hb
    exact .of_completes hdone
  case getLastRssi | getLastLqi | isChannelClear | reserved0 | reservedF => exact .of_completes (answer_completes hb rfl rfl)

end

/-! ### Edges do not hold a running operation up (R175, R209; assumption 12) -/

theorem run_add {m n : Nat} {s t : State} (h : core.run m s = .next t) : core.run (m + n) s = core.run n t := by
  induction m generalizing s with
  | zero =>
    obtain rfl : s = t := Host.Outcome.next.inj h
    rw [Nat.zero_add]
  | succ m ih =>
    cases hs : step s with
    | next u =>
      rw [run_succ hs] at h
      rw [Nat.succ_add, run_succ hs, ih h]
    | fault r =>
      have hc : core.step s = .fault r := hs
      simp [Host.Core.run, hc] at h
    | refused r =>
      have hc : core.step s = .refused r := hs
      simp [Host.Core.run, hc] at h

theorem upcoming_add {α : Type} (free : Nat → α) (a b : Nat) (m : Source α) :
    m.upcoming free (a + b) = m.upcoming free a ++ (m.skip a).upcoming free b := by
  induction a generalizing m with
  | zero => simp [Source.upcoming, Source.skip]
  | succ a ih => simp [Nat.succ_add, Source.upcoming, Source.skip, ih]

/-- Some steps from the state `s` with the interrupt inputs `b` and `e` leave `t`, with the edges that came gathered in the latch. -/
def RunsTo (s t : State) (b : Bool) (e : Source Bool) : Prop :=
  ∃ n, core.run n (s.withEdges b e) = .next (t.withEdges (b || (e.upcoming Config.packetEdge n).any id) (e.skip n))

section
variable {s t u : State} {i : Instr} {b : Bool} {e : Source Bool}

theorem RunsTo.trans (h1 : RunsTo s t b e) (h2 : ∀ b e, RunsTo t u b e) : RunsTo s u b e := by
  obtain ⟨m, h1⟩ := h1
  obtain ⟨n, h2⟩ := h2 (b || (e.upcoming Config.packetEdge m).any id) (e.skip m)
  refine ⟨m + n, (run_add h1).trans (h2.trans ?_)⟩
  rw [upcoming_add, List.any_append, Bool.or_assoc, skip_add]

/-- An event of the running operation is one step where no edge sets the latch first (R28, R175). -/
theorem step_event (hb : s.seqBusy = true) (hr : s.running = some i) (he : exec i s = .next t)
    (hq : (s.withEdges b e).latches = false) : step (s.withEdges b e) = .next (t.withEdges b e.advance) := by
  rw [step_quiet hq]
  exact (sequencerStep_running (s := s.withEdges b e.advance) hb hr).trans (exec_withEdges b e.advance he)

/-- An event of the running operation comes with the next step, or with the one after it where an edge sets the latch first. -/
theorem runsTo_event (hb : s.seqBusy = true) (hr : s.running = some i) (he : exec i s = .next t) (b : Bool) (e : Source Bool) :
    RunsTo s t b e := by
  cases hl : (s.withEdges b e).latches with
  | false =>
    have hedge : (b || e.next Config.packetEdge) = b := pending_quiet hl
    refine ⟨1, (run_succ (step_event hb hr he hl)).trans ?_⟩
    simp [Host.Core.run, Source.upcoming, Source.skip, hedge]
  | true =>
    obtain ⟨hedge, hpending⟩ := latches_iff.mp hl
    have hedge : e.next Config.packetEdge = true := hedge
    have hevent := step_event (b := true) (e := e.advance) hb hr he (latches_of_pending rfl)
    refine ⟨2, (run_succ (step_edge hl)).trans ((run_succ hevent).trans ?_)⟩
    simp [Host.Core.run, Source.upcoming, Source.skip, hedge]

/-- A running operation that completes by its own events completes under `step`, whatever edges come. -/
theorem runsTo_of_completes (hb : s.seqBusy = true) (hr : s.running = some i) (hc : Completes i s t) (b : Bool) (e : Source Bool) :
    RunsTo s t b e := by
  obtain ⟨n, u, hgoes, hlast, -⟩ := hc
  induction n generalizing s b e with
  | zero => exact runsTo_event hb hr (show exec i s = .next t from hgoes ▸ hlast) b e
  | succ n ih =>
    obtain ⟨v, hv, hvb, hgoes⟩ := hgoes
    exact (runsTo_event hb hr hv b e).trans fun b e => ih hvb ((exec_keeps_running hb hv hvb).trans hr) b e hgoes

end

/-- Settles O54: a request has at most one wait, which ends with an input or never; and each event of a running operation takes one
step, or two where an edge sets the latch first. -/
theorem requestEndsOrWaits : Obligations.RequestEndsOrWaits :=
  ⟨fun _ _ hp hb => request_endsOrWaits hp hb, fun _ s _ hb hr hc => runsTo_of_completes hb hr hc s.irqPending s.pktEdge⟩

end Sys2Proof.Machine
end

section
/-! PROOFS. The family `60_exceptions.md`: what an oversize frame comes to (R201, R202), how a software host reads it (R203), the waits
that go on without bound while edges come (R207, R211), and the service of an edge (R211–R214). -/

namespace Sys2Proof.Machine

/-! ### Oversize frames (R201–R203) -/

/-- Settles O35: the rejection is `send_oversize_completes`, and an accepted SEND completes with OK, if it completes at all. -/
theorem sendOversizeRejected : Obligations.SendOversizeRejected := by
  intro s h p hb
  refine ⟨send_oversize_completes hb, fun hc => ?_⟩
  by_contra hmax
  have hmax : h + p ≤ s.par.maxLen.toNat := Nat.not_lt.mp hmax
  have hrx := send_completes_rx hb hmax hc
  have hok := send_completes hb hmax (fun k hk => Nat.find_min hrx hk) (Nat.find_spec hrx)
  have hkind : ResKind.oversize = .ok := congrArg State.resKind (hc.unique hok)
  cases hkind

/-- Settles O39: the run is `receive_oversize_completes`, and the five bytes are the encodings in the reference layout. -/
theorem receiveOversizeFlushesOnce : Obligations.ReceiveOversizeFlushesOnce := by
  intro s C hb hbig acts
  refine ⟨receive_oversize_completes hb hbig, fun hl => ?_⟩
  simp only [acts, hl]
  decide

/-- Settles O60: a result read as OK is a natural number, and `ERR_OVERSIZE` is negative. -/
theorem softwareHostSeesDistinctError : Obligations.SoftwareHostSeesDistinctError := by
  intro s
  have hneg : s.par.errOversize < 0 := Int.negSucc_lt_zero s.par.errCode
  refine ⟨fun hk => ⟨by rw [State.softwareReturn, hk], hneg⟩, fun hk => ?_⟩
  have hread : s.softwareReturn = some (s.resVal : Int) := by rw [State.softwareReturn, hk]
  refine ⟨hread, fun herr => ?_⟩
  have hval : (s.resVal : Int) = s.par.errOversize := Option.some.inj (hread.symm.trans herr)
  omega

/-! ### Waits without bound (R207) -/

section
variable {s t : State} {i : Instr} {code : BitVec 4} {k : Nat} {l : Locals} {tr : List Event} {acts : List Act} {st : BitVec 3}
  {ff : BitVec 4}

/-- The steps of a running operation are its events, with the edges that come gathered in the latch (R175, R209). -/
theorem run_goes {n : Nat} {b : Bool} {e : Source Bool} (hb : s.seqBusy = true) (hr : s.running = some i)
    (hg : Goes i ((s.withEdges b e).events n) s t) :
    core.run n (s.withEdges b e) = .next (t.withEdges (b || ((s.withEdges b e).edges n).any id) (e.skip n)) := by
  induction n generalizing s b e with
  | zero =>
    rw [events_zero] at hg
    obtain rfl : s = t := hg
    simp [Host.Core.run, State.edges, Source.upcoming, Source.skip]
  | succ n ih =>
    have hpend := pending_succ (s.withEdges b e) n
    rw [withEdges_irqPending] at hpend
    rw [hpend]
    cases hl : (s.withEdges b e).latches with
    | true =>
      rw [events_latch hl] at hg
      rw [run_succ (step_edge hl), (latches_iff.mp hl).1, Bool.or_true]
      exact ih (s := s) hb hr hg
    | false =>
      rw [events_quiet hl] at hg
      obtain ⟨u, hu, hub, hg⟩ := hg
      have hquiet : (b || (s.withEdges b e).edgeNow) = b := pending_quiet hl
      rw [run_succ (step_event hb hr hu hl), hquiet]
      exact ih hub ((exec_keeps_running hb hu hub).trans hr) hg

/-- The steps of an operation at the head of its waiting line are its events. -/
theorem State.Waiting.run {n : Nat} (hw : s.Waiting i) (hg : Goes i (s.events n) s t) :
    core.run n s = .next (t.withEdges (s.irqPending || (s.edges n).any id) (s.pktEdge.skip n)) := by
  obtain ⟨hb, -, hr, -, -⟩ := hw
  exact run_goes (b := s.irqPending) (e := s.pktEdge) hb hr hg

/-- No more events than steps. -/
theorem events_le (s : State) (n : Nat) : s.events n ≤ n := by
  unfold State.events
  split
  · exact le_rfl
  · exact Nat.sub_le ..

/-- Writes of the latch inside a scope change the latch alone. -/
theorem latches_inScope {ops : List Micro} (ho : ops ⊆ [.latchState, .latchFifo]) :
    ∃ st' ff', effects ops (s.inScope i code k l tr acts st ff) = s.inScope i code k l tr acts st' ff' := by
  induction ops generalizing st ff with
  | nil => exact ⟨st, ff, rfl⟩
  | cons m ops ih =>
    obtain ⟨hm, hops⟩ := List.cons_subset.mp ho
    obtain rfl | rfl : m = .latchState ∨ m = .latchFifo := by simpa using hm
    · exact ih hops
    · exact ih hops

theorem pollActs_add (ly : Layout) (a b : Nat) : pollActs ly a ++ pollActs ly b = pollActs ly (a + b) := by
  rw [pollActs, pollActs, pollActs, ← outs_append, List.replicate_append_replicate]

/-- The first events of a poll: from the first on, its exchange is recorded (R117). -/
theorem poll_prefix (hl : lineOf i (s.inScope i code k l tr acts st ff) = waitRX s.par.layout k) {r : Nat} (hr : r < 4) :
    ∃ l' st' ff' rest, Goes i r (s.inScope i code k l tr acts st ff)
      ((s.inScope i code k l' tr (acts ++ pollActs s.par.layout ((r + 3) / 4)) st' ff').setTodo rest) := by
  cases r with
  | zero => exact ⟨l, st, ff, [], congrArg (s.inScope i code k l tr · st ff) (List.append_nil acts).symm⟩
  | succ r =>
    have hpolls : (r + 1 + 3) / 4 = 1 := by omega
    obtain ⟨st', ff', hlatch⟩ := latches_inScope (s := s) (i := i) (code := code) (k := k)
      (l := l.bind .s (s.answerAt (exchanges acts))) (tr := tr) (acts := acts ++ pollActs s.par.layout 1) (st := st) (ff := ff)
      (List.take_subset r [Micro.latchState, .latchFifo])
    have heffects : effects ((strobe s.par.layout s.par.layout.addrMap.snop).take (r + 1)) (s.inScope i code k l tr acts st ff) = _ :=
      (congrArg (effects _) (xfer_inScope _ _)).trans hlatch
    have hinert := inert_strobe s.par.layout s.par.layout.addrMap.snop
    rw [waitRX, ← List.take_append_drop (r + 1) (strobe ..), List.append_assoc] at hl
    rw [← List.take_append_drop (r + 1) (strobe ..), List.all_append, Bool.and_eq_true] at hinert
    obtain ⟨hinert, -⟩ := hinert
    have hlength : ((strobe s.par.layout s.par.layout.addrMap.snop).take (r + 1)).length = r + 1 := by simp [strobe, hdrXfer]; omega
    have hne : (strobe s.par.layout s.par.layout.addrMap.snop).take (r + 1) ≠ [] := by simp [strobe, hdrXfer]
    have hgoes := goes_prefix rfl rfl hl hne (csRun_inert hinert)
    rw [hlength, heffects] at hgoes
    rw [hpolls]
    exact ⟨_, _, _, _, hgoes⟩

/-- The first events of the poll loop on line `k` while no answer reports `RX`: one exchange in every four (R117). -/
theorem polls_prefix (n : Nat) (hwait : ∀ t : State, t.seqStep = k → lineOf i t = waitRX t.par.layout k)
    (hno : ∀ j, j < n → s.radioAt (exchanges acts + j) ≠ .rx) :
    ∃ l' st' ff' rest, Goes i n (s.inScope i code k l tr acts st ff)
      ((s.inScope i code k l' tr (acts ++ pollActs s.par.layout ((n + 3) / 4)) st' ff').setTodo rest) := by
  obtain ⟨b, st', ff', hpolls⟩ := polls_goes (l := l) (tr := tr) (code := code) (st := st) (ff := ff) (n / 4)
    (fun _ _ _ _ => hwait _ rfl) fun j hj => hno j (by omega)
  obtain ⟨l', st', ff', rest, hpart⟩ := poll_prefix (hwait (s.inScope i code k { l with s := b } tr
    (acts ++ pollActs s.par.layout (n / 4)) st' ff') rfl) (Nat.mod_lt n (by omega))
  have hcount : n / 4 + (n % 4 + 3) / 4 = (n + 3) / 4 := by omega
  have hgoes := hpolls.trans hpart
  rw [Nat.div_add_mod, List.append_assoc, pollActs_add, hcount] at hgoes
  exact ⟨l', st', ff', rest, hgoes⟩

/-- An operation whose polls go on without `RX` stays on its waiting line, with its polls recorded and edges gathered in the latch. -/
theorem State.Waiting.polls_run {n : Nat} (hw : s.Waiting i) (hk : waitLine i = some k)
    (hwait : ∀ t : State, t.seqStep = k → lineOf i t = waitRX t.par.layout k) (hno : ∀ j, j < n → s.radioAt j ≠ .rx) :
    ∃ t, core.run n s = .next t ∧ t.OnWaitLine i ∧ t.op = s.op ∧
      t.trace = s.trace ++ play (pollActs s.par.layout ((s.events n + 3) / 4)) s.miso ∧
      t.resKind = s.resKind ∧ t.resVal = s.resVal ∧ t.requests = s.requests ∧
      t.irqPending = (s.irqPending || (s.edges n).any id) := by
  obtain ⟨l', st', ff', rest, hgoes⟩ := polls_prefix (s := s) (code := s.op) (l := s.locals) (tr := s.trace) (acts := [])
    (st := s.stState) (ff := s.stFifo) (s.events n) hwait fun j hj => by
      rw [exchanges, Nat.zero_add]
      exact hno j (hj.trans_le (events_le s n))
  rw [← waiting_inScope hw hk] at hgoes
  exact ⟨_, hw.run hgoes, ⟨rfl, rfl, rfl, hk⟩, rfl, rfl, rfl, rfl, rfl, rfl⟩

/-- Tests that find `NOT_READY` = 1 leave an operation at the head of its waiting line (R116). -/
theorem State.Waiting.goes_ready {m : Nat} (hw : s.Waiting i) (hk : waitLine i = some k)
    (hwait : ∀ t : State, t.seqStep = k → lineOf i t = waitReady k) (hno : ∀ j, j < m → s.notReadyAt j = true) :
    Goes i m s (s.skipReady m) := by
  have hgoes := ready_goes (i := i) (code := s.op) (l := s.locals) (tr := s.trace) (acts := []) (st := s.stState) (ff := s.stFifo) m
    (fun _ => hwait _ rfl) hno
  have hw' : (s.skipReady m).Waiting i := hw
  rw [← waiting_inScope hw hk] at hgoes
  exact waiting_inScope hw' hk ▸ hgoes

end

/-- Settles O45: of the events in `n` steps every fourth is a poll, and none of them leads off the line. -/
theorem hungPollKeepsPolling : Obligations.HungPollKeepsPolling := by
  rintro n s i (rfl | ⟨h, p, rfl⟩) hw hno
  · exact hw.polls_run rfl (fun _ => lineOf_radioOff_wait) hno
  · exact hw.polls_run rfl (fun t ht => by simp [lineOf, sendLine, ht]) hno

/-- Settles O46: each event of the wait is a test that leads back to its own line. -/
theorem hungReadyWaitKeepsWaiting : Obligations.HungReadyWaitKeepsWaiting := by
  intro n s i hi hw hno
  have hno' : ∀ j, j < s.events n → s.notReadyAt j = true := fun j hj => hno j (hj.trans_le (events_le s n))
  obtain rfl | rfl := hi
  · exact hw.run (hw.goes_ready rfl (fun _ => lineOf_init_wait) hno')
  · exact hw.run (hw.goes_ready rfl (fun _ => lineOf_radioOn_wait) hno')

/-! ### The service of an edge (R211–R214) -/

/-- How many steps start the service of an edge at an idle point: one, or two where the first sets the latch (R209, R211). -/
def State.serviceStart (s : State) : Nat := if s.irqPending then 1 else 2

/-- Whether an edge comes in the `n` steps after the service began (R214). -/
def State.edgeAgain (s : State) (n : Nat) : Bool := ((s.edges (s.serviceStart + n)).drop s.serviceStart).any id

section
variable {s : State} {ops : List Micro} {c : Bool}

/-- A pending or arriving edge starts a service at an idle point, whatever else waits (R211, R215). -/
theorem run_serviceStart (hb : s.seqBusy = false) (hedge : (s.irqPending || s.edgeNow) = true) :
    core.run s.serviceStart s = .next ((beginService s).withEdges false (s.pktEdge.skip s.serviceStart)) := by
  cases hi : s.irqPending with
  | true =>
    have hstep : step s = .next (beginService (s.withEdges s.irqPending s.pktEdge.advance)) :=
      (step_quiet (latches_of_pending hi)).trans (sequencerStep_service hb hi)
    rw [State.serviceStart, if_pos hi, run_succ hstep]
    rfl
  | false =>
    have hedge : s.edgeNow = true := by simpa [hi] using hedge
    have hstep : step (s.withEdges true s.pktEdge.advance) = .next _ :=
      (step_quiet (latches_of_pending rfl)).trans (sequencerStep_service hb rfl)
    rw [State.serviceStart, if_neg (by simp [hi]), run_succ (step_edge (latches_iff.mpr ⟨hedge, hi⟩)), run_succ hstep]
    rfl

/-- The samples of the steps after the first `a`. -/
theorem edges_drop (s : State) (a n : Nat) : (s.edges (a + n)).drop a = (s.pktEdge.skip a).upcoming Config.packetEdge n := by
  rw [State.edges, upcoming_add, List.drop_left' (upcoming_length ..)]

/-- Events that keep the sequencer busy and to the scope, and the end of the service, can be made in a row. -/
theorem runsAll_service (hb : s.seqBusy = true) (hc : csRun s.cs ops = some c) : RunsAll (ops ++ [.finishService]) s := by
  induction ops generalizing s with
  | nil => exact ⟨hb, rfl, trivial⟩
  | cons m ops ih =>
    obtain ⟨hl, hb', hc⟩ := effect_csRun hc
    exact ⟨hb, hl, ih (hb'.trans hb) hc⟩

/-- A service of the events `ops`: each of them and its end is a step, and one more step sets the latch where a later edge comes. -/
theorem run_service {n : Nat} (hb : s.seqBusy = false) (hedge : (s.irqPending || s.edgeNow) = true)
    (hops : serviceEvents s = ops ++ [.finishService]) (hc : csRun s.cs ops = some c)
    (hn : n = ops.length + 1 + (s.edgeAgain n).toNat) :
    core.run (s.serviceStart + n) s = .next
      (((effects (ops ++ [.finishService]) (beginService s)).setTodo []).withEdges (s.edgeAgain n)
        (s.pktEdge.skip (s.serviceStart + n))) := by
  have hagain : ((s.pktEdge.skip s.serviceStart).upcoming Config.packetEdge n).any id = s.edgeAgain n := by
    rw [State.edgeAgain, edges_drop]
  have hevents : ((beginService s).withEdges false (s.pktEdge.skip s.serviceStart)).events n = (ops ++ [Micro.finishService]).length := by
    simp only [State.events, State.edges, withEdges_irqPending, withEdges_pktEdge, hagain, List.length_append, List.length_singleton]
    simp only [Bool.false_eq_true, if_false]
    omega
  have hrun := run_todo (s := (beginService s).withEdges false (s.pktEdge.skip s.serviceStart)) hops
    (runsAll_withEdges (runsAll_service rfl hc)) hevents
  rw [effects_withEdges] at hrun
  simp only [State.edges, withEdges_irqPending, withEdges_pktEdge, hagain, Bool.false_or, ← skip_add] at hrun
  exact (run_add (run_serviceStart hb hedge)).trans hrun

/-- The bus, the latch and the locals after the strobe `a` (R107, R112). -/
def State.strobed (s : State) (a : Byte) : State :=
  { s.latchedAt 0 with
      miso := s.miso.advance, trace := s.trace ++ [.x (strobeByte s.par.layout a) (s.answerAt 0)]
      locals := { s.locals with s := s.answerAt 0 } }

theorem effects_discardFrames_eq_strobed (s : State) :
    effects (discardFrames s.par.layout) s = (((s.select.strobed s.par.layout.addrMap.sidle).strobed s.par.layout.addrMap.sfrx).strobed
      s.par.layout.addrMap.srx).release := rfl

/-- The flush sequence in a scope of its own leaves the bus as after that scope (R118, R212). -/
theorem effects_discardFrames (s : State) :
    effects (discardFrames s.par.layout) s =
      { s.afterScope (flushActs s.par.layout) 2 with locals := { s.locals with s := s.answerAt 2 } } := by
  rw [effects_discardFrames_eq_strobed]
  simp [State.select, State.strobed, State.latchedAt, State.answerAt, State.release, State.afterScope, State.afterActs, flushActs, outs,
    play, exchanges, Source.skip]

end

/-- Settles O14: the events of the service are those of one flush sequence in a scope of its own. -/
theorem edgeWithoutHandlerFlushesOnce : Obligations.EdgeWithoutHandlerFlushesOnce := by
  intro s n hb hedge hr start again hn
  have hops : serviceEvents s = discardFrames s.par.layout ++ [.finishService] := by simp [serviceEvents, hr]
  refine (run_service hb hedge hops (c := false) rfl hn).trans ?_
  have hscope := effects_discardFrames (beginService s)
  rw [beginService_par] at hscope
  rw [effects_append, hscope]
  cases s
  cases hb
  rfl

/-- Settles O15: the events of the service are one notification and its end. -/
theorem edgeWithHandlerNotifiesOnce : Obligations.EdgeWithHandlerNotifiesOnce := by
  intro s n hb hedge hr start again hn
  have hops : serviceEvents s = [.notify] ++ [.finishService] := by simp [serviceEvents, hr]
  refine (run_service hb hedge hops (c := s.cs) rfl hn).trans ?_
  cases s
  cases hb
  rfl

end Sys2Proof.Machine
end

section
/-! PROOFS. The family `70_reset_and_hazards.md`: the step of an idle block that has nothing to do (R241). -/

namespace Sys2Proof.Machine

/-- An idle sequencer with no edge pending and nothing at either port has no event to make (R241). -/
theorem sequencerStep_nothing {s : State} (hb : s.seqBusy = false) (hi : s.irqPending = false) (ha : s.access = none)
    (hr : s.requests = []) : sequencerStep s = .next s := by
  rw [sequencerStep, if_neg (by simp [hb]), if_neg (by simp [hi]), stepIdle, ha, hr]

/-- Settles O9: with no edge coming the step is an event of the sequencer, and at an idle point with both ports empty that is none. -/
theorem idleStepOnlySamplesEdge : Obligations.IdleStepOnlySamplesEdge := by
  intro s hb hi he ha hr
  rw [step_quiet (latches_of_noEdge he)]
  exact sequencerStep_nothing (s := s.withEdges s.irqPending s.pktEdge.advance) hb hi ha hr

end Sys2Proof.Machine
end
